-- ==== Sys2Proof/Word.lean ====
section
/-! DEFINITION. The words of the host port and the two levels of the line (10_state.md R20). -/

namespace Sys2Proof

/-- A register of the host port: 32 bits (20_memory.md R63). -/
abbrev Word := BitVec 32

/-- The 16-bit value of `SHREG`, of the operand `V` and of `RESULT` (10_state.md R32, R40). -/
abbrev Half := BitVec 16

/-- A payload byte (10_state.md R23). -/
abbrev Byte := BitVec 8

/-- A tick number: `now`, `T_S` and `T0` have `CLK_W` = 64 bits (00_scope.md R10; 10_state.md R20, R40).
Within a run the clock does not come round (00_scope.md R11); that it would count on from 0 is the
model's (DESIGN CHOICE, log 6). -/
abbrev Tick := BitVec 64

/-- A level of the line: `Inactive` is the resting level, `Active` the level of a pulse
(00_scope.md R11). -/
inductive Level where
  | inactive
  | active
deriving DecidableEq, Repr

end Sys2Proof
end

