-- ==== Sys2Proof/Config.lean ====
section
/-! DEFINITION. The named parameters of the block (00_scope.md R8 to R10): what one instance is
built with and nothing changes afterwards. The spec leaves their values open, so they are plain
data that State carries, and statements hold for every value that meets the spec's constraints. -/

namespace Sys2Proof

/-- The construction parameters of one node, durations in ticks (00_scope.md R9, R10). -/
structure Params where
  /-- `T_START_HIGH`: active duration of a start bit -/
  tStartHigh : Nat
  /-- `T_START_TOTAL`: period of a transmitted start bit -/
  tStartTotal : Nat
  /-- `START_TOL`: tolerance of start-bit classification -/
  startTol : Nat
  /-- `T_BIT`: period of a data bit -/
  tBit : Nat
  /-- `T_HIGH_0`: active duration of symbol 0 -/
  tHigh0 : Nat
  /-- `T_HIGH_1`: active duration of symbol 1 -/
  tHigh1 : Nat
  /-- `T_WAIT_MAX`: deadline of one wait for a level; `none` is `INF` -/
  tWaitMax : Option Nat
  /-- `T_BUSFREE_MAX`: bound of the wait for a free bus; `none` is `INF` -/
  tBusFreeMax : Option Nat
  /-- `T_ACK_DELAY`: inactive ticks before the responder's handshake pulse -/
  tAckDelay : Nat
  /-- `FD_SYMBOL`: the symbol of the broadcast-type bit that means `ForDevice` -/
  fdSymbol : Bool
  /-- `LOCAL_ADDR`: this node's address -/
  localAddr : BitVec 12
deriving DecidableEq, Repr

/-- `T_WAIT_MAX` exceeds `n` ticks; `INF` exceeds every number (00_scope.md R10). -/
def Params.waitExceeds (p : Params) (n : Nat) : Bool :=
  match p.tWaitMax with
  | none => true
  | some m => decide (n < m)

/-- The constraints of 00_scope.md R9 and R10, without which the rules are not well defined. -/
def Params.wf (p : Params) : Bool :=
  decide (0 < p.tStartHigh) && decide (p.tStartHigh < p.tStartTotal) &&
  decide (p.tBit < p.tStartTotal) && decide (p.startTol ≤ p.tStartHigh) &&
  decide (p.tStartHigh - p.startTol ≤ 171) && decide (171 ≤ p.tStartHigh + p.startTol) &&
  decide (p.tHigh0 < p.tBit) && decide (p.tHigh1 < p.tBit) &&
  decide (1 ≤ p.tHigh0) && decide (1 ≤ p.tHigh1) && decide (p.tHigh0 ≠ p.tHigh1) &&
  p.waitExceeds (p.tStartHigh + p.startTol)

/-- `P_REF` with the other values of the spec's examples: the profile of every numeric example
(00_scope.md R9, R10; 95_test_vectors.md). DESIGN CHOICE, unsafe for a claim about this one
instance: only the 171 is the source's (log 1). -/
def Params.ref : Params where
  tStartHigh := 171
  tStartTotal := 190
  startTol := 20
  tBit := 39
  tHigh0 := 33
  tHigh1 := 20
  tWaitMax := some 1000
  tBusFreeMax := some 10000
  tAckDelay := 0
  fdSymbol := true
  localAddr := 0x123

/-- `N_MAX`: the largest bit count of RXBITS and TXBITS (00_scope.md R10). -/
def nMax : Nat := 16

end Sys2Proof
end

