-- ==== Sys2Proof/Syntax.lean ====
section
/-! DEFINITION. The 14 operations of the block (00_scope.md R5), one constructor per row of
spec/opcode_table.json, with the operands of 30_encoding.md R91. -/

namespace Sys2Proof

/-- A handshake value; its number is the wire symbol, 0 `Acknowledged` and 1 `Rejected`
(00_scope.md R12, 30_encoding.md R81). -/
inductive Ack where
  | acknowledged
  | rejected
deriving DecidableEq, Repr

/-- An operation of the block with its operands. -/
inductive Instr where
  /-- `enable()`, 40_gate_control.md R110 -/
  | enable
  /-- `disable()`, R111 -/
  | disable
  /-- `isEnabled()`, R112 -/
  | isen
  /-- `isBusFree()`, 41_codec_receive.md R123 -/
  | busfree
  /-- `receiveStartBit()`, R124 -/
  | rxstart
  /-- `receiveBit()`, R125 -/
  | rxbit
  /-- `receiveBits(n)`, R126; `n` is the field `N` of the command word -/
  | rxbits (n : BitVec 5)
  /-- `receiveAckBit()`, R127 -/
  | rxack
  /-- `transmitStartBit()`, 42_codec_transmit.md R141 -/
  | txstart
  /-- `transmitBit(b)`, R142; `true` is the bit 1 -/
  | txbit (b : Bool)
  /-- `transmitBits(v,n)`, R143 -/
  | txbits (v : Half) (n : BitVec 5)
  /-- `sendAckBit(ack)`, R144 -/
  | txack (a : Ack)
  /-- `readMessage()`, 44_framer_read.md R170 -/
  | readmsg
  /-- `writeMessage(message)`, 45_framer_write.md R190 -/
  | writemsg
deriving DecidableEq, Repr

end Sys2Proof
end

