-- ==== Sys2Proof/Machine/State.lean ====
section
/-! DEFINITION. All the state the spec gives the block (10_state.md), the inputs still to come, and
the state after reset. INVENTORY.md's heading State lists each item with its rule. -/

namespace Sys2Proof.Machine

/-- The error codes of 60_exceptions.md R210. -/
inductive ErrCode where
  | none
  | controllerDisabled
  | notAStartBit
  | parityError
  | handshakeRejected
  | timeout
  | busBusy
  | illegalCommand
  | invalidMessage
deriving DecidableEq, Repr

/-- The values of `ERR_FIELD` (10_state.md R33). -/
inductive ErrField where
  | none
  | start
  | broadcastBit
  | master
  | slave
  | control
  | length
  | data
deriving DecidableEq, Repr

/-- The content of the register `ERR` (10_state.md R33). -/
structure Err where
  code : ErrCode
  field : ErrField
  index : Byte
deriving DecidableEq, Repr

/-- `ERR` = 0: no error. -/
def Err.clear : Err := ⟨.none, .none, 0⟩

/-- The broadcast type of a frame; its register value is 0 `Broadcast`, 1 `ForDevice`
(10_state.md R21). -/
inductive BType where
  | broadcast
  | forDevice
deriving DecidableEq, Repr

/-- One Message: the registers `M_*` with `P`, and again the working registers `W_*` with `W_P`
(10_state.md R21, R23, R40). -/
structure Message where
  bt : BType
  master : BitVec 12
  slave : BitVec 12
  ctrl : BitVec 4
  len : BitVec 9
  payload : Vector Byte 256
deriving DecidableEq, Repr

/-- Every field of a Message 0. -/
def Message.zero : Message := ⟨.broadcast, 0, 0, 0, 0, Vector.replicate 256 0⟩

/-- The positions of the Framer in a transaction (10_state.md R27). -/
inductive SeqState where
  | idle
  | scanStart
  | waitBusFree
  | sendStart
  | broadcastBit
  | masterField
  | slaveField
  | controlField
  | lengthField
  | dataField
  | complete
deriving DecidableEq, Repr

/-- `SEQ`: the state, the payload byte in progress, and the number of bits of the current field
value still to move, 0 to 12 (10_state.md R27). -/
structure Seq where
  state : SeqState
  idx : Byte
  bit : Nat
deriving DecidableEq, Repr

/-- What the host port and the reset input carry in one tick (20_memory.md R69; 30_encoding.md
R96; 70_reset_and_hazards.md R240). -/
inductive HostReq where
  /-- no access in this tick -/
  | idle
  /-- a read of `size` bytes at a byte offset -/
  | read (addr : Nat) (size : Nat)
  /-- a write of `size` bytes at a byte offset -/
  | write (addr : Nat) (size : Nat) (data : Word)
  /-- `WAIT`: the host polls `STATUS` until `BUSY` = 0, and only then goes on -/
  | wait
  /-- the reset input is asserted in this tick -/
  | reset
deriving DecidableEq, Repr

/-- The levels of the output pins during one tick that has passed. -/
structure Pins where
  tx : Level
  en : Bool
deriving DecidableEq, Repr

/-- The answer to a host read: its tick and its data. -/
structure ReadData where
  tick : Tick
  data : Word
deriving DecidableEq, Repr

/-- The levels of `rx` from the current tick on: first those of `script`, then `first` and `more` in
turn, again and again for ever. Every line is of this form up to any tick one names, and so is every
line that repeats in the end (00_scope.md R11; 30_encoding.md R98; log 5). -/
structure Line where
  script : List Level
  first : Level
  more : List Level
deriving DecidableEq, Repr

/-- The block's surroundings (10_state.md R20): the clock, the line and the host as inputs still to
come, one entry a tick, and what has come out. `pins` and `reads`, newest first, are the model's own
record (DESIGN CHOICE, safe, log 15). -/
structure Io where
  /-- `now`, the number of the current tick -/
  now : Tick
  /-- the levels of `rx` from the current tick on -/
  rx : Line
  /-- the requests of the host from the current tick on -/
  host : List HostReq
  pins : List Pins
  reads : List ReadData
deriving DecidableEq, Repr

/-- The machine. -/
structure State where
  /-- the construction parameters, `LOCAL_ADDR` among them -/
  params : Params
  /-- `EN`, the gate and the pin `en` -/
  en : Bool
  /-- `BUSY` -/
  busy : Bool
  /-- `RES_VALID` -/
  resValid : Bool
  /-- `RES_OK` -/
  resOk : Bool
  /-- `RESULT[15:0]` -/
  result : Half
  /-- `ERR` -/
  err : Err
  /-- `M_BT`, `M_MASTER`, `M_SLAVE`, `M_CTRL`, `M_LEN`, `P` -/
  msg : Message
  /-- `W_BT`, `W_MASTER`, `W_SLAVE`, `W_CTRL`, `W_LEN`, `W_P` -/
  work : Message
  /-- `SEQ` -/
  seq : Seq
  /-- `OWED` -/
  owed : Bool
  /-- `HSWAIT` -/
  hswait : Bool
  /-- `TXD`, the pin `tx` -/
  txd : Level
  /-- `T_S` -/
  tS : Tick
  /-- `T0` -/
  t0 : Tick
  /-- `SHREG` -/
  shreg : Half
  /-- `evt` during the current tick -/
  evt : Option Half
  /-- the signals to and from the platform -/
  io : Io
deriving DecidableEq, Repr

/-- Why the machine stops. -/
inductive Fault where
  /-- Raised by `step` when the parameters break a constraint of 00_scope.md R9 or R10: such a state
  is no instance of the block and the spec gives it no behaviour. Safe (log 9). -/
  | illFormedProfile
deriving DecidableEq, Repr

/-- Why an instruction has no meaning. -/
inductive Refusal where
  /-- Raised by an arm of `exec` that has no meaning yet; no arm is left so. Safe. -/
  | notModelled (mnemonic : String)
deriving DecidableEq, Repr

/-- Nothing scripted, nothing recorded. -/
def Io.quiet : Io := ⟨0, ⟨[], .inactive, []⟩, [], [], []⟩

/-- The state after reset of a node built with the parameters `p` (10_state.md R45;
70_reset_and_hazards.md R240). The message registers, the payload and the hidden registers, which
have no reset value, are 0 (DESIGN CHOICE, unsafe, log 2 and log 3). -/
def State.resetOf (p : Params) : State where
  params := p
  en := false
  busy := false
  resValid := false
  resOk := false
  result := 0
  err := Err.clear
  msg := Message.zero
  work := Message.zero
  seq := ⟨.idle, 0, 0⟩
  owed := false
  hswait := false
  txd := .inactive
  tS := 0
  t0 := 0
  shreg := 0
  evt := none
  io := Io.quiet

/-- The machine right after reset, built with the parameters of the spec's examples (DESIGN CHOICE,
unsafe for claims about this one instance, log 1). -/
def State.reset : State := State.resetOf Params.ref

end Sys2Proof.Machine
end

