-- ==== Sys2Proof/Machine/Flags.lean ====
section
/-! DEFINITION. Everything the block decides from values alone: parity, the two pulse
classifications, the two handshake predicates, and the views of the flag and error registers. -/

namespace Sys2Proof.Machine

/-- `parity(v, n)`: the exclusive-or of bits `n-1` to 0 (43_framer_common.md R155). -/
def parity (v : Half) : Nat → Bool
  | 0 => false
  | n + 1 => Bool.xor (v.getLsbD n) (parity v n)

/-- `abs(a - b)` on unsigned integers, never wrapped (41_codec_receive.md R128). -/
def absDiff (a b : Nat) : Nat := (a - b) + (b - a)

/-- `IsStart(d)` (41_codec_receive.md R122). -/
def isStart (p : Params) (d : Nat) : Bool :=
  decide (p.tStartHigh - p.startTol ≤ d) && decide (d ≤ p.tStartHigh + p.startTol)

/-- `Symbol(d)`: the nearer canonical width, symbol 0 on a tie (41_codec_receive.md R122). -/
def symbol (p : Params) (d : Nat) : Bool :=
  if absDiff d p.tHigh0 ≤ absDiff d p.tHigh1 then false else true

/-- The active duration of the symbol `b` (42_codec_transmit.md R142). -/
def highOf (p : Params) (b : Bool) : Nat := if b then p.tHigh1 else p.tHigh0

/-- The broadcast type that the received symbol `s` means (44_framer_read.md R174). -/
def bTypeOfSymbol (p : Params) (s : Bool) : BType :=
  if s = p.fdSymbol then .forDevice else .broadcast

/-- The symbol sent for a broadcast type (45_framer_write.md R190). -/
def symbolOfBType (p : Params) (t : BType) : Bool :=
  match t with
  | .forDevice => p.fdSymbol
  | .broadcast => !p.fdSymbol

/-- `OWED` for a frame's type and slave address (43_framer_common.md R156). -/
def owedFor (p : Params) (t : BType) (slave : BitVec 12) : Bool :=
  decide (t = .forDevice) && decide (slave = p.localAddr)

/-- `HSWAIT` for a frame's type (43_framer_common.md R159). -/
def hsWaitFor (t : BType) : Bool := decide (t = .forDevice)

/-- The logical length of a received length field (30_encoding.md R88). -/
def lenOfWire (raw : Half) : BitVec 9 := if raw = 0 then 256 else raw.setWidth 9

/-- The 8 bits sent for a length, `M_LEN[7:0]` (30_encoding.md R88). -/
def wireOfLen (len : BitVec 9) : Half := (len.setWidth 8).setWidth 16

/-- A length that the Message invariant allows (45_framer_write.md R192). -/
def legalLen (len : BitVec 9) : Bool := decide (1 ≤ len.toNat) && decide (len.toNat ≤ 256)

/-- The number of an error code (10_state.md R33). -/
def ErrCode.toBits : ErrCode → BitVec 4
  | .none => 0
  | .controllerDisabled => 1
  | .notAStartBit => 2
  | .parityError => 3
  | .handshakeRejected => 4
  | .timeout => 5
  | .busBusy => 6
  | .illegalCommand => 7
  | .invalidMessage => 8

/-- The number of an error field (10_state.md R33). -/
def ErrField.toBits : ErrField → BitVec 3
  | .none => 0
  | .start => 1
  | .broadcastBit => 2
  | .master => 3
  | .slave => 4
  | .control => 5
  | .length => 6
  | .data => 7

/-- `ERR[15:0]`, also the content of a log event (10_state.md R33; 60_exceptions.md R233). -/
def Err.toBits (e : Err) : Half := e.index ++ (0 : BitVec 1) ++ e.field.toBits ++ e.code.toBits

/-- The number of a broadcast type (10_state.md R21). -/
def BType.toBit : BType → BitVec 1
  | .broadcast => 0
  | .forDevice => 1

/-- The broadcast type with a number (10_state.md R21). -/
def BType.ofBit (b : BitVec 1) : BType := if b = 1 then .forDevice else .broadcast

/-- `STATUS` (10_state.md R31). -/
def State.statusWord (s : State) : Word :=
  (0 : BitVec 28) ++ BitVec.ofBool s.resOk ++ BitVec.ofBool s.resValid ++ BitVec.ofBool s.busy ++
    BitVec.ofBool s.en

end Sys2Proof.Machine
end

