-- ==== Sys2Proof/Machine/Operands.lean ====
section
/-! DEFINITION. The operand forms: the bits of a shifted value, the payload elements, and the host's
register map (20_memory.md R69, R70). -/

namespace Sys2Proof.Machine

/-- `(v << 1) | b`, kept to 16 bits (30_encoding.md R87). -/
def shiftIn (v : Half) (b : Bool) : Half := (v <<< 1) ||| (BitVec.ofBool b).setWidth 16

/-- `v[n-1:0]`, extended with zeros (41_codec_receive.md R126). -/
def lowBits (v : Half) (n : Nat) : Half := (v.setWidth n).setWidth 16

/-- The bit a symbol stands for, as a 16-bit result (41_codec_receive.md R125). -/
def halfOfBit (b : Bool) : Half := (BitVec.ofBool b).setWidth 16

/-- `P[i]` (10_state.md R23). -/
def Message.byteAt (m : Message) (i : Nat) : Byte := m.payload[i]?.getD 0

/-- `P[i] <- b`; there is no element 256 or above (10_state.md R23). -/
def Message.setByte (m : Message) (i : Nat) (b : Byte) : Message :=
  { m with payload := m.payload.setIfInBounds i b }

/-- `for i from 0 to n - 1: P[i] <- W_P[i]` (44_framer_read.md R170). -/
def Message.copyBytes (m : Message) (w : Message) : Nat → Message
  | 0 => m
  | n + 1 => (m.copyBytes w n).setByte n (w.byteAt n)

/-- The commit of a received Message: the five registers and `P[0..W_LEN-1]`, the other elements
kept (44_framer_read.md R179). -/
def Message.commit (m : Message) (w : Message) : Message :=
  { (m.copyBytes w w.len.toNat) with
    bt := w.bt, master := w.master, slave := w.slave, ctrl := w.ctrl, len := w.len }

/-- `MSG_ADDR` (20_memory.md R70). -/
def Message.addrWord (m : Message) : Word := (0 : BitVec 4) ++ m.slave ++ (0 : BitVec 4) ++ m.master

/-- `MSG_CTL` (20_memory.md R70). -/
def Message.ctlWord (m : Message) : Word :=
  (0 : BitVec 7) ++ m.len ++ (0 : BitVec 7) ++ m.bt.toBit ++ (0 : BitVec 4) ++ m.ctrl

/-- A write of `MSG_ADDR` (20_memory.md R69, R70). -/
def Message.writeAddr (m : Message) (v : Word) : Message :=
  { m with master := v.extractLsb' 0 12, slave := v.extractLsb' 16 12 }

/-- A write of `MSG_CTL` (20_memory.md R69, R70). -/
def Message.writeCtl (m : Message) (v : Word) : Message :=
  { m with
    ctrl := v.extractLsb' 0 4, bt := BType.ofBit (v.extractLsb' 8 1), len := v.extractLsb' 16 9 }

/-- A register that the map lists (20_memory.md R70). -/
inductive Reg where
  | cmd
  | status
  | result
  | err
  | local
  | msgAddr
  | msgCtl
  | payload (i : Nat)
deriving DecidableEq, Repr

/-- The register that an access of `size` bytes at a byte offset reaches, if it is a whole aligned
word inside the map and not reserved (20_memory.md R65, R70). -/
def regAt (addr size : Nat) : Option Reg :=
  if size ≠ 4 ∨ addr % 4 ≠ 0 then none
  else if 0x400 ≤ addr ∧ addr ≤ 0x7FC then some (.payload ((addr - 0x400) / 4))
  else match addr with
    | 0x000 => some .cmd
    | 0x004 => some .status
    | 0x008 => some .result
    | 0x00C => some .err
    | 0x010 => some .local
    | 0x014 => some .msgAddr
    | 0x018 => some .msgCtl
    | _ => none

/-- The value of a register, unimplemented bits 0 (20_memory.md R69, R70). -/
def State.regValue (s : State) : Reg → Word
  | .cmd => 0
  | .status => s.statusWord
  | .result => s.result.setWidth 32
  | .err => s.err.toBits.setWidth 32
  | .local => s.params.localAddr.setWidth 32
  | .msgAddr => s.msg.addrWord
  | .msgCtl => s.msg.ctlWord
  | .payload i => (s.msg.byteAt i).setWidth 32

/-- `MemRead`: 0 for an access that reaches no register (20_memory.md R65, R69). -/
def State.hostRead (s : State) (addr size : Nat) : Word :=
  match regAt addr size with
  | some r => s.regValue r
  | none => 0

/-- The message registers after a host write of `v` to a register (20_memory.md R69, R70). -/
def Message.regWrite (m : Message) (v : Word) : Reg → Message
  | .msgAddr => m.writeAddr v
  | .msgCtl => m.writeCtl v
  | .payload i => m.setByte i (v.extractLsb' 0 8)
  | .cmd | .status | .result | .err | .local => m

/-- `MemWrite`, but for the start of an operation, which is `step`'s: ignored while `BUSY` = 1 and
where no writable register is reached (20_memory.md R65, R69, R75). -/
def State.hostWrite (s : State) (addr size : Nat) (v : Word) : State :=
  if s.busy then s
  else match regAt addr size with
    | some r => { s with msg := s.msg.regWrite v r }
    | none => s

end Sys2Proof.Machine
end

