-- ==== Sys2Proof/Machine/Ops.lean ====
section
/-! DEFINITION. The named operations every meaning is built from: the passing of one tick, the
engine (a state transformer that can end early), and the start, the completion and the early end of
an operation. -/

namespace Sys2Proof.Machine

/-- The level of the line in the current tick (00_scope.md R11). -/
def Line.level (l : Line) : Level := l.script.headD l.first

/-- The line from the next tick on. -/
def Line.next (l : Line) : Line :=
  match l.script, l.more with
  | _ :: x, _ => { l with script := x }
  | [], [] => l
  | [], y :: m => ⟨[], y, m ++ [l.first]⟩

/-- The line from `n` ticks on. -/
def Line.after (l : Line) : Nat → Line
  | 0 => l
  | n + 1 => l.next.after n

/-- A level, or a run of levels, that does not come within so many ticks never comes: the line only
repeats from there (70_reset_and_hazards.md R254; log 8). -/
def Line.horizon (l : Line) : Nat := l.script.length + l.more.length + 1

/-- `rx(now)` (00_scope.md R11). -/
def State.rxNow (s : State) : Level := s.io.rx.level

/-- The reset input is asserted in the current tick (70_reset_and_hazards.md R240). -/
def State.resetNow (s : State) : Bool := decide (s.io.host.head? = some .reset)

/-- The host requests left after the current tick: `WAIT` stays until it sees `BUSY` = 0
(30_encoding.md R96; log 16). -/
def hostAfter (busy : Bool) : List HostReq → List HostReq
  | [] => []
  | .wait :: h => if busy then .wait :: h else h
  | .idle :: h => h
  | .read _ _ :: h => h
  | .write _ _ _ :: h => h
  | .reset :: h => h

/-- The host's access of the current tick (20_memory.md R69). -/
def State.serve (s : State) : State :=
  match s.io.host.head? with
  | some (.read addr size) =>
    { s with io := { s.io with reads := ⟨s.io.now, s.hostRead addr size⟩ :: s.io.reads } }
  | some (.write addr size v) => s.hostWrite addr size v
  | some .idle | some .wait | some .reset | none => s

/-- The clock and the inputs move on by one tick, in which the pins showed `p`. -/
def Io.pass (io : Io) (busy : Bool) (p : Pins) : Io :=
  { io with
    now := io.now + 1, rx := io.rx.next, host := hostAfter busy io.host, pins := p :: io.pins }

/-- The reset input was asserted in the current tick: every item takes its reset value, the pins
already in that tick, and no access is served (70_reset_and_hazards.md R240; log 7). -/
def State.applyReset (s : State) : State :=
  { State.resetOf s.params with io := s.io.pass s.busy ⟨.inactive, false⟩ }

/-- One tick without reset passes: the pins show `TXD` and `EN`, the host's access is served, a log
event ends (00_scope.md R11; 20_memory.md R69; 60_exceptions.md R233). -/
def State.pass (s : State) : State :=
  { s.serve with evt := none, io := s.serve.io.pass s.busy ⟨s.txd, s.en⟩ }

/-- One tick passes. -/
def State.tick (s : State) : State := if s.resetNow then s.applyReset else s.pass

/-- Why an operation ends before the end of its pseudocode. -/
inductive Stop where
  /-- an error of the block (60_exceptions.md R220) -/
  | raised (e : Err)
  /-- the reset input (70_reset_and_hazards.md R240) -/
  | reset
  /-- a wait without deadline on a line that never changes again (70_reset_and_hazards.md R254) -/
  | hung
deriving DecidableEq, Repr

/-- A piece of an operation's pseudocode: it works on the machine and may stop early. -/
abbrev Engine := EStateM Stop State

/-- One consumed tick (00_scope.md R11). -/
def elapse : Engine Unit := fun s =>
  if s.resetNow then .error .reset s.tick else .ok () s.tick

/-- `Sample()` (00_scope.md R12). -/
def sample : Engine Level := do
  let s ← get
  elapse
  pure s.rxNow

/-- `n` consumed ticks in which `rx` is not sampled (42_codec_transmit.md R140). -/
def delay : Nat → Engine Unit
  | 0 => pure ()
  | n + 1 => do
    elapse
    delay n

/-- `raise E(field, index)`: what follows is not executed (00_scope.md R12). -/
def raise {α : Type} (code : ErrCode) (field : ErrField) (index : Byte) : Engine α :=
  throw (.raised ⟨code, field, index⟩)

/-- A wait that never ends. -/
def hang {α : Type} : Engine α := throw .hung

/-- `if c: m` (00_scope.md R12). -/
def onlyIf (c : Bool) (m : Engine Unit) : Engine Unit := if c then m else pure ()

/-- `SEQ <- st` (10_state.md R27). -/
def setSeq (st : SeqState) : Engine Unit :=
  modify fun s => { s with seq := { s.seq with state := st } }

/-- `SEQ <- DataField, SEQ.idx <- i` (44_framer_read.md R170). -/
def setSeqData (i : Byte) : Engine Unit :=
  modify fun s => { s with seq := { s.seq with state := .dataField, idx := i } }

/-- `SEQ.bit`: inside a transaction, the bits of the field value still to move (10_state.md R27;
log 14). -/
def setSeqBit (n : Nat) : Engine Unit :=
  modify fun s => if s.seq.state = .idle then s else { s with seq := { s.seq with bit := n } }

/-- Acceptance of a command (20_memory.md R71). -/
def State.accept (s : State) : State := { s with resValid := false, resOk := false, busy := true }

/-- Completion without error, with the Boolean result `ok` and the value `v` (20_memory.md R71;
10_state.md R31 to R33). -/
def State.complete (s : State) (ok : Bool) (v : Half) : State :=
  { s with
    result := v, resOk := ok, err := Err.clear, resValid := true, busy := false,
    seq := { s.seq with state := .idle } }

/-- What an error does, and nothing else (60_exceptions.md R220, R233). There is no return operation
(R221): the next `State.accept` clears `RES_VALID` and `RES_OK`. -/
def State.takeError (s : State) (e : Err) : State :=
  { s with
    err := e, result := 0, resOk := false, resValid := true, busy := false,
    seq := { s.seq with state := .idle }, evt := some e.toBits }

/-- An operation from its start tick to its end: accepted, run, completed with the results of its
pseudocode or ended early (20_memory.md R71; 60_exceptions.md R220; 70_reset_and_hazards.md R240,
R254). A wait without end leaves `BUSY` = 1 (log 8). -/
def operate (body : Engine (Bool × Half)) (s : State) : Host.Outcome State Fault Refusal :=
  match body s.accept with
  | .ok r t => .next (t.complete r.1 r.2)
  | .error (.raised e) t => .next (t.takeError e)
  | .error .reset t => .next t
  | .error .hung t => .next t

/-- An illegal command word, or an illegal count: an operation that consumes no tick
(30_encoding.md R93; 60_exceptions.md R217). -/
def illegalCommand : Engine (Bool × Half) := raise .illegalCommand .none 0

end Sys2Proof.Machine
end

