-- ==== Sys2Proof/Machine/Gate.lean ====
section
/-! DEFINITION. The gate operations ENABLE, DISABLE and ISEN (40_gate_control.md). -/

namespace Sys2Proof.Machine

/-- `EN <- b`, no tick, no other effect (40_gate_control.md R110, R111). -/
def setGate (b : Bool) : Engine (Bool × Half) := do
  modify fun s => { s with en := b }
  pure (true, 0)

/-- ENABLE (40_gate_control.md R110). -/
def execEnable (s : State) : Host.Outcome State Fault Refusal := operate (setGate true) s

/-- DISABLE (40_gate_control.md R111). -/
def execDisable (s : State) : Host.Outcome State Fault Refusal := operate (setGate false) s

/-- ISEN (40_gate_control.md R112). -/
def execIsen (s : State) : Host.Outcome State Fault Refusal :=
  operate (do
    let s ← get
    pure (true, halfOfBit s.en)) s

end Sys2Proof.Machine
end

