-- ==== Sys2Proof/Machine/Codec.lean ====
section
/-! DEFINITION. The Codec's sub-steps: 41_codec_receive.md R120 to R127 and 42_codec_transmit.md
R140 to R144, as the Framer calls them and as the operations of Receive.lean and Transmit.lean start
them alone. -/

namespace Sys2Proof.Machine

/-- Where in a frame an error is reported: `ERR_FIELD` and `ERR_INDEX` (10_state.md R33). -/
structure Place where
  field : ErrField
  index : Byte
deriving DecidableEq, Repr

/-- A Codec operation started alone reports no field (60_exceptions.md R210). -/
def Place.alone : Place := ⟨.none, 0⟩

/-- The ticks from `a` to `b`, as `CLK_W`-bit numbers: exact where fewer than 2^64 ticks lie between
(00_scope.md R11; 41_codec_receive.md R128; log 6). -/
def ticksBetween (a b : Tick) : Nat := (b - a).toNat

/-- A deadline `max`, where there is one, has passed since `T_S` (41_codec_receive.md R120). -/
def State.expired (s : State) (max : Option Nat) : Bool :=
  match max with
  | none => false
  | some n => decide (n ≤ ticksBetween s.tS s.io.now)

/-- `T_S <- now`. -/
def markWait : Engine Unit := modify fun s => { s with tS := s.io.now }

/-- How many turns a polling loop may need: a wait that outlives both the line's horizon and its
deadline, if it has one, never ends (R254; log 8). -/
def State.turns (s : State) (max : Option Nat) : Nat := s.io.rx.horizon + max.getD 0 + 1

/-- The loop of `WaitLevel` (R120). -/
def waitLoop (l : Level) (pl : Place) : Nat → Engine Tick
  | 0 => hang
  | k + 1 => do
    let s ← get
    if s.expired s.params.tWaitMax then raise .timeout pl.field pl.index
    else do
      let x ← sample
      if x = l then pure s.io.now else waitLoop l pl k

/-- `WaitLevel(L)`: the number of the first tick whose sample is `L` (R120). -/
def waitLevel (l : Level) (pl : Place) : Engine Tick := do
  markWait
  let s ← get
  waitLoop l pl (s.turns s.params.tWaitMax)

/-- `RxPulse()`: the active duration of the next pulse (R121). -/
def rxPulse (pl : Place) : Engine Nat := do
  let a ← waitLevel .active pl
  modify fun s => { s with t0 := a }
  let t1 ← waitLevel .inactive pl
  let s ← get
  pure (ticksBetween s.t0 t1)

/-- `RxStart()` (R124). -/
def rxStart : Engine Bool := do
  let d ← rxPulse ⟨.start, 0⟩
  let s ← get
  pure (isStart s.params d)

/-- `RxBit()` (R125). -/
def rxBit (pl : Place) : Engine Bool := do
  let d ← rxPulse pl
  let s ← get
  pure (symbol s.params d)

/-- `n` receptions, each shifted into `SHREG` (R126). -/
def rxBitsLoop (pl : Place) : Nat → Engine Unit
  | 0 => pure ()
  | n + 1 => do
    let b ← rxBit pl
    modify fun s => { s with shreg := shiftIn s.shreg b }
    setSeqBit n
    rxBitsLoop pl n

/-- `RxBits(n)` (R126). -/
def rxBits (n : Nat) (pl : Place) : Engine Half := do
  modify fun s => { s with shreg := 0 }
  setSeqBit n
  rxBitsLoop pl n
  let s ← get
  pure (lowBits s.shreg n)

/-- `RxAck()`: symbol 0 is `Acknowledged`, symbol 1 `Rejected` (R127). -/
def rxAck (pl : Place) : Engine Ack := do
  let b ← rxBit pl
  pure (if b then .rejected else .acknowledged)

/-- `BusFree()`, with `n` samples left (R123). -/
def busFreeLoop : Nat → Engine Bool
  | 0 => pure true
  | n + 1 => do
    let x ← sample
    if x = .active then pure false else busFreeLoop n

/-- `BusFree()`: `T_BIT` samples, all inactive (R123). -/
def busFree : Engine Bool := do
  let s ← get
  busFreeLoop s.params.tBit

/-- `Drive(L, n)`; `Drive(L, 0)` is no step (R140). -/
def drive (l : Level) (n : Nat) : Engine Unit :=
  if n = 0 then pure ()
  else do
    modify fun s => { s with txd := l }
    delay n

/-- `TxStart()` (R141). -/
def txStart : Engine Unit := do
  let s ← get
  drive .active s.params.tStartHigh
  drive .inactive (s.params.tStartTotal - s.params.tStartHigh)

/-- `TxBit(b)` (R142). -/
def txBit (b : Bool) : Engine Unit := do
  let s ← get
  drive .active (highOf s.params b)
  drive .inactive (s.params.tBit - highOf s.params b)

/-- `SHREG[i]` for `i` from `n-1` down to 0 (R143). -/
def txBitsLoop : Nat → Engine Unit
  | 0 => pure ()
  | n + 1 => do
    let s ← get
    txBit (s.shreg.getLsbD n)
    setSeqBit n
    txBitsLoop n

/-- `TxBits(v, n)` (R143). -/
def txBits (v : Half) (n : Nat) : Engine Unit := do
  modify fun s => { s with shreg := v }
  setSeqBit n
  txBitsLoop n

/-- `TxAck(a)`: `Acknowledged` is symbol 0, `Rejected` symbol 1 (R144). -/
def txAck (a : Ack) : Engine Unit :=
  txBit (match a with
    | .acknowledged => false
    | .rejected => true)

end Sys2Proof.Machine
end

