-- ==== Sys2Proof/Machine/Framer.lean ====
section
/-! DEFINITION. What READMSG and WRITEMSG share: 43_framer_common.md R155 to R160, and the wait for a
free bus, 45_framer_write.md R193. -/

namespace Sys2Proof.Machine

/-- The slave field's value is in: `W_SLAVE` and `OWED` (R156, R157). -/
def latchSlave (v : Half) : Engine Unit :=
  modify fun s =>
    { s with
      work := { s.work with slave := v.setWidth 12 },
      owed := owedFor s.params s.work.bt (v.setWidth 12) }

/-- The responder's handshake bit, after `T_ACK_DELAY` inactive ticks (R157). -/
def answer (a : Ack) : Engine Unit := do
  let s ← get
  drive .inactive s.params.tAckDelay
  txAck a

/-- `RxField(n, field, index)` (R157); the master field owes no handshake (R160). -/
def rxField (n : Nat) (field : ErrField) (index : Byte) : Engine Half := do
  let v ← rxBits n ⟨field, index⟩
  let p ← rxBit ⟨field, index⟩
  onlyIf (decide (field = .slave)) (latchSlave v)
  let s ← get
  let owedHere := s.owed && decide (field ≠ .master)
  if p = parity v n then do
    onlyIf owedHere (answer .acknowledged)
    pure v
  else do
    onlyIf owedHere (answer .rejected)
    raise .parityError field index

/-- `TxField(v, n, field, index)` (R158); nothing is awaited after the master field (R160). -/
def txField (v : Half) (n : Nat) (field : ErrField) (index : Byte) : Engine Unit := do
  txBits v n
  txBit (parity v n)
  let s ← get
  if s.hswait && decide (field ≠ .master) then do
    let a ← rxAck ⟨field, index⟩
    match a with
    | .acknowledged => pure ()
    | .rejected => raise .handshakeRejected field index
  else pure ()

/-- The loop of `WaitBusFree()` (R193). -/
def waitBusFreeLoop : Nat → Engine Unit
  | 0 => hang
  | k + 1 => do
    let free ← busFree
    if free then pure ()
    else do
      let s ← get
      if s.expired s.params.tBusFreeMax then raise .busBusy .none 0 else waitBusFreeLoop k

/-- `WaitBusFree()` (R193). -/
def waitBusFree : Engine Unit := do
  markWait
  let s ← get
  waitBusFreeLoop (s.turns s.params.tBusFreeMax)

end Sys2Proof.Machine
end

