-- ==== Sys2Proof/Machine/Read.lean ====
section
/-! DEFINITION. READMSG (44_framer_read.md R170 to R181). -/

namespace Sys2Proof.Machine

/-- One field of the working Message is written (44_framer_read.md R170). -/
def setWork (f : Message → Message) : Engine Unit := modify fun s => { s with work := f s.work }

/-- `ScanStart`: one candidate pulse (44_framer_read.md R173). -/
def readStart : Engine Unit := do
  setSeq .scanStart
  let ok ← rxStart
  if ok then pure () else raise .notAStartBit .start 0

/-- `BroadcastBit` (44_framer_read.md R174). -/
def readType : Engine Unit := do
  setSeq .broadcastBit
  let b ← rxBit ⟨.broadcastBit, 0⟩
  let s ← get
  setWork fun w => { w with bt := bTypeOfSymbol s.params b }

/-- `MasterField`, `SlaveField` and `ControlField` (44_framer_read.md R175, R176). -/
def readAddress : Engine Unit := do
  setSeq .masterField
  let m ← rxField 12 .master 0
  setWork fun w => { w with master := m.setWidth 12 }
  setSeq .slaveField
  let a ← rxField 12 .slave 0
  setWork fun w => { w with slave := a.setWidth 12 }
  setSeq .controlField
  let c ← rxField 4 .control 0
  setWork fun w => { w with ctrl := c.setWidth 4 }

/-- `LengthField` (44_framer_read.md R177). -/
def readLength : Engine Unit := do
  setSeq .lengthField
  let raw ← rxField 8 .length 0
  setWork fun w => { w with len := lenOfWire raw }

/-- `DataField`, `k` bytes from index `i` on (44_framer_read.md R178). -/
def readData : Nat → Nat → Engine Unit
  | 0, _ => pure ()
  | k + 1, i => do
    setSeqData (BitVec.ofNat 8 i)
    let v ← rxField 8 .data (BitVec.ofNat 8 i)
    setWork fun w => w.setByte i (v.setWidth 8)
    readData k (i + 1)

/-- `Complete`: the commit, in one step (44_framer_read.md R179). -/
def commitMessage : Engine Unit := do
  setSeq .complete
  modify fun s => { s with msg := s.msg.commit s.work }

/-- The pseudocode of READMSG (44_framer_read.md R170); `OWED` is cleared at its start (10_state.md
R28; log 13). -/
def readMsg : Engine (Bool × Half) := do
  modify fun s => { s with owed := false }
  let s ← get
  if s.en then do
    readStart
    readType
    readAddress
    readLength
    let s ← get
    readData s.work.len.toNat 0
    commitMessage
    pure (true, 0)
  else raise .controllerDisabled .none 0

/-- READMSG (44_framer_read.md R170). -/
def execReadmsg (s : State) : Host.Outcome State Fault Refusal := operate readMsg s

end Sys2Proof.Machine
end

