-- ==== Sys2Proof/WellFormed.lean ====
section
/-! DEFINITION. Which operand values an operation admits (30_encoding.md R91, R92). -/

namespace Sys2Proof

/-- The legal bit counts of RXBITS and TXBITS: 1 to `N_MAX` (30_encoding.md R91). -/
def legalCount (n : BitVec 5) : Bool :=
  decide (1 ≤ n.toNat) && decide (n.toNat ≤ nMax)

/-- Every operation is well-formed but a bit count outside 1 to 16 (30_encoding.md R93). -/
def Instr.wf : Instr → Bool
  | .enable | .disable | .isen | .busfree | .rxstart | .rxbit | .rxack => true
  | .txstart | .txbit _ | .txack _ | .readmsg | .writemsg => true
  | .rxbits n => legalCount n
  | .txbits _ n => legalCount n

end Sys2Proof
end

