-- ==== Sys2Proof/Machine/Receive.lean ====
section
/-! DEFINITION. The Codec's receive operations started alone: BUSFREE, RXSTART, RXBIT, RXBITS and
RXACK (41_codec_receive.md). -/

namespace Sys2Proof.Machine

/-- BUSFREE (41_codec_receive.md R123). -/
def execBusfree (s : State) : Host.Outcome State Fault Refusal :=
  operate (do
    let free ← busFree
    pure (free, halfOfBit free)) s

/-- RXSTART (41_codec_receive.md R124); the failed test is the error NotAStartBit (60_exceptions.md
R212; log 12). -/
def execRxstart (s : State) : Host.Outcome State Fault Refusal :=
  operate (do
    let ok ← rxStart
    if ok then pure (true, halfOfBit true) else raise .notAStartBit .start 0) s

/-- RXBIT (41_codec_receive.md R125). -/
def execRxbit (s : State) : Host.Outcome State Fault Refusal :=
  operate (do
    let b ← rxBit .alone
    pure (true, halfOfBit b)) s

/-- RXBITS (41_codec_receive.md R126); a count outside 1 to 16 is no operation (30_encoding.md R93). -/
def execRxbits (n : BitVec 5) (s : State) : Host.Outcome State Fault Refusal :=
  operate (if legalCount n then do
      let v ← rxBits n.toNat .alone
      pure (true, v)
    else illegalCommand) s

/-- RXACK (41_codec_receive.md R127). -/
def execRxack (s : State) : Host.Outcome State Fault Refusal :=
  operate (do
    let a ← rxAck .alone
    pure (true, halfOfBit (match a with
      | .acknowledged => false
      | .rejected => true))) s

end Sys2Proof.Machine
end

