-- ==== Sys2Proof/Machine/Transmit.lean ====
section
/-! DEFINITION. The Codec's transmit operations started alone: TXSTART, TXBIT, TXBITS and TXACK
(42_codec_transmit.md). -/

namespace Sys2Proof.Machine

/-- A transmit operation started alone: no error, no value (42_codec_transmit.md R141 to R144). -/
def transmit (body : Engine Unit) : Engine (Bool × Half) := do
  body
  pure (true, 0)

/-- TXSTART (42_codec_transmit.md R141). -/
def execTxstart (s : State) : Host.Outcome State Fault Refusal := operate (transmit txStart) s

/-- TXBIT (42_codec_transmit.md R142). -/
def execTxbit (b : Bool) (s : State) : Host.Outcome State Fault Refusal :=
  operate (transmit (txBit b)) s

/-- TXBITS (42_codec_transmit.md R143); a count outside 1 to 16 is no operation (30_encoding.md
R93). -/
def execTxbits (v : Half) (n : BitVec 5) (s : State) : Host.Outcome State Fault Refusal :=
  operate (if legalCount n then transmit (txBits v n.toNat) else illegalCommand) s

/-- TXACK (42_codec_transmit.md R144). -/
def execTxack (a : Ack) (s : State) : Host.Outcome State Fault Refusal :=
  operate (transmit (txAck a)) s

end Sys2Proof.Machine
end

