-- ==== Sys2Proof/Machine/Write.lean ====
section
/-! DEFINITION. WRITEMSG (45_framer_write.md R190 to R198). -/

namespace Sys2Proof.Machine

/-- `WaitBusFree`, `SendStart` and `BroadcastBit` (45_framer_write.md R190, R193). -/
def writeStart : Engine Unit := do
  setSeq .waitBusFree
  waitBusFree
  setSeq .sendStart
  txStart
  setSeq .broadcastBit
  let s ← get
  txBit (symbolOfBType s.params s.msg.bt)

/-- The master, slave, control and length fields (45_framer_write.md R194 to R196). -/
def writeHeader : Engine Unit := do
  setSeq .masterField
  let s ← get
  txField (s.msg.master.setWidth 16) 12 .master 0
  setSeq .slaveField
  let s ← get
  txField (s.msg.slave.setWidth 16) 12 .slave 0
  setSeq .controlField
  let s ← get
  txField (s.msg.ctrl.setWidth 16) 4 .control 0
  setSeq .lengthField
  let s ← get
  txField (wireOfLen s.msg.len) 8 .length 0

/-- `k` payload bytes from index `i` on (45_framer_write.md R190). -/
def writeData : Nat → Nat → Engine Unit
  | 0, _ => pure ()
  | k + 1, i => do
    setSeqData (BitVec.ofNat 8 i)
    let s ← get
    txField ((s.msg.byteAt i).setWidth 16) 8 .data (BitVec.ofNat 8 i)
    writeData k (i + 1)

/-- The pseudocode of WRITEMSG (45_framer_write.md R190); `HSWAIT` is cleared at its start and set
after the entry tests (10_state.md R28; log 13). -/
def writeMsg : Engine (Bool × Half) := do
  modify fun s => { s with hswait := false }
  let s ← get
  if s.en then
    if legalLen s.msg.len then do
      modify fun s => { s with hswait := hsWaitFor s.msg.bt }
      writeStart
      writeHeader
      let s ← get
      writeData s.msg.len.toNat 0
      setSeq .complete
      pure (true, 0)
    else raise .invalidMessage .length 0
  else raise .controllerDisabled .none 0

/-- WRITEMSG (45_framer_write.md R190). -/
def execWritemsg (s : State) : Host.Outcome State Fault Refusal := operate writeMsg s

end Sys2Proof.Machine
end

