-- ==== Sys2Proof/Machine/Dispatch.lean ====
section
/-! DEFINITION. One arm per operation (00_scope.md R5). -/

namespace Sys2Proof.Machine

/-- The meaning of an operation: from the state at its start tick to the state at its completion
tick (20_memory.md R71). -/
def exec (i : Instr) (s : State) : Host.Outcome State Fault Refusal :=
  match i with
  | .enable => Sys2Proof.Machine.execEnable s
  | .disable => Sys2Proof.Machine.execDisable s
  | .isen => Sys2Proof.Machine.execIsen s
  | .busfree => Sys2Proof.Machine.execBusfree s
  | .rxstart => Sys2Proof.Machine.execRxstart s
  | .rxbit => Sys2Proof.Machine.execRxbit s
  | .rxbits n => Sys2Proof.Machine.execRxbits n s
  | .rxack => Sys2Proof.Machine.execRxack s
  | .txstart => Sys2Proof.Machine.execTxstart s
  | .txbit b => Sys2Proof.Machine.execTxbit b s
  | .txbits v n => Sys2Proof.Machine.execTxbits v n s
  | .txack a => Sys2Proof.Machine.execTxack a s
  | .readmsg => Sys2Proof.Machine.execReadmsg s
  | .writemsg => Sys2Proof.Machine.execWritemsg s

end Sys2Proof.Machine
end

