-- ==== Sys2Proof/Decode.lean ====
section
/-! DEFINITION. The command word (30_encoding.md R90 to R93): its fields, the decoder, total on
every word and rejecting by name, and the encoder. -/

namespace Sys2Proof

/-- Why a command word selects no operation (30_encoding.md R93). -/
inductive DecodeError where
  /-- an `OPC` that R92 does not list -/
  | unknownOpcode
  /-- a listed `OPC` with a bit set that must be 0 -/
  | reservedBits
  /-- RXBITS or TXBITS with `N` = 0 or `N` > 16 -/
  | badCount
deriving DecidableEq, Repr

/-- `OPC`, bits 31:24 (R90). -/
def Word.opc (w : Word) : BitVec 8 := w.extractLsb' 24 8

/-- Bits 23:21, which must be 0 (R90). -/
def Word.zeroBits (w : Word) : BitVec 3 := w.extractLsb' 21 3

/-- `N`, bits 20:16 (R90). -/
def Word.count (w : Word) : BitVec 5 := w.extractLsb' 16 5

/-- `V`, bits 15:0 (R90). -/
def Word.operand (w : Word) : Half := w.extractLsb' 0 16

/-- An operation without operand: `N` and `V` must be 0 (R90). -/
def decodePlain (w : Word) (i : Instr) : Except DecodeError Instr :=
  if w.count = 0 ∧ w.operand = 0 then .ok i else .error .reservedBits

/-- An operation with the operand bit `V[0]`: `N` and `V[15:1]` must be 0 (R90). -/
def decodeBit (w : Word) (i : Bool → Instr) : Except DecodeError Instr :=
  if w.count = 0 ∧ w.operand = 0 then .ok (i false)
  else if w.count = 0 ∧ w.operand = 1 then .ok (i true)
  else .error .reservedBits

/-- The handshake value with the number `b` (00_scope.md R12). -/
def Ack.ofBit (b : Bool) : Ack := if b then .rejected else .acknowledged

/-- The number of a handshake value (00_scope.md R12). -/
def Ack.toBit : Ack → Bool
  | .acknowledged => false
  | .rejected => true

/-- A word with a bit count: 1 to 16, else no operation (R92, R93). -/
def decodeCount (w : Word) (i : BitVec 5 → Instr) : Except DecodeError Instr :=
  if legalCount w.count then .ok (i w.count) else .error .badCount

/-- RXBITS: only `N` is free (R92). -/
def decodeRxbits (w : Word) : Except DecodeError Instr :=
  if w.operand = 0 then decodeCount w .rxbits else .error .reservedBits

/-- The operation a command word selects (R92), or why it selects none (R93). -/
def decode (w : Word) : Except DecodeError Instr :=
  match w.opc.toNat, w.zeroBits.toNat with
  | 0x01, 0 => decodePlain w .enable
  | 0x02, 0 => decodePlain w .disable
  | 0x03, 0 => decodePlain w .isen
  | 0x04, 0 => decodePlain w .busfree
  | 0x10, 0 => decodePlain w .rxstart
  | 0x11, 0 => decodePlain w .rxbit
  | 0x12, 0 => decodeRxbits w
  | 0x13, 0 => decodePlain w .rxack
  | 0x20, 0 => decodePlain w .txstart
  | 0x21, 0 => decodeBit w .txbit
  | 0x22, 0 => decodeCount w (.txbits w.operand)
  | 0x23, 0 => decodeBit w (fun b => .txack (Ack.ofBit b))
  | 0x30, 0 => decodePlain w .readmsg
  | 0x31, 0 => decodePlain w .writemsg
  | 0x01, _ | 0x02, _ | 0x03, _ | 0x04, _ | 0x10, _ | 0x11, _ | 0x12, _ | 0x13, _ => .error .reservedBits
  | 0x20, _ | 0x21, _ | 0x22, _ | 0x23, _ | 0x30, _ | 0x31, _ => .error .reservedBits
  | _, _ => .error .unknownOpcode

/-- A command word from its fields, bits 23:21 zero (R90). -/
def commandWord (opc : BitVec 8) (n : BitVec 5) (v : Half) : Word :=
  opc ++ (0 : BitVec 3) ++ n ++ v

/-- An operand bit in `V` (R91). -/
def bitOperand (b : Bool) : Half := if b then 1 else 0

/-- The command word of an operation (R92). -/
def encode : Instr → Word
  | .enable => commandWord 0x01 0 0
  | .disable => commandWord 0x02 0 0
  | .isen => commandWord 0x03 0 0
  | .busfree => commandWord 0x04 0 0
  | .rxstart => commandWord 0x10 0 0
  | .rxbit => commandWord 0x11 0 0
  | .rxbits n => commandWord 0x12 n 0
  | .rxack => commandWord 0x13 0 0
  | .txstart => commandWord 0x20 0 0
  | .txbit b => commandWord 0x21 0 (bitOperand b)
  | .txbits v n => commandWord 0x22 n v
  | .txack a => commandWord 0x23 0 (bitOperand a.toBit)
  | .readmsg => commandWord 0x30 0 0
  | .writemsg => commandWord 0x31 0 0

/-- The instruction the decoder reads from the bits `w` of an opcode-table row of `nbits` bits: a
command is one 32-bit word (R90), so the bits above `nbits` are 0 and none may stand above 31. -/
def decodeTableWord (nbits w : Nat) : Option Instr :=
  if w % 2 ^ nbits < 2 ^ 32 then
    match decode (BitVec.ofNat 32 (w % 2 ^ nbits)) with
    | .ok i => some i
    | .error _ => none
  else none

end Sys2Proof
end

