-- ==== Sys2Proof/Machine/Port.lean ====
section
/-! DEFINITION. The command port: which tick starts an operation, and with which word
(20_memory.md R71; 30_encoding.md R90). -/

namespace Sys2Proof.Machine

/-- The command word accepted in the current tick: a whole-word write of `CMD` while `BUSY` = 0
(20_memory.md R71). This is the machine's fetch. -/
def State.fetch (s : State) : Option Word :=
  if s.busy then none
  else match s.io.host.head? with
    | some (.write addr size v) => if regAt addr size = some .cmd then some v else none
    | some .idle | some .wait | some .reset | some (.read _ _) | none => none

/-- The machine with a write of the command word `w` as the host's next request, and idle, so that
the next tick accepts it. -/
def State.withCommand (s : State) (w : Word) : State :=
  { s with busy := false, io := { s.io with host := .write 0x000 4 w :: s.io.host } }

/-- A word that selects no operation (30_encoding.md R93). -/
def rejectCommand (s : State) : Host.Outcome State Fault Refusal := operate illegalCommand s

end Sys2Proof.Machine
end

