-- ==== Sys2Proof/Machine/Step.lean ====
section
/-! DEFINITION. One step of the machine. In a tick in which a command is accepted, that tick passes
and then the whole operation runs; every other step is one tick in which the block does nothing but
serve the host (20_memory.md R69, R71; 70_reset_and_hazards.md R242; log 4). -/

namespace Sys2Proof.Machine

/-- One step. -/
def step (s : State) : Host.Outcome State Fault Refusal :=
  if s.params.wf then
    match s.fetch with
    | none => .next s.tick
    | some w =>
      match decode w with
      | .ok i => exec i s.tick
      | .error _ => rejectCommand s.tick
  else .fault .illFormedProfile

/-- `s` with the command word `w` of `nbits` bits where the machine fetches: the host's next request
writes it to `CMD`, and the block is idle (log 17). -/
def State.withFetchWord (s : State) (nbits w : Nat) : State :=
  s.withCommand (BitVec.ofNat 32 (w % 2 ^ nbits))

end Sys2Proof.Machine
end

