-- ==== Sys2Proof/Machine/Bus.lean ====
section
/-! DEFINITION. Several nodes on one line (60_exceptions.md R228, R229). The step of this model is
one node's; this file says what a joint run of several nodes is, in terms of each node's own input
and output (log 18). -/

namespace Sys2Proof.Machine

/-- `Active` dominates (60_exceptions.md R229). -/
def wiredOr (ls : List Level) : Level := if .active ∈ ls then .active else .inactive

/-- The levels a node drove since its record began, oldest first. -/
def State.txWave (s : State) : List Level := (s.io.pins.map Pins.tx).reverse

/-- The level of the line in tick `t` of the record, from every node's output; a node whose record
has ended rests at its `TXD` (60_exceptions.md R229). -/
def lineLevel (nodes : List State) (t : Nat) : Level :=
  wiredOr (nodes.map fun s => s.txWave.getD t s.txd)

/-- The line of `n` ticks that the nodes' outputs make. -/
def lineOf (nodes : List State) (n : Nat) : List Level := (List.range n).map (lineLevel nodes)

end Sys2Proof.Machine
end

