-- ==== Sys2Proof/Safety.lean ====
section
/-! DEFINITION. The terms the statements use: what happened on the pins and on the clock, what an
operation reports, what stands on the wire (30_encoding.md R80 to R88, written as the waveforms and
pulse positions of the spec, not as the machine produces or measures them), and the invariant of the
machine. -/

namespace Sys2Proof.Machine

/-! ### Time, reports and frames -/

/-- The reset input is asserted in none of the next `n` requests. -/
def State.NoReset (s : State) (n : Nat) : Prop := HostReq.reset ∉ s.io.host.take n

/-- The level of `rx` in tick `now + k` (00_scope.md R11). -/
def State.rxAt (s : State) (k : Nat) : Level := (s.io.rx.after k).level

/-- From `s` to `t` the clock moved on by `w.length` ticks, in which `tx` showed the levels `w` and
`en` the gate of `s`; as many levels of `rx` passed. -/
structure State.Ran (s t : State) (w : List Level) : Prop where
  params : t.params = s.params
  en : t.en = s.en
  now : t.io.now = s.io.now + .ofNat 64 w.length
  rx : t.io.rx = s.io.rx.after w.length
  pins : t.io.pins = (w.map fun l => Pins.mk l s.en).reverse ++ s.io.pins

/-- The result registers after a completed operation (20_memory.md R71; 10_state.md R31 to R33). -/
structure State.Reports (t : State) (ok : Bool) (v : Half) (e : Err) : Prop where
  busy : t.busy = false
  resValid : t.resValid = true
  resOk : t.resOk = ok
  result : t.result = v
  err : t.err = e
  idle : t.seq.state = .idle

/-- An operation ended by the error `e` and produced its log event (60_exceptions.md R220, R233). -/
structure State.Failed (t : State) (code : ErrCode) (field : ErrField) (index : Byte) : Prop where
  reports : t.Reports false 0 ⟨code, field, index⟩
  event : t.evt = some (Err.toBits ⟨code, field, index⟩)

/-- The operation `i`, started in `s`, completes in `t` without an error: `tx` showed `w` meanwhile, and
the results are `ok` and `v` (20_memory.md R71). -/
structure Completes (i : Instr) (s t : State) (w : List Level) (ok : Bool) (v : Half) : Prop where
  answers : exec i s = .next t
  ran : s.Ran t w
  reports : t.Reports ok v Err.clear
  quiet : t.evt = none

/-- The operation `i`, started in `s`, ends in `t` by an error; `tx` showed `w` meanwhile
(60_exceptions.md R220). -/
structure Aborts (i : Instr) (s t : State) (w : List Level) (code : ErrCode) (field : ErrField)
    (index : Byte) : Prop where
  answers : exec i s = .next t
  ran : s.Ran t w
  failed : t.Failed code field index

/-- Nothing differs from `s` to `t` but the result registers, `SEQ.state`, which is `Idle`, the log event
and the signals to the platform. -/
def State.OnlyResults (s t : State) : Prop :=
  t = { s with
    busy := t.busy, resValid := t.resValid, resOk := t.resOk, result := t.result, err := t.err,
    seq := { s.seq with state := .idle }, evt := t.evt, io := t.io }

/-- What `OnlyResults` allows, and the registers of a pulse's measurement: `T_S` and `T0`. -/
def State.OnlyPulse (s t : State) : Prop :=
  State.OnlyResults { s with tS := t.tS, t0 := t.t0 } t

/-- What `OnlyPulse` allows, and `SHREG`. -/
def State.OnlyReception (s t : State) : Prop := State.OnlyPulse { s with shreg := t.shreg } t

/-- What READMSG may change (44_framer_read.md R170): not `EN`, not `HSWAIT`, not the parameters. -/
def State.OnlyRead (s t : State) : Prop :=
  State.OnlyReception
    { s with msg := t.msg, work := t.work, owed := t.owed, txd := t.txd, seq := t.seq } t

/-- What WRITEMSG may change (45_framer_write.md R190): no register of the Message, no working
register. -/
def State.OnlyWrite (s t : State) : Prop :=
  State.OnlyReception { s with hswait := t.hswait, txd := t.txd, seq := t.seq } t

/-- Every item that has a reset value holds it (10_state.md R45). -/
structure State.AtReset (t : State) : Prop where
  en : t.en = false
  txd : t.txd = .inactive
  busy : t.busy = false
  resValid : t.resValid = false
  resOk : t.resOk = false
  result : t.result = 0
  err : t.err = Err.clear
  idle : t.seq.state = .idle
  evt : t.evt = none

/-- From `s` to `t` an operation began a wait that never ends: `BUSY` is 1, no result is written, and
the line has nothing but repetitions to come (70_reset_and_hazards.md R254; log 8). -/
structure State.WaitsForEver (s t : State) : Prop where
  busy : t.busy = true
  resValid : t.resValid = false
  resOk : t.resOk = false
  result : t.result = s.result
  err : t.err = s.err
  msg : t.msg = s.msg
  en : t.en = s.en
  quiet : t.evt = none
  script : t.io.rx.script = []

/-- The levels `tx` showed from `s` to `t`, oldest first. -/
def drivenSince (s t : State) : List Level :=
  ((t.io.pins.take (t.io.pins.length - s.io.pins.length)).map Pins.tx).reverse

/-- The machine without its hidden registers, `SEQ.state` and `TXD` kept (10_state.md R40). -/
def State.visible (s : State) : State :=
  { s with
    work := Message.zero, owed := false, hswait := false, tS := 0, t0 := 0, shreg := 0,
    seq := ⟨s.seq.state, 0, 0⟩ }

/-- Two machines that differ at most in the gate and in what shows it: the pin `en` and the data of
reads (40_gate_control.md R113). -/
structure State.SameButGate (s t : State) : Prop where
  same : t = { s with en := t.en, io := { s.io with pins := t.io.pins, reads := t.io.reads } }
  tx : t.io.pins.map Pins.tx = s.io.pins.map Pins.tx
  reads : t.io.reads.map ReadData.tick = s.io.reads.map ReadData.tick

/-- The nine Codec operations (00_scope.md R5). -/
def isCodecOp : Instr → Bool
  | .busfree | .rxstart | .rxbit | .rxbits _ | .rxack => true
  | .txstart | .txbit _ | .txbits _ _ | .txack _ => true
  | .enable | .disable | .isen | .readmsg | .writemsg => false

/-- `n` is within a deadline; without a deadline every `n` is. -/
def Within (max : Option Nat) (n : Nat) : Prop := ∀ m, max = some m → n ≤ m

/-! ### Pulses on the line, by their position -/

/-- From tick offset `o` on, `rx` has `g` inactive ticks, then a pulse of exactly `H` ticks, and a
receive step that starts at `o` meets no deadline (41_codec_receive.md R120, R121). A pulse already
running at `o` has `g` = 0 and `H` its remainder (R121 case 1). The clock does not come round within
the pulse (00_scope.md R11). -/
structure PulseAt (p : Params) (rx : Nat → Level) (o g H : Nat) : Prop where
  gap : ∀ k, k < g → rx (o + k) = .inactive
  active : ∀ k, k < H → rx (o + g + k) = .active
  stop : rx (o + g + H) = .inactive
  pos : 1 ≤ H
  startInTime : Within p.tWaitMax (g + 1)
  stopInTime : Within p.tWaitMax H
  clock : H < 2 ^ 64

/-- A receive step that starts at offset `o` meets a deadline after `n` ticks: no pulse begins in
time, or the pulse does not end in time (41_codec_receive.md R120, R121). The clock does not come round
before the deadline (00_scope.md R11). -/
def TimeoutAt (p : Params) (rx : Nat → Level) (o n : Nat) : Prop :=
  ∃ m, p.tWaitMax = some m ∧ m < 2 ^ 64 ∧
    (((∀ k, k < m → rx (o + k) = .inactive) ∧ n = m) ∨
      ∃ g, g < m ∧ (∀ k, k < g → rx (o + k) = .inactive) ∧
        (∀ k, k ≤ m → rx (o + g + k) = .active) ∧ n = g + 1 + m)

/-- A receive step that starts at offset `o` has no deadline and waits for ever: no pulse begins, or one
begins and does not end (70_reset_and_hazards.md R254). -/
def EndlessAt (p : Params) (rx : Nat → Level) (o : Nat) : Prop :=
  p.tWaitMax = none ∧
    ((∀ k, rx (o + k) = .inactive) ∨
      ∃ g, (∀ k, k < g → rx (o + k) = .inactive) ∧ ∀ k, rx (o + g + k) = .active)

/-- The duration `d` lies in the start window, both ends inside (41_codec_receive.md R122). -/
def InStartWindow (p : Params) (d : Nat) : Prop :=
  (p.tStartHigh : Int) - p.startTol ≤ d ∧ (d : Int) ≤ p.tStartHigh + p.startTol

/-- `b` is the symbol of a pulse of `d` ticks: symbol 0 where its width is as near or nearer
(41_codec_receive.md R122, R128). -/
def IsSymbol (p : Params) (d : Nat) (b : Bool) : Prop :=
  b = false ↔ |(d : Int) - p.tHigh0| ≤ |(d : Int) - p.tHigh1|

/-- A data pulse with the symbol `b` is received from offset `o` in `n` ticks. -/
def BitAt (p : Params) (rx : Nat → Level) (b : Bool) (o n : Nat) : Prop :=
  ∃ g H, PulseAt p rx o g H ∧ IsSymbol p H b ∧ n = g + H + 1

/-- Data pulses with the symbols `bs`, in this order, are received from offset `o` in `n` ticks. -/
def BitsAt (p : Params) (rx : Nat → Level) : List Bool → Nat → Nat → Prop
  | [], _, n => n = 0
  | b :: bs, o, n => ∃ k m, BitAt p rx b o k ∧ BitsAt p rx bs (o + k) m ∧ n = k + m

/-- The value bits of a field, most significant first (20_memory.md R60). -/
def bitsOf (v : Half) (n : Nat) : List Bool := (List.range n).reverse.map v.getLsbD

/-- The number that bits received in this order stand for (30_encoding.md R87). -/
def valueOf (bs : List Bool) : Nat := bs.foldl (fun a b => 2 * a + b.toNat) 0

/-! ### Waveforms -/

/-- The start bit (30_encoding.md R80). -/
def startWave (p : Params) : List Level :=
  List.replicate p.tStartHigh .active ++ List.replicate (p.tStartTotal - p.tStartHigh) .inactive

/-- A data bit (30_encoding.md R80). -/
def bitWave (p : Params) (b : Bool) : List Level :=
  List.replicate (highOf p b) .active ++ List.replicate (p.tBit - highOf p b) .inactive

/-- Data bits back to back. -/
def bitsWave (p : Params) (bs : List Bool) : List Level := bs.flatMap (bitWave p)

/-- A field: value bits and parity bit (30_encoding.md R83). -/
def fieldWave (p : Params) (v : Half) (n : Nat) : List Level :=
  bitsWave p (bitsOf v n ++ [parity v n])

/-- A handshake bit as the responder drives it (43_framer_common.md R157). -/
def answerWave (p : Params) (a : Ack) : List Level :=
  List.replicate p.tAckDelay .inactive ++ bitWave p a.toBit

/-- The fields a handshake may follow, in frame order, each with its width (30_encoding.md R83). -/
def eligibleFields (m : Message) : List (Half × Nat) :=
  [(m.slave.setWidth 16, 12), (m.ctrl.setWidth 16, 4), (wireOfLen m.len, 8)] ++
    (List.range m.len.toNat).map fun i => ((m.byteAt i).setWidth 16, 8)

/-- What an error in the `k`-th of these fields is reported with (10_state.md R33). -/
def eligiblePlace : Nat → ErrField × Byte
  | 0 => (.slave, 0)
  | 1 => (.control, 0)
  | 2 => (.length, 0)
  | k + 3 => (.data, BitVec.ofNat 8 k)

/-- The frame up to the master field's parity bit (30_encoding.md R85). -/
def headWave (p : Params) (m : Message) : List Level :=
  startWave p ++ bitWave p (symbolOfBType p m.bt) ++ fieldWave p (m.master.setWidth 16) 12

/-- The frame as sent without handshakes (30_encoding.md R85). -/
def broadcastWave (p : Params) (m : Message) : List Level :=
  headWave p m ++ (eligibleFields m).flatMap fun f => fieldWave p f.1 f.2

/-- Two nodes have the same bit-timing profile; address, deadlines and the rest may differ
(00_scope.md R9). -/
structure SameTiming (p q : Params) : Prop where
  tStartHigh : q.tStartHigh = p.tStartHigh
  tStartTotal : q.tStartTotal = p.tStartTotal
  startTol : q.startTol = p.startTol
  tBit : q.tBit = p.tBit
  tHigh0 : q.tHigh0 = p.tHigh0
  tHigh1 : q.tHigh1 = p.tHigh1

/-- What a transmit operation drives from its start tick to its end; nothing for every other operation
and for an illegal count (42_codec_transmit.md R141 to R144). -/
def transmitWave (p : Params) : Instr → Option (List Level)
  | .txstart => some (startWave p)
  | .txbit b => some (bitWave p b)
  | .txbits v n => if legalCount n then some (bitsWave p (bitsOf v n.toNat)) else none
  | .txack a => some (bitWave p a.toBit)
  | .enable | .disable | .isen | .busfree | .rxstart | .rxbit | .rxbits _ | .rxack => none
  | .readmsg | .writemsg => none

/-- `r` sees the line rest for `d` ticks and then the levels `w`. -/
def State.Hears (r : State) (d : Nat) (w : List Level) : Prop :=
  (∀ k, k < d → r.rxAt k = .inactive) ∧ ∀ k, k < w.length → r.rxAt (d + k) = w.getD k .inactive

/-! ### What a transaction meets on the line -/

/-- A field with the value `v` is received from offset `o`; the reader's `tx` shows `w` in that time:
nothing, then `Acknowledged` if it owes the handshake (43_framer_common.md R157). -/
def FieldAt (p : Params) (rx : Nat → Level) (owed : Bool) (v : Half) (n o : Nat)
    (w : List Level) : Prop :=
  ∃ a b, BitsAt p rx (bitsOf v n) o a ∧ BitAt p rx (parity v n) (o + a) b ∧
    w = List.replicate (a + b) .inactive ++ (if owed then answerWave p .acknowledged else [])

/-- Fields in this order, each received as `FieldAt` says. -/
def FieldsAt (p : Params) (rx : Nat → Level) (owed : Bool) :
    List (Half × Nat) → Nat → List Level → Prop
  | [], _, w => w = []
  | f :: fs, o, w => ∃ w₁ w₂, FieldAt p rx owed f.1 f.2 o w₁ ∧
      FieldsAt p rx owed fs (o + w₁.length) w₂ ∧ w = w₁ ++ w₂

/-- The start bit, the broadcast-type bit and the master field of `m` are received from offset 0, with
nothing driven (44_framer_read.md R173 to R175). -/
def HeadAt (p : Params) (rx : Nat → Level) (m : Message) (n : Nat) : Prop :=
  ∃ g H a w, PulseAt p rx 0 g H ∧ InStartWindow p H ∧
    BitAt p rx (symbolOfBType p m.bt) (g + H + 1) a ∧
    FieldAt p rx false (m.master.setWidth 16) 12 (g + H + 1 + a) w ∧
    n = g + H + 1 + a + w.length

/-- The whole frame of `m` is on the line from offset 0 on; a node with the parameters `p` reading it
drives `w` (44_framer_read.md R170). -/
def FrameAt (p : Params) (rx : Nat → Level) (m : Message) (w : List Level) : Prop :=
  ∃ n w', HeadAt p rx m n ∧ FieldsAt p rx (owedFor p m.bt m.slave) (eligibleFields m) n w' ∧
    w = List.replicate n .inactive ++ w'

/-- The bus is found free `d` ticks after offset 0, for the first time, within the bound of the wait
(45_framer_write.md R193). -/
structure FreeAt (p : Params) (rx : Nat → Level) (d : Nat) : Prop where
  free : ∀ k, k < p.tBit → rx (d + k) = .inactive
  first : ∀ e, e < d → ∃ k, k < p.tBit ∧ rx (e + k) = .active
  inTime : ∀ m, p.tBusFreeMax = some m → d = 0 ∨ d < m

/-- A writer that sends these fields from offset `o` on gets `Acknowledged` for each; its `tx` shows
`w` (43_framer_common.md R158; 45_framer_write.md R195). -/
def AnsweredAt (p : Params) (rx : Nat → Level) : List (Half × Nat) → Nat → List Level → Prop
  | [], _, w => w = []
  | f :: fs, o, w => ∃ n w', BitAt p rx false (o + (f.2 + 1) * p.tBit) n ∧
      AnsweredAt p rx fs (o + (f.2 + 1) * p.tBit + n) w' ∧
      w = fieldWave p f.1 f.2 ++ List.replicate n .inactive ++ w'

/-! ### The invariant -/

/-- What every step keeps. Between operations `tx` is `Inactive` and `SEQ` is `Idle` (42_codec_transmit.md
R145; 20_memory.md R71); `BUSY` stays 1 only for a wait that can never end, on a line that only
repeats and with no result reported (70_reset_and_hazards.md R254); a true result is a valid one without
error, and `ERR_INDEX` is 0 outside the payload (10_state.md R28, R33). -/
structure State.Inv (s : State) : Prop where
  profile : s.params.wf = true
  txd : s.txd = .inactive
  idle : s.busy = false → s.seq.state = .idle
  hung : s.busy = true → s.io.rx.script = [] ∧ s.resValid = false ∧ s.resOk = false
  ok : s.resOk = true → s.resValid = true ∧ s.err = Err.clear
  index : s.err.field ≠ .data → s.err.index = 0

/-! ### The register map -/

/-- The writable bits of the register at a byte offset (20_memory.md R70). -/
def writableBits (addr : Nat) : Option Word :=
  if addr = 0x014 then some 0x0FFF0FFF
  else if addr = 0x018 then some 0x01FF010F
  else if 0x400 ≤ addr ∧ addr ≤ 0x7FC ∧ addr % 4 = 0 then some 0x000000FF
  else none

/-! ### The command table -/

/-- A row of the table of 30_encoding.md R92: `counted` where 1 ≤ `N` ≤ 16 is required besides. -/
structure CommandRow where
  mnemonic : String
  matchBits : Word
  mask : Word
  counted : Bool

/-- The table of 30_encoding.md R92. -/
def commandTable : List CommandRow :=
  [⟨"ENABLE", 0x01000000, 0xFFFFFFFF, false⟩, ⟨"DISABLE", 0x02000000, 0xFFFFFFFF, false⟩,
   ⟨"ISEN", 0x03000000, 0xFFFFFFFF, false⟩, ⟨"BUSFREE", 0x04000000, 0xFFFFFFFF, false⟩,
   ⟨"RXSTART", 0x10000000, 0xFFFFFFFF, false⟩, ⟨"RXBIT", 0x11000000, 0xFFFFFFFF, false⟩,
   ⟨"RXBITS", 0x12000000, 0xFFE0FFFF, true⟩, ⟨"RXACK", 0x13000000, 0xFFFFFFFF, false⟩,
   ⟨"TXSTART", 0x20000000, 0xFFFFFFFF, false⟩, ⟨"TXBIT", 0x21000000, 0xFFFFFFFE, false⟩,
   ⟨"TXBITS", 0x22000000, 0xFFE00000, true⟩, ⟨"TXACK", 0x23000000, 0xFFFFFFFE, false⟩,
   ⟨"READMSG", 0x30000000, 0xFFFFFFFF, false⟩, ⟨"WRITEMSG", 0x31000000, 0xFFFFFFFF, false⟩]

/-- The word `w` is the operation of the row (30_encoding.md R92). -/
def CommandRow.selects (r : CommandRow) (w : Word) : Prop :=
  w &&& r.mask = r.matchBits ∧
    (r.counted = true → 1 ≤ (w.toNat / 2 ^ 16) % 32 ∧ (w.toNat / 2 ^ 16) % 32 ≤ 16)

/-- The mnemonic of an operation (00_scope.md R5). -/
def mnemonicOf : Instr → String
  | .enable => "ENABLE"
  | .disable => "DISABLE"
  | .isen => "ISEN"
  | .busfree => "BUSFREE"
  | .rxstart => "RXSTART"
  | .rxbit => "RXBIT"
  | .rxbits _ => "RXBITS"
  | .rxack => "RXACK"
  | .txstart => "TXSTART"
  | .txbit _ => "TXBIT"
  | .txbits _ _ => "TXBITS"
  | .txack _ => "TXACK"
  | .readmsg => "READMSG"
  | .writemsg => "WRITEMSG"

end Sys2Proof.Machine
end

