-- ==== Sys2Proof/Certificates/Slice0/Obligations.lean ====
section
/-! DEFINITION. The statements for the provers. Each docstring names the rules of spec/ it formalises;
where a clause rests on a choice of the model, it names the log entry. -/

open Sys2Proof Sys2Proof.Machine

/-! ### Reset, and what a step is -/

/-- 10_state.md R45, for the machine and for a node with any parameters. -/
def Obligations.ResetValues : Prop :=
  (∀ s : State, s = State.reset ∨ (∃ p, s = State.resetOf p) →
    s.en = false ∧ s.txd = .inactive ∧ s.busy = false ∧ s.resValid = false ∧ s.resOk = false ∧
    s.result = 0 ∧ s.err = Err.clear ∧ s.seq.state = .idle ∧ s.evt = none) ∧
  ∀ p : Params, (State.resetOf p).params = p

/-- 70_reset_and_hazards.md R240, in any tick in which no operation of this step runs, also with `BUSY`
= 1; that the inputs go on and that no access is served in that tick is log 7. -/
def Obligations.ResetInputRestoresResetValues : Prop :=
  ∀ (s : State) (h : List HostReq), s.params.wf = true → s.io.host = .reset :: h →
    ∃ t, step s = .next t ∧ t.params = s.params ∧ t.AtReset ∧
      t.io = { s.io with
        now := s.io.now + 1, rx := s.io.rx.next, host := h,
        pins := ⟨.inactive, false⟩ :: s.io.pins }

/-- 70_reset_and_hazards.md R240: the reset input in tick `k` of an operation ends it there, with `tx`
and `en` already low in that tick and no result written (log 7). First for a transmission, by its
waveform; then for every operation, READMSG, WRITEMSG and the receive side among them, by the run `u`
of `n` ticks, more than `k`, that it has without the reset. -/
def Obligations.ResetCutsTransmission : Prop :=
  (∀ (i : Instr) (s : State) (w : List Level) (k : Nat), s.params.wf = true →
    transmitWave s.params i = some w → k < w.length →
    (∀ j, j < k → s.io.host[j]? ≠ some .reset ∧ s.io.host[j]? ≠ some .wait) →
    s.io.host[k]? = some .reset →
    ∃ t, exec i s = .next t ∧ t.params = s.params ∧ t.AtReset ∧
      t.io.now = s.io.now + .ofNat 64 (k + 1) ∧
      t.io.pins = ⟨.inactive, false⟩ ::
        (((w.take k).map fun l => Pins.mk l s.en).reverse ++ s.io.pins)) ∧
  ∀ (i : Instr) (s u : State) (k n : Nat), s.params.wf = true → s.NoReset k →
    .wait ∉ s.io.host.take k → s.io.host[k]? = some .reset →
    exec i { s with io := { s.io with host := s.io.host.take k } } = .next u →
    u.io.pins.length = s.io.pins.length + n → k < n →
    ∃ t, exec i s = .next t ∧ t.params = s.params ∧ t.AtReset ∧
      t.io.now = s.io.now + .ofNat 64 (k + 1) ∧ t.io.rx = s.io.rx.after (k + 1) ∧
      t.io.host = s.io.host.drop (k + 1) ∧
      t.io.pins = ⟨.inactive, false⟩ :: u.io.pins.drop (n - k)

/-- 20_memory.md R71: a write of `CMD` while `BUSY` = 0 starts the decoded operation, with the next tick
as its start tick; `withFetchWord` places such a write (log 4, log 17). -/
def Obligations.StepRunsDecodedCommand : Prop :=
  (∀ (s : State) (w : Word) (i : Instr) (h : List HostReq), s.params.wf = true → s.busy = false →
    s.io.host = .write 0x000 4 w :: h → decode w = .ok i →
    i.wf = true ∧
    step s = exec i { s with
      evt := none,
      io := { s.io with
        now := s.io.now + 1, rx := s.io.rx.next, host := h,
        pins := ⟨s.txd, s.en⟩ :: s.io.pins } }) ∧
  ∀ (s : State) (nbits w : Nat) (i : Instr), s.params.wf = true →
    decodeTableWord nbits w = some i →
    step (s.withFetchWord nbits w) = exec i { s with
      busy := false, evt := none,
      io := { s.io with
        now := s.io.now + 1, rx := s.io.rx.next, pins := ⟨s.txd, s.en⟩ :: s.io.pins } }

/-- 60_exceptions.md R223 and 70_reset_and_hazards.md R242: where no operation is in progress and none is
started, a tick changes no register of the block, but what the host writes. -/
def Obligations.IdleTickDoesNothing : Prop :=
  ∀ s : State, s.params.wf = true → s.busy = false → s.fetch = none →
    s.io.host.head? ≠ some .reset →
    ∃ t, step s = .next t ∧
      t = { s with
        msg := t.msg, evt := none,
        io := { s.io with
          now := s.io.now + 1, rx := s.io.rx.next, host := s.io.host.tail,
          pins := ⟨s.txd, s.en⟩ :: s.io.pins, reads := t.io.reads } } ∧
      ((∀ a n v, s.io.host.head? ≠ some (.write a n v)) → t.msg = s.msg) ∧
      ((∀ a n, s.io.host.head? ≠ some (.read a n)) → t.io.reads = s.io.reads)

/-- 20_memory.md R71 and 70_reset_and_hazards.md R254, R256: while `BUSY` = 1 a write, of `CMD` or of any
other register, is lost. That a step which begins with `BUSY` = 1 changes no register at all is the
model's: it runs a whole operation in the step that accepts it (log 4), so `BUSY` = 1 between two steps
is a wait that never ends (log 8). -/
def Obligations.BusyIgnoresTheHost : Prop :=
  ∀ s : State, s.params.wf = true → s.busy = true → s.io.host.head? ≠ some .reset →
    ∃ t, step s = .next t ∧
      t = { s with
        evt := none,
        io := { s.io with
          now := s.io.now + 1, rx := s.io.rx.next, host := t.io.host,
          pins := ⟨s.txd, s.en⟩ :: s.io.pins, reads := t.io.reads } } ∧
      (∀ a n v h, s.io.host = .write a n v :: h → t.io.host = h ∧ t.io.reads = s.io.reads)

/-- 00_scope.md R11 and 10_state.md R30: every step of an instance of the block answers; it takes at
least one tick, in each of which one level of the line passes, one request of the host is taken (`WAIT`
may stay longer) and one record of the pins is made; and no parameter changes. A state that is no
instance of the block has no step (log 9). Where the step has ended an operation, or run none, and
no reset came, it has depended on the levels that passed and on no later one. -/
def Obligations.StepAnswersAndTimeMovesOn : Prop :=
  ∀ s : State, (s.params.wf = false → step s = .fault .illFormedProfile) ∧
    (s.params.wf = true → ∃ t n, step s = .next t ∧ 1 ≤ n ∧ t.params = s.params ∧
      t.io.now = s.io.now + .ofNat 64 n ∧ t.io.rx = s.io.rx.after n ∧
      (∃ ps, ps.length = n ∧ t.io.pins = ps ++ s.io.pins) ∧
      (.wait ∉ s.io.host → t.io.host = s.io.host.drop n) ∧
      (t.busy = false → n < 2 ^ 64 → s.NoReset n →
        ∀ l : Line, (∀ k, k < n → (l.after k).level = s.rxAt k) →
          step { s with io := { s.io with rx := l } } =
            .next { t with io := { t.io with rx := l.after n } }))

/-! ### The command word -/

/-- 30_encoding.md R92: a word decodes to an operation exactly where a row of the table selects it, and
it is the row's operation. -/
def Obligations.CommandTableSelects : Prop :=
  ∀ w : Word,
    (∀ i, decode w = .ok i → ∃ r ∈ commandTable, r.mnemonic = mnemonicOf i ∧ r.selects w) ∧
    ∀ r ∈ commandTable, r.selects w → ∃ i, decode w = .ok i ∧ mnemonicOf i = r.mnemonic

/-- 30_encoding.md R90, R91: where the operands stand in the word. -/
def Obligations.OperandsReadFromTheWord : Prop :=
  ∀ w : Word,
    (∀ n, decode w = .ok (.rxbits n) → n.toNat = w.toNat / 2 ^ 16 % 32) ∧
    (∀ v n, decode w = .ok (.txbits v n) →
      v.toNat = w.toNat % 2 ^ 16 ∧ n.toNat = w.toNat / 2 ^ 16 % 32) ∧
    (∀ b, decode w = .ok (.txbit b) → (b = true ↔ w.toNat % 2 = 1)) ∧
    (∀ a, decode w = .ok (.txack a) → (a = .rejected ↔ w.toNat % 2 = 1))

/-- Decoding the command word of any operation gives it back, with every operand. -/
def Obligations.DecodeEncode : Prop := ∀ i : Instr, i.wf = true → decode (encode i) = .ok i

/-- 30_encoding.md R93, R217. -/
def Obligations.IllegalCommandWord : Prop :=
  ∀ (s : State) (w : Word) (h : List HostReq), s.params.wf = true → s.busy = false →
    s.io.host = .write 0x000 4 w :: h → (∀ r ∈ commandTable, ¬ r.selects w) →
    ∃ t, step s = .next t ∧ t.Failed .illegalCommand .none 0 ∧ s.OnlyResults t ∧
      t.io = { s.io with
        now := s.io.now + 1, rx := s.io.rx.next, host := h,
        pins := ⟨s.txd, s.en⟩ :: s.io.pins } ∧
      t.hostRead 0x008 4 = 0 ∧ t.hostRead 0x00C 4 = 7

/-- Words written out from 30_encoding.md R90 to R92. -/
def Obligations.DecodeSampleWords : Prop :=
  decode 0x01000000 = .ok .enable ∧ decode 0x04000000 = .ok .busfree ∧
  decode 0x120C0000 = .ok (.rxbits 12) ∧ decode 0x21000001 = .ok (.txbit true) ∧
  decode 0x2204000B = .ok (.txbits 0xB 4) ∧ decode 0x23000000 = .ok (.txack .acknowledged) ∧
  decode 0x30000000 = .ok .readmsg ∧ decode 0x31000000 = .ok .writemsg

/-- RXBITS and TXBITS as instructions with a count outside 1 to 16, which no legal word gives: what
30_encoding.md R93 says of such a word (log 21). -/
def Obligations.IllegalCountIsIllegalCommand : Prop :=
  ∀ (s : State) (v : Half) (n : BitVec 5) (i : Instr), legalCount n = false →
    i = .rxbits n ∨ i = .txbits v n →
    ∃ t, Aborts i s t [] .illegalCommand .none 0 ∧ s.OnlyResults t ∧ t.io = s.io

/-! ### The gate -/

/-- 40_gate_control.md R110. -/
def Obligations.EnableOpensTheGate : Prop :=
  decode 0x01000000 = .ok .enable ∧ ∀ s : State, ∃ t, exec .enable s = .next t ∧ t.hostRead 0x004 4 = 0xD ∧
    t = { s with
      en := true, busy := false, resValid := true, resOk := true, result := 0, err := Err.clear,
      seq := { s.seq with state := .idle } }

/-- 40_gate_control.md R111. -/
def Obligations.DisableClosesTheGate : Prop :=
  decode 0x02000000 = .ok .disable ∧ ∀ s : State, ∃ t, exec .disable s = .next t ∧ t.hostRead 0x004 4 = 0xC ∧
    t = { s with
      en := false, busy := false, resValid := true, resOk := true, result := 0, err := Err.clear,
      seq := { s.seq with state := .idle } }

/-- 40_gate_control.md R112. -/
def Obligations.IsenReportsTheGate : Prop :=
  decode 0x03000000 = .ok .isen ∧ ∀ s : State, ∃ t, exec .isen s = .next t ∧
    (s.en = true → t.hostRead 0x008 4 = 1 ∧ t.hostRead 0x004 4 = 0xD) ∧
    (s.en = false → t.hostRead 0x008 4 = 0 ∧ t.hostRead 0x004 4 = 0xC) ∧
    t = { s with
      busy := false, resValid := true, resOk := true, result := t.result, err := Err.clear,
      seq := { s.seq with state := .idle } }

/-- 40_gate_control.md R113: two machines that differ in `EN` alone run every Codec operation alike. -/
def Obligations.CodecDoesNotReadTheGate : Prop :=
  ∀ (i : Instr) (s s' t : State), isCodecOp i = true → s.SameButGate s' → exec i s = .next t →
    ∃ t', exec i s' = .next t' ∧ t.SameButGate t'

/-! ### The Codec's receive side -/

/-- 41_codec_receive.md R123. -/
def Obligations.BusfreeTestsOneBitPeriod : Prop :=
  decode 0x04000000 = .ok .busfree ∧ ∀ s : State, s.params.wf = true →
    (s.NoReset s.params.tBit → (∀ k, k < s.params.tBit → s.rxAt k = .inactive) →
      ∃ t, Completes .busfree s t (List.replicate s.params.tBit s.txd) true 1 ∧
        s.OnlyResults t) ∧
    ∀ k, k < s.params.tBit → s.NoReset (k + 1) → (∀ j, j < k → s.rxAt j = .inactive) →
      s.rxAt k = .active →
      ∃ t, Completes .busfree s t (List.replicate (k + 1) s.txd) false 0 ∧ s.OnlyResults t

/-- 41_codec_receive.md R124. -/
def Obligations.RxstartTestsTheStartWindow : Prop :=
  decode 0x10000000 = .ok .rxstart ∧ ∀ s : State, s.params.wf = true →
    (∀ g H, PulseAt s.params s.rxAt 0 g H → s.NoReset (g + H + 1) →
      (InStartWindow s.params H →
        ∃ t, Completes .rxstart s t (List.replicate (g + H + 1) s.txd) true 1 ∧ s.OnlyPulse t) ∧
      (¬ InStartWindow s.params H →
        ∃ t, Aborts .rxstart s t (List.replicate (g + H + 1) s.txd) .notAStartBit .start 0 ∧
          s.OnlyPulse t)) ∧
    ∀ n, TimeoutAt s.params s.rxAt 0 n → s.NoReset n →
      ∃ t, Aborts .rxstart s t (List.replicate n s.txd) .timeout .start 0 ∧ s.OnlyPulse t

/-- 41_codec_receive.md R125. -/
def Obligations.RxbitReadsTheNearerSymbol : Prop :=
  decode 0x11000000 = .ok .rxbit ∧ ∀ s : State, s.params.wf = true →
    (∀ g H b, PulseAt s.params s.rxAt 0 g H → IsSymbol s.params H b → s.NoReset (g + H + 1) →
      ∃ t, Completes .rxbit s t (List.replicate (g + H + 1) s.txd) true (if b then 1 else 0) ∧
        s.OnlyPulse t) ∧
    ∀ n, TimeoutAt s.params s.rxAt 0 n → s.NoReset n →
      ∃ t, Aborts .rxbit s t (List.replicate n s.txd) .timeout .none 0 ∧ s.OnlyPulse t

/-- 41_codec_receive.md R126, for a machine outside a transaction (10_state.md R27; the invariant
`StepKeepsInvariant` states). -/
def Obligations.RxbitsAssemblesTheValue : Prop :=
  ∀ (s : State) (c : BitVec 5), s.params.wf = true → s.seq.state = .idle →
    legalCount c = true →
    decode (0x12000000 ||| c.setWidth 32 <<< 16) = .ok (.rxbits c) ∧
    (∀ bs n, bs.length = c.toNat → BitsAt s.params s.rxAt bs 0 n → s.NoReset n →
      ∃ t, Completes (.rxbits c) s t (List.replicate n s.txd) true t.result ∧
        t.result.toNat = valueOf bs ∧ s.OnlyReception t) ∧
    ∀ bs a n, bs.length < c.toNat → BitsAt s.params s.rxAt bs 0 a →
      TimeoutAt s.params s.rxAt a n → s.NoReset (a + n) →
      ∃ t, Aborts (.rxbits c) s t (List.replicate (a + n) s.txd) .timeout .none 0 ∧
        s.OnlyReception t

/-- 41_codec_receive.md R127: symbol 0 is `Acknowledged`, 0, and symbol 1 `Rejected`, 1. -/
def Obligations.RxackReadsAHandshake : Prop :=
  decode 0x13000000 = .ok .rxack ∧ ∀ s : State, s.params.wf = true →
    (∀ g H b, PulseAt s.params s.rxAt 0 g H → IsSymbol s.params H b → s.NoReset (g + H + 1) →
      ∃ t, Completes .rxack s t (List.replicate (g + H + 1) s.txd) true (if b then 1 else 0) ∧
        s.OnlyPulse t) ∧
    ∀ n, TimeoutAt s.params s.rxAt 0 n → s.NoReset n →
      ∃ t, Aborts .rxack s t (List.replicate n s.txd) .timeout .none 0 ∧ s.OnlyPulse t

/-- 70_reset_and_hazards.md R254: without a deadline, a wait for a pulse that never comes or never ends,
for a bus that is never free, or for a handshake that never comes leaves the operation uncompleted:
`BUSY` = 1 and no result (that the model's step ends there is log 8; that `BUSY` then stays 1 is
`BusyIgnoresTheHost`). -/
def Obligations.WaitWithoutDeadlineNeverCompletes : Prop :=
  ∀ s : State, s.params.wf = true → .reset ∉ s.io.host →
    (∀ i : Instr,
      EndlessAt s.params s.rxAt 0 ∧
        (i = .rxstart ∨ i = .rxbit ∨ i = .rxack ∨ (i = .readmsg ∧ s.en = true)) ∨
      (∃ c bs a, i = .rxbits c ∧ legalCount c = true ∧ bs.length < c.toNat ∧
        BitsAt s.params s.rxAt bs 0 a ∧ EndlessAt s.params s.rxAt a) ∨
      (i = .writemsg ∧ s.en = true ∧ legalLen s.msg.len = true ∧ s.params.tBusFreeMax = none ∧
        ∀ d, ∃ k, k < s.params.tBit ∧ s.rxAt (d + k) = .active) →
      ∃ t, exec i s = .next t ∧ s.WaitsForEver t ∧ ∀ x ∈ drivenSince s t, x = s.txd) ∧
    ∀ (d k : Nat) (v : Half) (width : Nat) (w : List Level), s.en = true → s.txd = .inactive →
      s.msg.bt = .forDevice → legalLen s.msg.len = true →
      (eligibleFields s.msg)[k]? = some (v, width) → FreeAt s.params s.rxAt d →
      AnsweredAt s.params s.rxAt ((eligibleFields s.msg).take k)
        (d + s.params.tBit + (headWave s.params s.msg).length) w →
      EndlessAt s.params s.rxAt
        (d + s.params.tBit + (headWave s.params s.msg).length + w.length +
          (width + 1) * s.params.tBit) →
      ∃ t j, exec .writemsg s = .next t ∧ s.WaitsForEver t ∧
        drivenSince s t = List.replicate (d + s.params.tBit) .inactive ++
          headWave s.params s.msg ++ w ++ fieldWave s.params v width ++ List.replicate j .inactive

/-! ### The Codec's transmit side -/

/-- 42_codec_transmit.md R141. -/
def Obligations.TxstartDrivesAStartBit : Prop :=
  decode 0x20000000 = .ok .txstart ∧ ∀ s : State, s.params.wf = true → s.NoReset s.params.tStartTotal →
    ∃ t, Completes .txstart s t (startWave s.params) true 0 ∧
      State.OnlyResults { s with txd := .inactive } t

/-- 42_codec_transmit.md R142. -/
def Obligations.TxbitDrivesADataBit : Prop :=
  (∀ b, decode (if b then 0x21000001 else 0x21000000) = .ok (.txbit b)) ∧
  ∀ (s : State) (b : Bool), s.params.wf = true → s.NoReset s.params.tBit →
    ∃ t, Completes (.txbit b) s t (bitWave s.params b) true 0 ∧
      State.OnlyResults { s with txd := .inactive } t

/-- 42_codec_transmit.md R143, for a machine outside a transaction (10_state.md R27; the invariant
`StepKeepsInvariant` states): bit `n-1` first, each bit in a slot of its own. -/
def Obligations.TxbitsDrivesTheLowBits : Prop :=
  ∀ (s : State) (v : Half) (n : BitVec 5), s.params.wf = true → s.seq.state = .idle →
    legalCount n = true → s.NoReset (n.toNat * s.params.tBit) →
    decode (0x22000000 ||| n.setWidth 32 <<< 16 ||| v.setWidth 32) = .ok (.txbits v n) ∧
    ∃ t, Completes (.txbits v n) s t
        ((List.range n.toNat).reverse.flatMap fun i => bitWave s.params (v.getLsbD i)) true 0 ∧
      State.OnlyResults { s with txd := .inactive, shreg := v } t

/-- 42_codec_transmit.md R144: `Acknowledged` is symbol 0, `Rejected` symbol 1. -/
def Obligations.TxackDrivesAHandshake : Prop :=
  decode 0x23000000 = .ok (.txack .acknowledged) ∧ decode 0x23000001 = .ok (.txack .rejected) ∧
  ∀ s : State, s.params.wf = true → s.NoReset s.params.tBit →
    (∃ t, Completes (.txack .acknowledged) s t (bitWave s.params false) true 0 ∧
      State.OnlyResults { s with txd := .inactive } t) ∧
    ∃ t, Completes (.txack .rejected) s t (bitWave s.params true) true 0 ∧
      State.OnlyResults { s with txd := .inactive } t

/-- 42_codec_transmit.md R145: every operation leaves `TXD` `Inactive`, however it ends; an operation of
the gate or of the receive side never drives the line. -/
def Obligations.TxRestsAfterEveryOperation : Prop :=
  ∀ (i : Instr) (s t : State), s.params.wf = true → exec i s = .next t →
    (transmitWave s.params i ≠ none → t.txd = .inactive) ∧
    (s.txd = .inactive → t.txd = .inactive) ∧
    (s.txd = .inactive → transmitWave s.params i = none → i ≠ .readmsg → i ≠ .writemsg →
      ∀ l ∈ drivenSince s t, l = .inactive)

/-- 41_codec_receive.md R129: what TXBITS drives, RXBITS of a node with the same bit timing reads back,
whatever its address and its deadlines; the clock does not come round meanwhile (00_scope.md R11). -/
def Obligations.BitFieldRoundTrip : Prop :=
  ∀ (s t r : State) (v : Half) (n : BitVec 5) (d : Nat), s.params.wf = true →
    legalCount n = true → s.NoReset (n.toNat * s.params.tBit) → exec (.txbits v n) s = .next t →
    SameTiming s.params r.params → r.Hears d (drivenSince s t) →
    r.params.waitExceeds (d + s.params.tBit) = true → s.params.tBit < 2 ^ 64 →
    r.NoReset (d + n.toNat * s.params.tBit) →
    ∃ u x, exec (.rxbits n) r = .next u ∧ u.Reports true x Err.clear ∧
      x.toNat = v.toNat % 2 ^ n.toNat

/-- 41_codec_receive.md R129, its last sentence: TXSTART into RXSTART and TXACK into RXACK, between nodes
with the same bit timing. -/
def Obligations.StartAndHandshakeRoundTrip : Prop :=
  ∀ (s t r : State) (a : Ack) (d : Nat), s.params.wf = true →
    SameTiming s.params r.params → s.params.tStartTotal < 2 ^ 64 →
    r.Hears d (drivenSince s t) → r.params.waitExceeds (d + s.params.tStartTotal) = true →
    s.NoReset s.params.tStartTotal → r.NoReset (d + s.params.tStartTotal) →
    (exec .txstart s = .next t →
      ∃ u, exec .rxstart r = .next u ∧ u.Reports true 1 Err.clear) ∧
    (exec (.txack a) s = .next t →
      ∃ u, exec .rxack r = .next u ∧
        u.Reports true (match a with | .acknowledged => 0 | .rejected => 1) Err.clear)

/-! ### The Framer's values -/

/-- 43_framer_common.md R155. -/
def Obligations.ParityCountsOnes : Prop :=
  ∀ (v : Half) (n : Nat),
    (parity v n = true ↔ ((List.range n).filter fun i => v.getLsbD i).length % 2 = 1)

/-- 43_framer_common.md R161: one flipped bit of the value or the parity bit fails the check, two flipped
bits pass it. -/
def Obligations.ParityDetectsSingleFlips : Prop :=
  ∀ n ∈ [4, 8, 12],
    (∀ (v : Half) (i : Nat), i < n → parity (v ^^^ ((1 : Half) <<< i)) n = !parity v n) ∧
    (∀ (v : Half) (p : Bool), p = parity v n → (!p) ≠ parity v n) ∧
    (∀ (v : Half) (i j : Nat), i < n → j < n → i ≠ j →
      parity (v ^^^ ((1 : Half) <<< i) ^^^ ((1 : Half) <<< j)) n = parity v n) ∧
    (∀ (v : Half) (p : Bool) (i : Nat), i < n → p = parity v n →
      (!p) = parity (v ^^^ ((1 : Half) <<< i)) n) ∧
    parity 0 n = false ∧ parity (BitVec.ofNat 16 (2 ^ n - 1)) n = false

/-- 30_encoding.md R88; 43_framer_common.md R156, R159; 44_framer_read.md R174; 45_framer_write.md R190:
the length field in both directions, who answers, who waits, and the symbol of a frame's type. -/
def Obligations.FrameFieldCodes : Prop :=
  (∀ len : BitVec 9, (wireOfLen len).toNat = len.toNat % 256) ∧
  (∀ raw : Half, raw.toNat < 256 →
    (lenOfWire raw).toNat = if raw.toNat = 0 then 256 else raw.toNat) ∧
  ∀ (p : Params) (bt : BType) (slave : BitVec 12),
    (owedFor p bt slave = true ↔ bt = .forDevice ∧ slave = p.localAddr) ∧
    (hsWaitFor bt = true ↔ bt = .forDevice) ∧
    (symbolOfBType p bt = p.fdSymbol ↔ bt = .forDevice) ∧
    ∀ b : Bool, bTypeOfSymbol p b = .forDevice ↔ b = p.fdSymbol

/-! ### READMSG -/

/-- 60_exceptions.md R211, for READMSG and WRITEMSG; the two hidden flags are cleared at the very start
(log 13). -/
def Obligations.DisabledTransaction : Prop :=
  ∀ (s : State) (i : Instr), s.en = false → i = .readmsg ∨ i = .writemsg →
    ∃ t, Aborts i s t [] .controllerDisabled .none 0 ∧ t.io = s.io ∧
      State.OnlyResults { s with owed := t.owed, hswait := t.hswait } t

/-- 44_framer_read.md R173: one candidate pulse; no pulse in time is Timeout, a pulse outside the window
NotAStartBit, and nothing is driven. -/
def Obligations.ReadScansOnePulse : Prop :=
  ∀ s : State, s.params.wf = true → s.en = true → s.txd = .inactive →
    (∀ g H, PulseAt s.params s.rxAt 0 g H → ¬ InStartWindow s.params H →
      s.NoReset (g + H + 1) →
      ∃ t, Aborts .readmsg s t (List.replicate (g + H + 1) .inactive) .notAStartBit .start 0 ∧
        t.msg = s.msg ∧ s.OnlyRead t) ∧
    ∀ n, TimeoutAt s.params s.rxAt 0 n → s.NoReset n →
      ∃ t, Aborts .readmsg s t (List.replicate n .inactive) .timeout .start 0 ∧
        t.msg = s.msg ∧ s.OnlyRead t

/-- 44_framer_read.md R170 to R180: a frame on the line is returned whole, whoever it is for, each field
answered where an answer is owed; payload elements beyond its length keep their values. -/
def Obligations.ReadReturnsTheFrame : Prop :=
  ∀ (s : State) (m : Message) (w : List Level), s.params.wf = true → s.en = true →
    s.txd = .inactive → legalLen m.len = true → FrameAt s.params s.rxAt m w →
    s.NoReset w.length →
    ∃ t, Completes .readmsg s t w true 0 ∧ s.OnlyRead t ∧
      t.msg.bt = m.bt ∧ t.msg.master = m.master ∧ t.msg.slave = m.slave ∧
      t.msg.ctrl = m.ctrl ∧ t.msg.len = m.len ∧
      (∀ i, i < m.len.toNat → t.msg.byteAt i = m.byteAt i) ∧
      ∀ i, m.len.toNat ≤ i → t.msg.byteAt i = s.msg.byteAt i

/-- 44_framer_read.md R175 and 43_framer_common.md R160: a wrong parity bit of the master field ends the
read with nothing transmitted, whoever the frame is for. -/
def Obligations.ReadMasterParityError : Prop :=
  ∀ (s : State) (g H a b c : Nat) (type : Bool) (v : Half), s.params.wf = true → s.en = true →
    s.txd = .inactive → v.toNat < 2 ^ 12 → PulseAt s.params s.rxAt 0 g H →
    InStartWindow s.params H → BitAt s.params s.rxAt type (g + H + 1) a →
    BitsAt s.params s.rxAt (bitsOf v 12) (g + H + 1 + a) b →
    BitAt s.params s.rxAt (!parity v 12) (g + H + 1 + a + b) c →
    s.NoReset (g + H + 1 + a + b + c) →
    ∃ t, Aborts .readmsg s t (List.replicate (g + H + 1 + a + b + c) .inactive)
        .parityError .master 0 ∧ t.msg = s.msg ∧ s.OnlyRead t

/-- 44_framer_read.md R176 to R178, R181: a wrong parity bit in the `k`-th of the fields a handshake may
follow ends the read there, after `Rejected` where the handshake is owed; the fields before it were
answered; nothing of the frame reaches the message registers. -/
def Obligations.ReadAbortsOnParity : Prop :=
  ∀ (s : State) (m : Message) (k n a b : Nat) (v : Half) (width : Nat) (w : List Level),
    s.params.wf = true → s.en = true → s.txd = .inactive → legalLen m.len = true →
    (eligibleFields m)[k]? = some (v, width) → HeadAt s.params s.rxAt m n →
    FieldsAt s.params s.rxAt (owedFor s.params m.bt m.slave) ((eligibleFields m).take k) n w →
    BitsAt s.params s.rxAt (bitsOf v width) (n + w.length) a →
    BitAt s.params s.rxAt (!parity v width) (n + w.length + a) b →
    s.NoReset (n + w.length + a + b +
      if owedFor s.params m.bt m.slave then s.params.tAckDelay + s.params.tBit else 0) →
    ∃ t, Aborts .readmsg s t
        (List.replicate n .inactive ++ w ++ List.replicate (a + b) .inactive ++
          if owedFor s.params m.bt m.slave then answerWave s.params .rejected else [])
        .parityError (eligiblePlace k).1 (eligiblePlace k).2 ∧
      t.msg = s.msg ∧ s.OnlyRead t

/-- 60_exceptions.md R215: where the pulses stop after the start bit, the read ends by Timeout with the
name of the field in progress, and no handshake is sent: in the broadcast-type bit, in the master
field, and in the `k`-th of the fields a handshake may follow. -/
def Obligations.ReadTimesOutInAField : Prop :=
  (∀ (s : State) (g H : Nat), s.params.wf = true → s.en = true → s.txd = .inactive →
    PulseAt s.params s.rxAt 0 g H → InStartWindow s.params H →
    (∀ n, TimeoutAt s.params s.rxAt (g + H + 1) n → s.NoReset (g + H + 1 + n) →
      ∃ t, Aborts .readmsg s t (List.replicate (g + H + 1 + n) .inactive)
          .timeout .broadcastBit 0 ∧ t.msg = s.msg ∧ s.OnlyRead t) ∧
    ∀ (type : Bool) (bs : List Bool) (a b n : Nat), bs.length ≤ 12 →
      BitAt s.params s.rxAt type (g + H + 1) a → BitsAt s.params s.rxAt bs (g + H + 1 + a) b →
      TimeoutAt s.params s.rxAt (g + H + 1 + a + b) n → s.NoReset (g + H + 1 + a + b + n) →
      ∃ t, Aborts .readmsg s t (List.replicate (g + H + 1 + a + b + n) .inactive)
          .timeout .master 0 ∧ t.msg = s.msg ∧ s.OnlyRead t) ∧
  ∀ (s : State) (m : Message) (k n a d : Nat) (v : Half) (width : Nat) (w : List Level)
    (bs : List Bool), s.params.wf = true → s.en = true → s.txd = .inactive →
    legalLen m.len = true → (eligibleFields m)[k]? = some (v, width) →
    HeadAt s.params s.rxAt m n →
    FieldsAt s.params s.rxAt (owedFor s.params m.bt m.slave) ((eligibleFields m).take k) n w →
    bs.length ≤ width → BitsAt s.params s.rxAt bs (n + w.length) a →
    TimeoutAt s.params s.rxAt (n + w.length + a) d → s.NoReset (n + w.length + a + d) →
    ∃ t, Aborts .readmsg s t
        (List.replicate n .inactive ++ w ++ List.replicate (a + d) .inactive)
        .timeout (eligiblePlace k).1 (eligiblePlace k).2 ∧ t.msg = s.msg ∧ s.OnlyRead t

/-- 44_framer_read.md R179: READMSG commits a whole Message of a legal length or nothing: the five
registers and `P[0..W_LEN-1]` are those of the working Message, and the payload elements beyond the
length keep their values. -/
def Obligations.ReadIsNeverPartial : Prop :=
  ∀ s t : State, exec .readmsg s = .next t →
    (t.resValid = true → t.resOk = false → t.msg = s.msg) ∧ (t.busy = true → t.msg = s.msg) ∧
    (t.resOk = true → legalLen t.msg.len = true ∧
      t.msg.bt = t.work.bt ∧ t.msg.master = t.work.master ∧ t.msg.slave = t.work.slave ∧
      t.msg.ctrl = t.work.ctrl ∧ t.msg.len = t.work.len ∧
      (∀ i, i < t.msg.len.toNat → t.msg.byteAt i = t.work.byteAt i) ∧
      ∀ i, t.msg.len.toNat ≤ i → t.msg.byteAt i = s.msg.byteAt i)

/-- 43_framer_common.md R156: a reader that the frame is not for never drives the line, whatever follows
the slave address. -/
def Obligations.AddressingFilter : Prop :=
  ∀ (s t : State) (m : Message) (n a : Nat), s.params.wf = true → s.txd = .inactive →
    HeadAt s.params s.rxAt m n →
    BitsAt s.params s.rxAt (bitsOf (m.slave.setWidth 16) 12) n a → s.NoReset (n + a) →
    ¬ (m.bt = .forDevice ∧ m.slave = s.params.localAddr) → exec .readmsg s = .next t →
    ∀ l ∈ drivenSince s t, l = .inactive

/-! ### WRITEMSG -/

/-- 60_exceptions.md R218. -/
def Obligations.WriteRefusesAnIllegalLength : Prop :=
  ∀ s : State, s.en = true → s.msg.len.toNat = 0 ∨ 256 < s.msg.len.toNat →
    ∃ t, Aborts .writemsg s t [] .invalidMessage .length 0 ∧ t.io = s.io ∧
      State.OnlyResults { s with hswait := t.hswait } t

/-- 45_framer_write.md R190, R193, R194, R196: a `Broadcast` frame, with its time (70_reset_and_hazards.md
R260). -/
def Obligations.WriteSendsABroadcastFrame : Prop :=
  ∀ (s : State) (d : Nat), s.params.wf = true → s.en = true → s.txd = .inactive →
    s.msg.bt = .broadcast → legalLen s.msg.len = true → FreeAt s.params s.rxAt d →
    s.NoReset (d + s.params.tBit + (broadcastWave s.params s.msg).length) →
    ∃ t, Completes .writemsg s t
        (List.replicate (d + s.params.tBit) .inactive ++ broadcastWave s.params s.msg) true 0 ∧
      s.OnlyWrite t ∧
      t.io.now = s.io.now + .ofNat 64 (d + s.params.tBit + s.params.tStartTotal +
        (41 + 9 * s.msg.len.toNat) * s.params.tBit)

/-- 45_framer_write.md R190, R193 to R196: a `ForDevice` frame each field of which is answered
`Acknowledged`. -/
def Obligations.WriteSendsAnAnsweredFrame : Prop :=
  ∀ (s : State) (d : Nat) (w : List Level), s.params.wf = true → s.en = true →
    s.txd = .inactive → s.msg.bt = .forDevice → legalLen s.msg.len = true →
    FreeAt s.params s.rxAt d →
    AnsweredAt s.params s.rxAt (eligibleFields s.msg)
      (d + s.params.tBit + (headWave s.params s.msg).length) w →
    s.NoReset (d + s.params.tBit + (headWave s.params s.msg).length + w.length) →
    ∃ t, Completes .writemsg s t
        (List.replicate (d + s.params.tBit) .inactive ++ headWave s.params s.msg ++ w) true 0 ∧
      s.OnlyWrite t

/-- 45_framer_write.md R195: `Rejected` after the `k`-th of the fields a handshake may follow ends the
write at once; no later field is sent. -/
def Obligations.WriteAbortsOnReject : Prop :=
  ∀ (s : State) (d k n : Nat) (v : Half) (width : Nat) (w : List Level), s.params.wf = true →
    s.en = true → s.txd = .inactive → s.msg.bt = .forDevice → legalLen s.msg.len = true →
    (eligibleFields s.msg)[k]? = some (v, width) → FreeAt s.params s.rxAt d →
    AnsweredAt s.params s.rxAt ((eligibleFields s.msg).take k)
      (d + s.params.tBit + (headWave s.params s.msg).length) w →
    BitAt s.params s.rxAt true
      (d + s.params.tBit + (headWave s.params s.msg).length + w.length +
        (width + 1) * s.params.tBit) n →
    s.NoReset (d + s.params.tBit + (headWave s.params s.msg).length + w.length +
      (width + 1) * s.params.tBit + n) →
    ∃ t, Aborts .writemsg s t
        (List.replicate (d + s.params.tBit) .inactive ++ headWave s.params s.msg ++ w ++
          fieldWave s.params v width ++ List.replicate n .inactive)
        .handshakeRejected (eligiblePlace k).1 (eligiblePlace k).2 ∧ s.OnlyWrite t

/-- 45_framer_write.md R195: no answer in time after the `k`-th of those fields is Timeout with the
field's name; nothing is driven in the wait. -/
def Obligations.WriteTimesOutUnanswered : Prop :=
  ∀ (s : State) (d k n : Nat) (v : Half) (width : Nat) (w : List Level), s.params.wf = true →
    s.en = true → s.txd = .inactive → s.msg.bt = .forDevice → legalLen s.msg.len = true →
    (eligibleFields s.msg)[k]? = some (v, width) → FreeAt s.params s.rxAt d →
    AnsweredAt s.params s.rxAt ((eligibleFields s.msg).take k)
      (d + s.params.tBit + (headWave s.params s.msg).length) w →
    TimeoutAt s.params s.rxAt
      (d + s.params.tBit + (headWave s.params s.msg).length + w.length +
        (width + 1) * s.params.tBit) n →
    s.NoReset (d + s.params.tBit + (headWave s.params s.msg).length + w.length +
      (width + 1) * s.params.tBit + n) →
    ∃ t, Aborts .writemsg s t
        (List.replicate (d + s.params.tBit) .inactive ++ headWave s.params s.msg ++ w ++
          fieldWave s.params v width ++ List.replicate n .inactive)
        .timeout (eligiblePlace k).1 (eligiblePlace k).2 ∧ s.OnlyWrite t

/-- 45_framer_write.md R193: BusBusy at the first `Active` sample that ends `T_BUSFREE_MAX` or more ticks
after the wait began, if no window of `T_BIT` resting ticks came before and the clock has not come round (00_scope.md R11); nothing has
been driven. -/
def Obligations.WriteGivesUpOnABusyBus : Prop :=
  ∀ (s : State) (m e : Nat), s.params.wf = true → s.en = true → s.txd = .inactive →
    legalLen s.msg.len = true → s.params.tBusFreeMax = some m → m ≤ e → 1 ≤ e → e < 2 ^ 64 →
    s.rxAt (e - 1) = .active →
    (∀ j, m ≤ j + 1 → j + 1 < e → s.rxAt j = .inactive) →
    (∀ d, d + s.params.tBit ≤ e → ∃ k, k < s.params.tBit ∧ s.rxAt (d + k) = .active) →
    s.NoReset e →
    ∃ t, Aborts .writemsg s t (List.replicate e .inactive) .busBusy .none 0 ∧ s.OnlyWrite t

/-- 44_framer_read.md R170 and 45_framer_write.md R190 together: a `Broadcast` frame that one node sends
is the Message another node with the same bit timing and `FD_SYMBOL` reads, whatever its address, and
that node drives nothing. The reader may begin up to `c` ticks into the writer's bus test, or `d` ticks before it. -/
def Obligations.FrameRoundTrip : Prop :=
  ∀ (s t r : State) (c d : Nat), s.params.wf = true → s.en = true → s.txd = .inactive →
    s.msg.bt = .broadcast → legalLen s.msg.len = true → FreeAt s.params s.rxAt 0 →
    s.NoReset (s.params.tBit + s.params.tStartTotal +
      (41 + 9 * s.msg.len.toNat) * s.params.tBit) →
    exec .writemsg s = .next t →
    SameTiming s.params r.params → r.params.fdSymbol = s.params.fdSymbol →
    s.params.tStartTotal < 2 ^ 64 → r.en = true →
    r.txd = .inactive → c ≤ s.params.tBit → r.Hears d ((drivenSince s t).drop c) →
    r.params.waitExceeds (d + s.params.tBit + s.params.tStartTotal) = true →
    r.NoReset (d + s.params.tBit + s.params.tStartTotal +
      (41 + 9 * s.msg.len.toNat) * s.params.tBit) →
    ∃ u, exec .readmsg r = .next u ∧ u.Reports true 0 Err.clear ∧
      u.msg.bt = .broadcast ∧ u.msg.master = s.msg.master ∧ u.msg.slave = s.msg.slave ∧
      u.msg.ctrl = s.msg.ctrl ∧ u.msg.len = s.msg.len ∧
      (∀ i, i < s.msg.len.toNat → u.msg.byteAt i = s.msg.byteAt i) ∧
      ∀ l ∈ drivenSince r u, l = .inactive

/-! ### What operations may write, and what they depend on -/

/-- 10_state.md R22, R28 to R30, R40: which operations write the gate, the message registers, the working
registers and the two hidden flags; nothing writes the parameters. -/
def Obligations.OperationsWriteOnlyTheirRegisters : Prop :=
  ∀ (i : Instr) (s t : State), .reset ∉ s.io.host → exec i s = .next t →
    t.params = s.params ∧ (i ≠ .enable → i ≠ .disable → t.en = s.en) ∧
    (i ≠ .readmsg → t.msg = s.msg ∧ t.work = s.work ∧ t.owed = s.owed) ∧
    (i ≠ .writemsg → t.hswait = s.hswait)

/-- 10_state.md R40: after any completion the next operation behaves the same whatever the hidden state
holds. -/
def Obligations.HiddenStateIsNeverObserved : Prop :=
  ∀ (i : Instr) (s s' t : State), s.visible = s'.visible → exec i s = .next t →
    ∃ t', exec i s' = .next t' ∧ t.visible = t'.visible

/-! ### The host's register map -/

/-- 20_memory.md R70 with 10_state.md R21 and R31 to R34, and the numbers of 60_exceptions.md R210 and
10_state.md R33. -/
def Obligations.RegisterMapReads : Prop :=
  ∀ s : State,
    s.hostRead 0x000 4 = 0 ∧
    (s.hostRead 0x004 4).toNat =
      s.en.toNat + 2 * s.busy.toNat + 4 * s.resValid.toNat + 8 * s.resOk.toNat ∧
    (s.hostRead 0x008 4).toNat = s.result.toNat ∧
    (∀ code ∈ [(ErrCode.none, 0), (.controllerDisabled, 1), (.notAStartBit, 2), (.parityError, 3),
        (.handshakeRejected, 4), (.timeout, 5), (.busBusy, 6), (.illegalCommand, 7),
        (.invalidMessage, 8)],
      ∀ field ∈ [(ErrField.none, 0), (.start, 1), (.broadcastBit, 2), (.master, 3), (.slave, 4),
          (.control, 5), (.length, 6), (.data, 7)],
        s.err.code = code.1 → s.err.field = field.1 →
          (s.hostRead 0x00C 4).toNat = code.2 + 16 * field.2 + 256 * s.err.index.toNat) ∧
    (s.hostRead 0x010 4).toNat = s.params.localAddr.toNat ∧
    (s.hostRead 0x014 4).toNat = s.msg.master.toNat + 2 ^ 16 * s.msg.slave.toNat ∧
    (s.hostRead 0x018 4).toNat =
      s.msg.ctrl.toNat + 256 * (match s.msg.bt with | .broadcast => 0 | .forDevice => 1) +
        2 ^ 16 * s.msg.len.toNat ∧
    (∀ i, i < 256 → (s.hostRead (0x400 + 4 * i) 4).toNat = (s.msg.byteAt i).toNat) ∧
    ∀ a, 0x01C ≤ a → a < 0x400 → s.hostRead a 4 = 0

/-- 20_memory.md R69: a read is answered with the state at the start of its tick, and changes no
register (R68). -/
def Obligations.HostReadSeesTheStartOfTheTick : Prop :=
  ∀ (s : State) (a n : Nat) (h : List HostReq), s.params.wf = true →
    s.io.host = .read a n :: h →
    step s = .next { s with
      evt := none,
      io := { s.io with
        now := s.io.now + 1, rx := s.io.rx.next, host := h,
        pins := ⟨s.txd, s.en⟩ :: s.io.pins,
        reads := ⟨s.io.now, s.hostRead a n⟩ :: s.io.reads } }

/-- 20_memory.md R69, R70: a host write reads back in its writable bits, and nothing else changes. -/
def Obligations.HostWriteReadsBack : Prop :=
  ∀ (s : State) (addr : Nat) (v mask : Word) (h : List HostReq), s.params.wf = true →
    s.busy = false → s.io.host = .write addr 4 v :: h → writableBits addr = some mask →
    ∃ t, step s = .next t ∧ t.hostRead addr 4 = v &&& mask ∧
      (∀ a n, a ≠ addr → t.hostRead a n = s.hostRead a n) ∧
      t = { s with
        msg := t.msg, evt := none,
        io := { s.io with
          now := s.io.now + 1, rx := s.io.rx.next, host := h,
          pins := ⟨s.txd, s.en⟩ :: s.io.pins } }

/-- 20_memory.md R65; accesses wider than 4 bytes, of which it does not speak, are in
`ReadOnlyRegistersIgnoreWrites` (log 20). -/
def Obligations.BadAccessHasNoEffect : Prop :=
  ∀ (s : State) (a n : Nat) (h : List HostReq), s.params.wf = true →
    n < 4 ∨ n = 4 ∧ (a % 4 ≠ 0 ∨ 0x7FC < a) →
    (∀ v, s.io.host = .write a n v :: h →
      step s = .next { s with
        evt := none,
        io := { s.io with
          now := s.io.now + 1, rx := s.io.rx.next, host := h,
          pins := ⟨s.txd, s.en⟩ :: s.io.pins } }) ∧
    (s.io.host = .read a n :: h →
      step s = .next { s with
        evt := none,
        io := { s.io with
          now := s.io.now + 1, rx := s.io.rx.next, host := h,
          pins := ⟨s.txd, s.en⟩ :: s.io.pins, reads := ⟨s.io.now, 0⟩ :: s.io.reads } })

/-- 20_memory.md R70: a write of a read-only register or of a reserved offset changes nothing; and the
model's choice for an access wider than 4 bytes, of which the spec does not speak: it has no effect and
reads 0 (log 20). -/
def Obligations.ReadOnlyRegistersIgnoreWrites : Prop :=
  ∀ (s : State) (a n : Nat) (v : Word) (h : List HostReq), s.params.wf = true →
    (s.io.host = .write a n v :: h →
      n = 4 ∧ (a ∈ [0x004, 0x008, 0x00C, 0x010] ∨ 0x01C ≤ a ∧ a < 0x400) ∨ 4 < n →
      step s = .next { s with
        evt := none,
        io := { s.io with
          now := s.io.now + 1, rx := s.io.rx.next, host := h,
          pins := ⟨s.txd, s.en⟩ :: s.io.pins } }) ∧
    (s.io.host = .read a n :: h → 4 < n →
      step s = .next { s with
        evt := none,
        io := { s.io with
          now := s.io.now + 1, rx := s.io.rx.next, host := h,
          pins := ⟨s.txd, s.en⟩ :: s.io.pins, reads := ⟨s.io.now, 0⟩ :: s.io.reads } })

/-- 20_memory.md R71: the host sees `BUSY` = 1 and no valid result in every tick of a transmission. -/
def Obligations.StatusReadsBusyDuringTransmission : Prop :=
  ∀ (i : Instr) (s t : State) (w : List Level) (j : Nat), s.params.wf = true →
    transmitWave s.params i = some w → j < w.length → s.NoReset w.length →
    .wait ∉ s.io.host.take j → s.io.host[j]? = some (.read 0x004 4) → exec i s = .next t →
    ReadData.mk (s.io.now + .ofNat 64 j) (if s.en then 3 else 2) ∈ t.io.reads

/-- 20_memory.md R67, R71, R75: every read answered while an operation runs gives what the register held
when the command was accepted; so nothing of the operation is seen before it completes. -/
def Obligations.ReadsDuringAnOperation : Prop :=
  ∀ (i : Instr) (s t : State), exec i s = .next t →
    ∃ new, t.io.reads = new ++ s.io.reads ∧
      ∀ r ∈ new, (∃ k, r.tick = s.io.now + .ofNat 64 k ∧
          s.io.pins.length + k < t.io.pins.length) ∧
        ∃ a n, .read a n ∈ s.io.host ∧
          r.data = ({ s with busy := true, resValid := false, resOk := false } : State).hostRead a n

/-! ### Invariants -/

/-- What every step keeps, from every state that has it (`State.Inv` says why each part holds). -/
def Obligations.StepKeepsInvariant : Prop := ∀ s t : State, s.Inv → step s = .next t → t.Inv

/-- The invariant holds after reset, of every node with a legal profile. -/
def Obligations.ResetMeetsInvariant : Prop :=
  State.reset.Inv ∧ ∀ p : Params, p.wf = true → (State.resetOf p).Inv

/-! ### Several nodes -/

/-- 60_exceptions.md R229: the line is `Active` in a tick where one node at least drives it. That
`Active` dominates is R229's own decision, from general knowledge, and that a node drives its `TXD` in
a tick after the end of its record is the model's (log 18). -/
def Obligations.LineIsWiredOr : Prop :=
  ∀ (nodes : List State) (k : Nat),
    lineLevel nodes k = .active ↔ ∃ s ∈ nodes, s.txWave.getD k s.txd = .active
end

