-- ==== Sys2Proof/Laws/Line.lean ====
section
/-! SUPPORT. The line as an input: what its levels are, that it only repeats after its script, and that
every line is of this form up to any tick (00_scope.md R11; log 5). -/

namespace Sys2Proof.Machine

@[simp] theorem Line.after_zero (l : Line) : l.after 0 = l := rfl

theorem Line.after_succ (l : Line) (n : Nat) : l.after (n + 1) = l.next.after n := rfl

theorem Line.after_add (m n : Nat) : ∀ l : Line, (l.after m).after n = l.after (m + n) := by
  induction m with
  | zero => intro l; simp
  | succ m ih => intro l; rw [Line.after_succ, ih, Nat.succ_add_eq_add_succ, Nat.add_succ, Line.after_succ]

theorem Line.next_of_cons {l : Line} {x : Level} {s : List Level} (h : l.script = x :: s) :
    l.next = { l with script := s } := by
  obtain ⟨_, _, _⟩ := l
  cases h
  rfl

@[simp] theorem Line.next_more_length (l : Line) : l.next.more.length = l.more.length := by
  obtain ⟨s, x, m⟩ := l
  cases s <;> cases m <;> simp [Line.next]

@[simp] theorem Line.next_script (l : Line) : l.next.script = l.script.tail := by
  obtain ⟨s, x, m⟩ := l
  cases s <;> cases m <;> rfl

/-- The levels that repeat. -/
def Line.cycle (l : Line) : List Level := l.first :: l.more

theorem Line.ext_cycle {l m : Line} (hs : l.script = m.script) (hc : l.cycle = m.cycle) : l = m := by
  obtain ⟨_, _, _⟩ := l
  obtain ⟨_, _, _⟩ := m
  cases hs
  injection hc with h1 h2
  cases h1
  cases h2
  rfl

theorem Line.next_cycle {l : Line} (h : l.script = []) : l.next.cycle = l.cycle.rotate 1 := by
  obtain ⟨_, _, m⟩ := l
  cases h
  cases m <;> simp [Line.next, Line.cycle]

theorem Line.after_cycle (n : Nat) : ∀ {l : Line}, l.script = [] →
    (l.after n).script = [] ∧ (l.after n).cycle = l.cycle.rotate n := by
  induction n with
  | zero => exact fun h => ⟨h, by simp⟩
  | succ n ih =>
    intro l h
    obtain ⟨h1, h2⟩ := ih (l := l.next) (by simp [h])
    exact ⟨h1, by rw [Line.after_succ, h2, Line.next_cycle h, List.rotate_rotate, Nat.add_comm]⟩

theorem Line.after_script (n : Nat) : ∀ l : Line, (l.after n).script = l.script.drop n := by
  induction n with
  | zero => exact fun l => rfl
  | succ n ih =>
    intro l
    rw [Line.after_succ, ih, Line.next_script, List.drop_tail]

/-- Beyond its script the line repeats with the period of its cycle. -/
theorem Line.after_period {l : Line} {k : Nat} (h : l.script.length ≤ k) :
    l.after (k + (l.more.length + 1)) = l.after k := by
  have hs : (l.after k).script = [] := by rw [Line.after_script, List.drop_eq_nil_of_le h]
  have hm : (l.after k).more.length = l.more.length := by
    clear h hs
    induction k generalizing l with
    | zero => rfl
    | succ k ih => rw [Line.after_succ, ih, Line.next_more_length]
  obtain ⟨h1, h2⟩ := Line.after_cycle (l.more.length + 1) hs
  rw [← Line.after_add]
  refine Line.ext_cycle (h1.trans hs.symm) ?_
  rw [h2, show l.more.length + 1 = (l.after k).cycle.length by simp [Line.cycle, hm],
    List.rotate_length]

/-- A level that does not come within the horizon never comes (70_reset_and_hazards.md R254). -/
theorem Line.never {l : Line} {x : Level} (h : ∀ k, k < l.horizon → (l.after k).level ≠ x) (k : Nat) :
    (l.after k).level ≠ x := by
  induction k using Nat.strong_induction_on with
  | _ k ih =>
    by_cases hk : k < l.horizon
    · exact h k hk
    · unfold Line.horizon at hk
      have := ih (k - (l.more.length + 1)) (by omega)
      rwa [← Line.after_period (l := l) (k := k - (l.more.length + 1)) (by omega),
        Nat.sub_add_cancel (by omega)] at this

/-- The levels of the script, and the one level that may follow it. -/
theorem Line.level_after_rest (x : Level) (k : Nat) : ∀ s : List Level,
    ((⟨s, x, []⟩ : Line).after k).level = s.getD k x := by
  induction k with
  | zero => intro s; cases s <;> rfl
  | succ k ih =>
    intro s
    cases s with
    | nil => simpa [Line.after_succ, Line.next] using ih []
    | cons y s => simpa [Line.after_succ, Line.next] using ih s

/-- Any line at all, up to any tick (00_scope.md R11). -/
theorem Line.covers (rx : Nat → Level) (n : Nat) :
    ∃ l : Line, ∀ k, k < n → (l.after k).level = rx k := by
  refine ⟨⟨(List.range n).map rx, .inactive, []⟩, fun k hk => ?_⟩
  rw [Line.level_after_rest]
  simp [List.getD_eq_getElem?_getD, hk]

end Sys2Proof.Machine
end

