-- ==== Sys2Proof/Laws/State.lean ====
section
/-! SUPPORT. One lemma per field per named update of the state, true by rfl, so that no proof unfolds a
record update. -/

namespace Sys2Proof.Machine

variable (s : State)

@[simp] theorem State.accept_params : s.accept.params = s.params := rfl
@[simp] theorem State.accept_en : s.accept.en = s.en := rfl
@[simp] theorem State.accept_busy : s.accept.busy = true := rfl
@[simp] theorem State.accept_resValid : s.accept.resValid = false := rfl
@[simp] theorem State.accept_resOk : s.accept.resOk = false := rfl
@[simp] theorem State.accept_result : s.accept.result = s.result := rfl
@[simp] theorem State.accept_err : s.accept.err = s.err := rfl
@[simp] theorem State.accept_msg : s.accept.msg = s.msg := rfl
@[simp] theorem State.accept_work : s.accept.work = s.work := rfl
@[simp] theorem State.accept_seq : s.accept.seq = s.seq := rfl
@[simp] theorem State.accept_owed : s.accept.owed = s.owed := rfl
@[simp] theorem State.accept_hswait : s.accept.hswait = s.hswait := rfl
@[simp] theorem State.accept_txd : s.accept.txd = s.txd := rfl
@[simp] theorem State.accept_tS : s.accept.tS = s.tS := rfl
@[simp] theorem State.accept_t0 : s.accept.t0 = s.t0 := rfl
@[simp] theorem State.accept_shreg : s.accept.shreg = s.shreg := rfl
@[simp] theorem State.accept_evt : s.accept.evt = s.evt := rfl
@[simp] theorem State.accept_io : s.accept.io = s.io := rfl

@[simp] theorem State.complete_params (ok : Bool) (v : Half) : (s.complete ok v).params = s.params := rfl
@[simp] theorem State.complete_en (ok : Bool) (v : Half) : (s.complete ok v).en = s.en := rfl
@[simp] theorem State.complete_busy (ok : Bool) (v : Half) : (s.complete ok v).busy = false := rfl
@[simp] theorem State.complete_resValid (ok : Bool) (v : Half) : (s.complete ok v).resValid = true := rfl
@[simp] theorem State.complete_resOk (ok : Bool) (v : Half) : (s.complete ok v).resOk = ok := rfl
@[simp] theorem State.complete_result (ok : Bool) (v : Half) : (s.complete ok v).result = v := rfl
@[simp] theorem State.complete_err (ok : Bool) (v : Half) : (s.complete ok v).err = Err.clear := rfl
@[simp] theorem State.complete_msg (ok : Bool) (v : Half) : (s.complete ok v).msg = s.msg := rfl
@[simp] theorem State.complete_work (ok : Bool) (v : Half) : (s.complete ok v).work = s.work := rfl
@[simp] theorem State.complete_seq (ok : Bool) (v : Half) : (s.complete ok v).seq = { s.seq with state := .idle } := rfl
@[simp] theorem State.complete_owed (ok : Bool) (v : Half) : (s.complete ok v).owed = s.owed := rfl
@[simp] theorem State.complete_hswait (ok : Bool) (v : Half) : (s.complete ok v).hswait = s.hswait := rfl
@[simp] theorem State.complete_txd (ok : Bool) (v : Half) : (s.complete ok v).txd = s.txd := rfl
@[simp] theorem State.complete_tS (ok : Bool) (v : Half) : (s.complete ok v).tS = s.tS := rfl
@[simp] theorem State.complete_t0 (ok : Bool) (v : Half) : (s.complete ok v).t0 = s.t0 := rfl
@[simp] theorem State.complete_shreg (ok : Bool) (v : Half) : (s.complete ok v).shreg = s.shreg := rfl
@[simp] theorem State.complete_evt (ok : Bool) (v : Half) : (s.complete ok v).evt = s.evt := rfl
@[simp] theorem State.complete_io (ok : Bool) (v : Half) : (s.complete ok v).io = s.io := rfl

@[simp] theorem State.takeError_params (e : Err) : (s.takeError e).params = s.params := rfl
@[simp] theorem State.takeError_en (e : Err) : (s.takeError e).en = s.en := rfl
@[simp] theorem State.takeError_busy (e : Err) : (s.takeError e).busy = false := rfl
@[simp] theorem State.takeError_resValid (e : Err) : (s.takeError e).resValid = true := rfl
@[simp] theorem State.takeError_resOk (e : Err) : (s.takeError e).resOk = false := rfl
@[simp] theorem State.takeError_result (e : Err) : (s.takeError e).result = 0 := rfl
@[simp] theorem State.takeError_err (e : Err) : (s.takeError e).err = e := rfl
@[simp] theorem State.takeError_msg (e : Err) : (s.takeError e).msg = s.msg := rfl
@[simp] theorem State.takeError_work (e : Err) : (s.takeError e).work = s.work := rfl
@[simp] theorem State.takeError_seq (e : Err) : (s.takeError e).seq = { s.seq with state := .idle } := rfl
@[simp] theorem State.takeError_owed (e : Err) : (s.takeError e).owed = s.owed := rfl
@[simp] theorem State.takeError_hswait (e : Err) : (s.takeError e).hswait = s.hswait := rfl
@[simp] theorem State.takeError_txd (e : Err) : (s.takeError e).txd = s.txd := rfl
@[simp] theorem State.takeError_tS (e : Err) : (s.takeError e).tS = s.tS := rfl
@[simp] theorem State.takeError_t0 (e : Err) : (s.takeError e).t0 = s.t0 := rfl
@[simp] theorem State.takeError_shreg (e : Err) : (s.takeError e).shreg = s.shreg := rfl
@[simp] theorem State.takeError_evt (e : Err) : (s.takeError e).evt = some e.toBits := rfl
@[simp] theorem State.takeError_io (e : Err) : (s.takeError e).io = s.io := rfl

@[simp] theorem State.applyReset_params : s.applyReset.params = s.params := rfl
@[simp] theorem State.applyReset_en : s.applyReset.en = false := rfl
@[simp] theorem State.applyReset_busy : s.applyReset.busy = false := rfl
@[simp] theorem State.applyReset_resValid : s.applyReset.resValid = false := rfl
@[simp] theorem State.applyReset_resOk : s.applyReset.resOk = false := rfl
@[simp] theorem State.applyReset_result : s.applyReset.result = 0 := rfl
@[simp] theorem State.applyReset_err : s.applyReset.err = Err.clear := rfl
@[simp] theorem State.applyReset_msg : s.applyReset.msg = Message.zero := rfl
@[simp] theorem State.applyReset_work : s.applyReset.work = Message.zero := rfl
@[simp] theorem State.applyReset_seq : s.applyReset.seq = ⟨.idle, 0, 0⟩ := rfl
@[simp] theorem State.applyReset_owed : s.applyReset.owed = false := rfl
@[simp] theorem State.applyReset_hswait : s.applyReset.hswait = false := rfl
@[simp] theorem State.applyReset_txd : s.applyReset.txd = .inactive := rfl
@[simp] theorem State.applyReset_tS : s.applyReset.tS = 0 := rfl
@[simp] theorem State.applyReset_t0 : s.applyReset.t0 = 0 := rfl
@[simp] theorem State.applyReset_shreg : s.applyReset.shreg = 0 := rfl
@[simp] theorem State.applyReset_evt : s.applyReset.evt = none := rfl
@[simp] theorem State.applyReset_io : s.applyReset.io = s.io.pass s.busy ⟨.inactive, false⟩ := rfl

@[simp] theorem State.resetOf_params (p : Params) : (State.resetOf p).params = p := rfl
@[simp] theorem State.resetOf_en (p : Params) : (State.resetOf p).en = false := rfl
@[simp] theorem State.resetOf_busy (p : Params) : (State.resetOf p).busy = false := rfl
@[simp] theorem State.resetOf_resValid (p : Params) : (State.resetOf p).resValid = false := rfl
@[simp] theorem State.resetOf_resOk (p : Params) : (State.resetOf p).resOk = false := rfl
@[simp] theorem State.resetOf_result (p : Params) : (State.resetOf p).result = 0 := rfl
@[simp] theorem State.resetOf_err (p : Params) : (State.resetOf p).err = Err.clear := rfl
@[simp] theorem State.resetOf_msg (p : Params) : (State.resetOf p).msg = Message.zero := rfl
@[simp] theorem State.resetOf_work (p : Params) : (State.resetOf p).work = Message.zero := rfl
@[simp] theorem State.resetOf_seq (p : Params) : (State.resetOf p).seq = ⟨.idle, 0, 0⟩ := rfl
@[simp] theorem State.resetOf_owed (p : Params) : (State.resetOf p).owed = false := rfl
@[simp] theorem State.resetOf_hswait (p : Params) : (State.resetOf p).hswait = false := rfl
@[simp] theorem State.resetOf_txd (p : Params) : (State.resetOf p).txd = .inactive := rfl
@[simp] theorem State.resetOf_tS (p : Params) : (State.resetOf p).tS = 0 := rfl
@[simp] theorem State.resetOf_t0 (p : Params) : (State.resetOf p).t0 = 0 := rfl
@[simp] theorem State.resetOf_shreg (p : Params) : (State.resetOf p).shreg = 0 := rfl
@[simp] theorem State.resetOf_evt (p : Params) : (State.resetOf p).evt = none := rfl
@[simp] theorem State.resetOf_io (p : Params) : (State.resetOf p).io = Io.quiet := rfl

@[simp] theorem Io.pass_now (io : Io) (b : Bool) (p : Pins) : (io.pass b p).now = io.now + 1 := rfl
@[simp] theorem Io.pass_rx (io : Io) (b : Bool) (p : Pins) : (io.pass b p).rx = io.rx.next := rfl
@[simp] theorem Io.pass_host (io : Io) (b : Bool) (p : Pins) : (io.pass b p).host = hostAfter b io.host := rfl
@[simp] theorem Io.pass_pins (io : Io) (b : Bool) (p : Pins) : (io.pass b p).pins = p :: io.pins := rfl
@[simp] theorem Io.pass_reads (io : Io) (b : Bool) (p : Pins) : (io.pass b p).reads = io.reads := rfl

@[simp] theorem State.pass_evt : s.pass.evt = none := rfl
@[simp] theorem State.pass_io : s.pass.io = s.serve.io.pass s.busy ⟨s.txd, s.en⟩ := rfl

/-- The host's access of a tick reaches the message registers and the record of reads only. -/
theorem State.serve_eq :
    s.serve = { s with msg := s.serve.msg, io := { s.io with reads := s.serve.io.reads } } := by
  unfold State.serve State.hostWrite
  split <;> try rfl
  split <;> try rfl
  split <;> rfl

/-- While `BUSY` = 1 the host's access reaches the record of reads only (20_memory.md R69, R75). -/
theorem State.serve_of_busy (h : s.busy = true) :
    s.serve = { s with io := { s.io with reads := s.serve.io.reads } } := by
  unfold State.serve State.hostWrite
  split <;> first | rfl | rw [if_pos h]

/-- One tick while an operation runs: time passes, a log event ends, and nothing else changes. -/
theorem State.pass_of_busy (h : s.busy = true) :
    s.pass = { s with
      evt := none,
      io := { s.io with
        now := s.io.now + 1, rx := s.io.rx.next, host := hostAfter true s.io.host,
        pins := ⟨s.txd, s.en⟩ :: s.io.pins, reads := s.serve.io.reads } } := by
  unfold State.pass
  rw [s.serve_of_busy h]
  simp [Io.pass, h]

@[simp] theorem State.pass_params : s.pass.params = s.params := by
  unfold State.pass
  rw [s.serve_eq]
@[simp] theorem State.pass_en : s.pass.en = s.en := by
  unfold State.pass
  rw [s.serve_eq]
@[simp] theorem State.pass_busy : s.pass.busy = s.busy := by
  unfold State.pass
  rw [s.serve_eq]
@[simp] theorem State.pass_resValid : s.pass.resValid = s.resValid := by
  unfold State.pass
  rw [s.serve_eq]
@[simp] theorem State.pass_resOk : s.pass.resOk = s.resOk := by
  unfold State.pass
  rw [s.serve_eq]
@[simp] theorem State.pass_result : s.pass.result = s.result := by
  unfold State.pass
  rw [s.serve_eq]
@[simp] theorem State.pass_err : s.pass.err = s.err := by
  unfold State.pass
  rw [s.serve_eq]
@[simp] theorem State.pass_work : s.pass.work = s.work := by
  unfold State.pass
  rw [s.serve_eq]
@[simp] theorem State.pass_seq : s.pass.seq = s.seq := by
  unfold State.pass
  rw [s.serve_eq]
@[simp] theorem State.pass_owed : s.pass.owed = s.owed := by
  unfold State.pass
  rw [s.serve_eq]
@[simp] theorem State.pass_hswait : s.pass.hswait = s.hswait := by
  unfold State.pass
  rw [s.serve_eq]
@[simp] theorem State.pass_txd : s.pass.txd = s.txd := by
  unfold State.pass
  rw [s.serve_eq]
@[simp] theorem State.pass_tS : s.pass.tS = s.tS := by
  unfold State.pass
  rw [s.serve_eq]
@[simp] theorem State.pass_t0 : s.pass.t0 = s.t0 := by
  unfold State.pass
  rw [s.serve_eq]
@[simp] theorem State.pass_shreg : s.pass.shreg = s.shreg := by
  unfold State.pass
  rw [s.serve_eq]

end Sys2Proof.Machine
end

