-- ==== Sys2Proof/Laws/Engine.lean ====
section
/-! SUPPORT. How pieces of pseudocode compose, what the passing of ticks does, and the two ways to say
once what a piece can do: where it completes (`Spent`) and what it keeps (`Keeps`). -/

namespace Sys2Proof.Machine

/-! ### Composition -/

section
variable {α β : Type} (s : State)

@[simp] theorem engine_bind (x : Engine α) (f : α → Engine β) :
    (x >>= f) s = match x s with
      | .ok a t => f a t
      | .error e t => .error e t := by
  change EStateM.bind x f s = _
  unfold EStateM.bind
  cases x s <;> rfl

@[simp] theorem engine_map (x : Engine α) (f : α → β) :
    (f <$> x) s = match x s with
      | .ok a t => .ok (f a) t
      | .error e t => .error e t := by
  change EStateM.map f x s = _
  unfold EStateM.map
  cases x s <;> rfl

@[simp] theorem engine_pure (a : α) : (pure a : Engine α) s = .ok a s := rfl
@[simp] theorem engine_get : (get : Engine State) s = .ok s s := rfl
@[simp] theorem engine_modify (f : State → State) : (modify f : Engine Unit) s = .ok ⟨⟩ (f s) := rfl
@[simp] theorem engine_throw (e : Stop) : (throw e : Engine α) s = .error e s := rfl

theorem engine_bind_ok {x : Engine α} {f : α → Engine β} {s t : State} {a : α} (h : x s = .ok a t) :
    (x >>= f) s = f a t := by simp [h]

theorem engine_bind_error {x : Engine α} {f : α → Engine β} {s t : State} {e : Stop}
    (h : x s = .error e t) : (x >>= f) s = .error e t := by simp [h]

@[simp] theorem raise_apply (c : ErrCode) (f : ErrField) (i : Byte) :
    (raise c f i : Engine α) s = .error (.raised ⟨c, f, i⟩) s := rfl

@[simp] theorem hang_apply : (hang : Engine α) s = .error .hung s := rfl

theorem elapse_of_not_reset (h : s.resetNow = false) : elapse s = .ok () s.pass := by
  simp [elapse, State.tick, h]

theorem elapse_of_reset (h : s.resetNow = true) : elapse s = .error .reset s.applyReset := by
  simp [elapse, State.tick, h]

theorem sample_of_not_reset (h : s.resetNow = false) : sample s = .ok s.rxNow s.pass := by
  simp [sample, elapse_of_not_reset s h]

theorem sample_of_reset (h : s.resetNow = true) : sample s = .error .reset s.applyReset := by
  simp [sample, elapse_of_reset s h]

/-- Everything an operation can be to the host: its pseudocode's end decides (20_memory.md R71). -/
theorem operate_cases (body : Engine (Bool × Half)) {t : State} (h : operate body s = .next t) :
    (∃ r u, body s.accept = .ok r u ∧ t = u.complete r.1 r.2) ∨
    (∃ e u, body s.accept = .error (.raised e) u ∧ t = u.takeError e) ∨
    body s.accept = .error .reset t ∨ body s.accept = .error .hung t := by
  unfold operate at h
  split at h <;> rename_i hb <;> cases h
  · exact .inl ⟨_, _, hb, rfl⟩
  · exact .inr (.inl ⟨_, _, hb, rfl⟩)
  · exact .inr (.inr (.inl hb))
  · exact .inr (.inr (.inr hb))

/-- An operation always answers: with its completion, its error, or the state it never leaves. -/
theorem operate_answers (body : Engine (Bool × Half)) : ∃ t, operate body s = .next t := by
  unfold operate
  split <;> exact ⟨_, rfl⟩

theorem operate_of_ok {body : Engine (Bool × Half)} {s u : State} {r : Bool × Half}
    (h : body s.accept = .ok r u) : operate body s = .next (u.complete r.1 r.2) := by
  simp [operate, h]

theorem operate_of_raised {body : Engine (Bool × Half)} {s u : State} {e : Err}
    (h : body s.accept = .error (.raised e) u) : operate body s = .next (u.takeError e) := by
  simp [operate, h]

theorem operate_of_reset {body : Engine (Bool × Half)} {s u : State}
    (h : body s.accept = .error .reset u) : operate body s = .next u := by
  simp [operate, h]

theorem operate_of_hung {body : Engine (Bool × Half)} {s u : State}
    (h : body s.accept = .error .hung u) : operate body s = .next u := by
  simp [operate, h]

end

/-! ### The reports of an end -/

theorem complete_reports (s : State) (ok : Bool) (v : Half) :
    (s.complete ok v).Reports ok v Err.clear := ⟨rfl, rfl, rfl, rfl, rfl, rfl⟩

theorem takeError_failed (s : State) (c : ErrCode) (f : ErrField) (i : Byte) :
    (s.takeError ⟨c, f, i⟩).Failed c f i := ⟨⟨rfl, rfl, rfl, rfl, rfl, rfl⟩, rfl⟩

/-! ### Ticks -/

theorem rxNow_eq (s : State) : s.rxNow = s.rxAt 0 := rfl

theorem State.NoReset.mono {s : State} {m n : Nat} (h : s.NoReset n) (hm : m ≤ n) : s.NoReset m :=
  fun hr => h ((List.take_prefix_take_left hm).subset hr)

theorem State.NoReset.now {s : State} {n : Nat} (h : s.NoReset (n + 1)) : s.resetNow = false := by
  unfold State.NoReset at h
  unfold State.resetNow
  cases hh : s.io.host with
  | nil => rfl
  | cons r rs =>
    simp only [hh, List.take_succ_cons, List.mem_cons, not_or] at h
    simpa using fun hr => h.1 hr.symm

/-- From `s` to `t` only an operation in progress ran: `tx` showed `w`, and the requests still to come
are no others. -/
structure Spent (s t : State) (w : List Level) : Prop extends State.Ran s t w where
  busy : t.busy = s.busy
  quiet : ∀ n, s.NoReset (w.length + n) → t.NoReset n

theorem Spent.of_io {s t : State} (hp : t.params = s.params) (he : t.en = s.en)
    (hb : t.busy = s.busy) (hi : t.io = s.io) : Spent s t [] where
  params := hp
  en := he
  busy := hb
  now := by simp [hi]
  rx := by simp [hi]
  pins := by simp [hi]
  quiet := by
    intro n h
    simpa [State.NoReset, hi] using h

theorem Spent.refl (s : State) : Spent s s [] := .of_io rfl rfl rfl rfl

theorem Spent.trans {s t u : State} {w w' : List Level} (h : Spent s t w) (h' : Spent t u w') :
    Spent s u (w ++ w') where
  params := h'.params.trans h.params
  en := h'.en.trans h.en
  busy := h'.busy.trans h.busy
  now := by rw [h'.now, h.now, List.length_append, BitVec.ofNat_add, BitVec.add_assoc]
  rx := by rw [h'.rx, h.rx, Line.after_add, List.length_append]
  pins := by rw [h'.pins, h.pins, h.en]; simp
  quiet n hn := h'.quiet n (h.quiet _ (by rwa [List.length_append, Nat.add_assoc] at hn))

theorem Spent.rxAt {s t : State} {w : List Level} (h : Spent s t w) (k : Nat) :
    t.rxAt k = s.rxAt (w.length + k) := by
  rw [State.rxAt, h.rx, Line.after_add]
  rfl

theorem pass_spent {s : State} (hb : s.busy = true) : Spent s s.pass [s.txd] where
  params := by simp
  en := by simp
  busy := by simp
  now := by rw [s.pass_of_busy hb]; rfl
  rx := by rw [s.pass_of_busy hb]; rfl
  pins := by rw [s.pass_of_busy hb]; simp
  quiet n hn := by
    rw [s.pass_of_busy hb]
    simp only [State.NoReset, List.length_singleton] at hn ⊢
    rw [Nat.add_comm] at hn
    cases hh : s.io.host with
    | nil => simp [hostAfter]
    | cons r rs =>
      rw [hh] at hn
      have hrs : HostReq.reset ∉ rs.take n := fun hm => hn (by simp [hm])
      cases r with
      | wait =>
        cases n with
        | zero => simp
        | succ n =>
          simp only [hostAfter, if_true, List.take_succ_cons, List.mem_cons, not_or]
          exact ⟨by simp, fun hm => hrs ((List.take_prefix_take_left (Nat.le_succ n)).subset hm)⟩
      | idle => exact hrs
      | read _ _ => exact hrs
      | write _ _ _ => exact hrs
      | reset => exact hrs

/-- `delay` where no reset comes: `TXD` stands on the pin, and only time passes. -/
theorem delay_spec (n : Nat) : ∀ {s : State}, s.busy = true → s.NoReset n →
    ∃ t, delay n s = .ok () t ∧ Spent s t (List.replicate n s.txd) ∧
      t = { s with evt := if n = 0 then s.evt else none, io := t.io } := by
  induction n with
  | zero => exact fun {s} _ _ => ⟨s, rfl, .refl s, rfl⟩
  | succ n ih =>
    intro s hb hn
    have hs := pass_spent hb
    obtain ⟨t, ht, hst, hf⟩ :=
      ih (s := s.pass) (by simp [hb]) (hs.quiet n (by rw [Nat.add_comm] at hn; exact hn))
    refine ⟨t, ?_, ?_, ?_⟩
    · rw [delay, engine_bind_ok (elapse_of_not_reset s hn.now), ht]
    · have := hs.trans hst
      simpa [List.replicate_succ] using this
    · rw [hf, s.pass_of_busy hb]
      simp

/-- `Drive` where no reset comes (42_codec_transmit.md R140). -/
theorem drive_spec (l : Level) (n : Nat) {s : State} (hb : s.busy = true) (hn : s.NoReset n) :
    ∃ t, drive l n s = .ok () t ∧ Spent s t (List.replicate n l) ∧
      t = { s with
        txd := if n = 0 then s.txd else l, evt := if n = 0 then s.evt else none, io := t.io } := by
  by_cases h0 : n = 0
  · subst h0
    exact ⟨s, rfl, .refl s, by simp⟩
  · obtain ⟨t, ht, hst, hf⟩ := delay_spec n (s := { s with txd := l }) hb hn
    refine ⟨t, ?_, ?_, ?_⟩
    · simp [drive, h0, ht]
    · have := (Spent.of_io (s := s) (t := { s with txd := l }) rfl rfl rfl rfl).trans hst
      simpa using this
    · rw [hf]
      simp [h0]

/-! ### What a piece keeps -/

/-- `R` holds from the start of `m` to its end, and `Q` where the reset input ends it. -/
def Keeps {α : Type} (R Q : State → State → Prop) (m : Engine α) : Prop :=
  ∀ s, (∀ a t, m s = .ok a t → R s t) ∧ (∀ e t, m s = .error (.raised e) t → R s t) ∧
    (∀ t, m s = .error .hung t → R s t) ∧ ∀ t, m s = .error .reset t → Q s t

/-- Relations that compose along a run. -/
structure Along (R Q : State → State → Prop) : Prop where
  refl : ∀ s, R s s
  trans : ∀ s t u, R s t → R t u → R s u
  reset : ∀ s t u, R s t → Q t u → Q s u

/-- One tick keeps them too. -/
structure Ticks (R Q : State → State → Prop) : Prop extends Along R Q where
  pass : ∀ s, R s s.pass
  applyReset : ∀ s, Q s s.applyReset

section
variable {α β : Type} {R Q : State → State → Prop}

theorem keeps_ok {m : Engine α} {f : State → State} {g : State → α}
    (hm : ∀ s, m s = .ok (g s) (f s)) (hf : ∀ s, R s (f s)) : Keeps R Q m := by
  intro s
  rw [hm]
  refine ⟨fun a t h => ?_, fun e t h => ?_, fun t h => ?_, fun t h => ?_⟩ <;> cases h
  exact hf s

theorem keeps_pure (hR : Along R Q) (a : α) : Keeps R Q (pure a : Engine α) :=
  keeps_ok (f := id) (fun _ => rfl) hR.refl

theorem keeps_get (hR : Along R Q) : Keeps R Q (get : Engine State) :=
  keeps_ok (f := id) (fun _ => rfl) hR.refl

theorem keeps_modify {f : State → State} (hf : ∀ s, R s (f s)) :
    Keeps R Q (modify f : Engine Unit) :=
  keeps_ok (fun _ => rfl) hf

theorem keeps_raise (hR : Along R Q) (c : ErrCode) (f : ErrField) (i : Byte) :
    Keeps R Q (raise c f i : Engine α) := by
  intro s
  rw [raise_apply]
  refine ⟨fun a t h => ?_, fun e t h => ?_, fun t h => ?_, fun t h => ?_⟩ <;> cases h
  exact hR.refl s

theorem keeps_hang (hR : Along R Q) : Keeps R Q (hang : Engine α) := by
  intro s
  rw [hang_apply]
  refine ⟨fun a t h => ?_, fun e t h => ?_, fun t h => ?_, fun t h => ?_⟩ <;> cases h
  exact hR.refl s

theorem keeps_bind (hR : Along R Q) {x : Engine α} {f : α → Engine β} (hx : Keeps R Q x)
    (hf : ∀ a, Keeps R Q (f a)) : Keeps R Q (x >>= f) := by
  intro s
  obtain ⟨h1, h2, h3, h4⟩ := hx s
  cases hs : x s with
  | ok a t =>
    rw [engine_bind_ok hs]
    have hst := h1 a t hs
    obtain ⟨k1, k2, k3, k4⟩ := hf a t
    exact ⟨fun b u h => hR.trans _ _ _ hst (k1 b u h), fun e u h => hR.trans _ _ _ hst (k2 e u h),
      fun u h => hR.trans _ _ _ hst (k3 u h), fun u h => hR.reset _ _ _ hst (k4 u h)⟩
  | error e t =>
    rw [engine_bind_error hs]
    refine ⟨fun a t h => ?_, fun e t h => ?_, fun t h => ?_, fun t h => ?_⟩ <;> cases h
    · exact h2 _ _ hs
    · exact h3 _ hs
    · exact h4 _ hs

theorem keeps_ite {c : Prop} [Decidable c] {x y : Engine α} (hx : Keeps R Q x) (hy : Keeps R Q y) :
    Keeps R Q (if c then x else y) := by
  split
  · exact hx
  · exact hy

theorem keeps_onlyIf (hR : Along R Q) (c : Bool) {x : Engine Unit} (hx : Keeps R Q x) :
    Keeps R Q (onlyIf c x) := keeps_ite hx (keeps_pure hR _)

theorem keeps_elapse (hT : Ticks R Q) : Keeps R Q elapse := by
  intro s
  by_cases h : s.resetNow = true
  · rw [elapse_of_reset s h]
    refine ⟨fun a t h => ?_, fun e t h => ?_, fun t h => ?_, fun t h => ?_⟩ <;> cases h
    exact hT.applyReset s
  · rw [elapse_of_not_reset s (by simpa using h)]
    refine ⟨fun a t h => ?_, fun e t h => ?_, fun t h => ?_, fun t h => ?_⟩ <;> cases h
    exact hT.pass s

theorem keeps_sample (hT : Ticks R Q) : Keeps R Q sample :=
  keeps_bind hT.toAlong (keeps_get hT.toAlong) fun _ =>
    keeps_bind hT.toAlong (keeps_elapse hT) fun _ => keeps_pure hT.toAlong _

theorem keeps_delay (hT : Ticks R Q) (n : Nat) : Keeps R Q (delay n) := by
  induction n with
  | zero => exact keeps_pure hT.toAlong _
  | succ n ih => exact keeps_bind hT.toAlong (keeps_elapse hT) fun _ => ih

/-- What an operation keeps, from its start tick to its end. -/
theorem operate_keeps {body : Engine (Bool × Half)} (h : Keeps R Q body) {s t : State}
    (ht : operate body s = .next t) :
    (∃ (r : Bool × Half) (u : State), R s.accept u ∧ t = u.complete r.1 r.2) ∨
    (∃ e u, R s.accept u ∧ t = u.takeError e) ∨
    Q s.accept t ∨ R s.accept t := by
  obtain ⟨h1, h2, h3, h4⟩ := h s.accept
  rcases operate_cases s body ht with ⟨r, u, hb, he⟩ | ⟨e, u, hb, he⟩ | hb | hb
  · exact .inl ⟨r, u, h1 _ _ hb, he⟩
  · exact .inr (.inl ⟨e, u, h2 _ _ hb, he⟩)
  · exact .inr (.inr (.inl (h4 _ hb)))
  · exact .inr (.inr (.inr (h3 _ hb)))

end

end Sys2Proof.Machine
end

