-- ==== Sys2Proof/Laws/Codec.lean ====
section
/-! SUPPORT. What each sub-step of the Codec does, said once: where it completes, and what it keeps. -/

namespace Sys2Proof.Machine

/-! ### Deadlines, symbols and shifted values -/

theorem symbol_eq_iff (p : Params) (d : Nat) (b : Bool) : symbol p d = b ↔ IsSymbol p d b := by
  have h : (absDiff d p.tHigh0 ≤ absDiff d p.tHigh1) ↔
      |(d : Int) - p.tHigh0| ≤ |(d : Int) - p.tHigh1| := by
    unfold absDiff
    rcases abs_cases ((d : Int) - p.tHigh0) with h0 | h0 <;>
      rcases abs_cases ((d : Int) - p.tHigh1) with h1 | h1 <;> omega
  unfold symbol IsSymbol
  by_cases hc : absDiff d p.tHigh0 ≤ absDiff d p.tHigh1
  · rw [if_pos hc]
    have := h.mp hc
    cases b <;> simp [this]
  · rw [if_neg hc]
    have : ¬ _ := fun k => hc (h.mpr k)
    cases b <;> simp [this]

theorem isStart_iff (p : Params) (d : Nat) (hp : p.startTol ≤ p.tStartHigh) :
    isStart p d = true ↔ InStartWindow p d := by
  simp only [isStart, InStartWindow, Bool.and_eq_true, decide_eq_true_eq]
  omega

/-- The parts of the constraints of 00_scope.md R9 and R10. -/
theorem wf_iff (p : Params) : p.wf = true ↔
    0 < p.tStartHigh ∧ p.tStartHigh < p.tStartTotal ∧ p.tBit < p.tStartTotal ∧
    p.startTol ≤ p.tStartHigh ∧ p.tStartHigh - p.startTol ≤ 171 ∧
    171 ≤ p.tStartHigh + p.startTol ∧ p.tHigh0 < p.tBit ∧ p.tHigh1 < p.tBit ∧ 1 ≤ p.tHigh0 ∧
    1 ≤ p.tHigh1 ∧ p.tHigh0 ≠ p.tHigh1 ∧ p.waitExceeds (p.tStartHigh + p.startTol) = true := by
  simp [Params.wf, and_assoc]

theorem highOf_pos {p : Params} (hp : p.wf = true) (b : Bool) : 1 ≤ highOf p b := by
  have := (wf_iff p).mp hp
  cases b <;> simp [highOf] <;> omega

theorem highOf_lt {p : Params} (hp : p.wf = true) (b : Bool) : highOf p b < p.tBit := by
  have := (wf_iff p).mp hp
  cases b <;> simp [highOf] <;> omega

theorem bitWave_length {p : Params} (hp : p.wf = true) (b : Bool) : (bitWave p b).length = p.tBit := by
  have := highOf_lt hp b
  simp [bitWave]
  omega

theorem startWave_length {p : Params} (hp : p.wf = true) : (startWave p).length = p.tStartTotal := by
  have := (wf_iff p).mp hp
  simp [startWave]
  omega

theorem bitsWave_length {p : Params} (hp : p.wf = true) (bs : List Bool) :
    (bitsWave p bs).length = bs.length * p.tBit := by
  induction bs with
  | nil => simp [bitsWave]
  | cons b bs ih =>
    simp only [bitsWave, List.flatMap_cons, List.length_append] at ih ⊢
    rw [ih, bitWave_length hp, List.length_cons]
    ring

@[simp] theorem bitsOf_length (v : Half) (n : Nat) : (bitsOf v n).length = n := by simp [bitsOf]

theorem bitsOf_succ (v : Half) (n : Nat) : bitsOf v (n + 1) = v.getLsbD n :: bitsOf v n := by
  simp [bitsOf, List.range_succ]

theorem shiftIn_toNat (v : Half) (b : Bool) : (shiftIn v b).toNat = (2 * v.toNat + b.toNat) % 2 ^ 16 := by
  unfold shiftIn
  have h1 : (BitVec.setWidth 16 (BitVec.ofBool b)).toNat = b.toNat := by cases b <;> rfl
  rw [BitVec.toNat_or, BitVec.toNat_shiftLeft, h1]
  have h2 : v.toNat <<< 1 % 2 ^ 16 = 2 * (v.toNat % 2 ^ 15) := by
    rw [Nat.shiftLeft_eq]
    omega
  rw [h2]
  have h3 : 2 * (v.toNat % 2 ^ 15) ||| b.toNat = 2 * (v.toNat % 2 ^ 15) + b.toNat := by
    have := Nat.two_pow_add_eq_or_of_lt (i := 1) (b := b.toNat) (by cases b <;> decide)
      (v.toNat % 2 ^ 15)
    simpa using this.symm
  rw [h3]
  cases b <;> simp <;> omega

/-- A duration below 2^64 ticks is measured as it is (00_scope.md R11; log 6). -/
theorem ticksBetween_add (t : Tick) {a b : Nat} (h : b < 2 ^ 64) :
    ticksBetween (t + .ofNat 64 a) (t + .ofNat 64 (a + b)) = b := by
  have : t + BitVec.ofNat 64 (a + b) - (t + BitVec.ofNat 64 a) = BitVec.ofNat 64 b := by
    rw [BitVec.ofNat_add]
    ring
  rw [ticksBetween, this, BitVec.toNat_ofNat, Nat.mod_eq_of_lt h]

theorem ticksBetween_le (t : Tick) (b : Nat) : ticksBetween t (t + .ofNat 64 b) ≤ b := by
  rw [ticksBetween, BitVec.add_comm, BitVec.add_sub_cancel, BitVec.toNat_ofNat]
  exact Nat.mod_le _ _

/-- A deadline has not passed in `e` ticks if it is longer. -/
theorem not_expired {s : State} {max : Option Nat} {e : Nat} (hnow : s.io.now = s.tS + .ofNat 64 e)
    (h : ∀ m, max = some m → e < m) : s.expired max = false := by
  unfold State.expired
  cases max with
  | none => rfl
  | some m =>
    have h1 := h m rfl
    have h2 := ticksBetween_le s.tS e
    rw [← hnow] at h2
    simp
    omega

theorem expired_at {s : State} {m : Nat} (hnow : s.io.now = s.tS + .ofNat 64 m) (h : m < 2 ^ 64) :
    s.expired (some m) = true := by
  have := ticksBetween_add s.tS (a := 0) h
  simp only [BitVec.add_zero, Nat.zero_add] at this
  simp [State.expired, hnow, this]

/-! ### The transmit side -/

/-- `TxBit` where no reset comes (42_codec_transmit.md R142). -/
theorem txBit_spec (b : Bool) {s : State} (hp : s.params.wf = true) (hb : s.busy = true)
    (hn : s.NoReset s.params.tBit) :
    ∃ t, txBit b s = .ok () t ∧ Spent s t (bitWave s.params b) ∧
      t = { s with txd := .inactive, evt := none, io := t.io } := by
  have h1 := highOf_pos hp b
  have h2 := highOf_lt hp b
  obtain ⟨t, ht, hst, hf⟩ := drive_spec .active (highOf s.params b) hb (hn.mono h2.le)
  have hq : t.NoReset (s.params.tBit - highOf s.params b) :=
    hst.quiet _ (by rw [List.length_replicate, Nat.add_sub_cancel' h2.le]; exact hn)
  obtain ⟨u, hu, htu, hg⟩ := drive_spec .inactive (s.params.tBit - highOf s.params b)
    (hst.busy.trans hb) hq
  refine ⟨u, ?_, hst.trans htu, ?_⟩
  · simp [txBit, ht, hu]
  · rw [hg, hf]
    simp [show s.params.tBit - highOf s.params b ≠ 0 by omega]

/-- `TxStart` where no reset comes (42_codec_transmit.md R141). -/
theorem txStart_spec {s : State} (hp : s.params.wf = true) (hb : s.busy = true)
    (hn : s.NoReset s.params.tStartTotal) :
    ∃ t, txStart s = .ok () t ∧ Spent s t (startWave s.params) ∧
      t = { s with txd := .inactive, evt := none, io := t.io } := by
  have hw := (wf_iff s.params).mp hp
  obtain ⟨t, ht, hst, hf⟩ := drive_spec .active s.params.tStartHigh hb (hn.mono (by omega))
  have hq : t.NoReset (s.params.tStartTotal - s.params.tStartHigh) :=
    hst.quiet _ (by rw [List.length_replicate, Nat.add_sub_cancel' (by omega)]; exact hn)
  obtain ⟨u, hu, htu, hg⟩ := drive_spec .inactive (s.params.tStartTotal - s.params.tStartHigh)
    (hst.busy.trans hb) hq
  refine ⟨u, ?_, hst.trans htu, ?_⟩
  · simp [txStart, ht, hu]
  · rw [hg, hf]
    simp [show s.params.tStartTotal - s.params.tStartHigh ≠ 0 by omega]

/-- `SEQ.bit` is all that `setSeqBit` writes. -/
theorem setSeqBit_spec (n : Nat) (s : State) :
    ∃ t, setSeqBit n s = .ok () t ∧ Spent s t [] ∧ t = { s with seq := t.seq } ∧
      t.seq.state = s.seq.state ∧ t.seq.idx = s.seq.idx := by
  by_cases h : s.seq.state = .idle
  · exact ⟨s, by simp [setSeqBit, h], .refl s, rfl, rfl, rfl⟩
  · exact ⟨{ s with seq := { s.seq with bit := n } }, by simp [setSeqBit, h],
      Spent.of_io rfl rfl rfl rfl, rfl, rfl, rfl⟩

/-- The loop of `TxBits` where no reset comes (42_codec_transmit.md R143). -/
theorem txBitsLoop_spec (n : Nat) : ∀ {s : State}, s.params.wf = true → s.busy = true →
    s.NoReset (n * s.params.tBit) → s.txd = .inactive → s.evt = none →
    ∃ t, txBitsLoop n s = .ok () t ∧ Spent s t (bitsWave s.params (bitsOf s.shreg n)) ∧
      t = { s with seq := t.seq, io := t.io } ∧
      t.seq.state = s.seq.state ∧ t.seq.idx = s.seq.idx := by
  induction n with
  | zero => exact fun {s} _ _ _ _ _ => ⟨s, rfl, .refl s, rfl, rfl, rfl⟩
  | succ n ih =>
    intro s hp hb hn hx he
    rw [Nat.succ_mul] at hn
    obtain ⟨t, ht, hst, hf⟩ := txBit_spec (s.shreg.getLsbD n) hp hb (hn.mono (by omega))
    obtain ⟨u, hu, htu, hg, hgs, hgi⟩ := setSeqBit_spec n t
    have hsu := hst.trans htu
    have hpu : u.params = s.params := hsu.params
    have hushreg : u.shreg = s.shreg := by rw [hg, hf]
    obtain ⟨v, hv, huv, hk, hks, hki⟩ := ih (s := u) (by rw [hpu]; exact hp) (hsu.busy.trans hb)
      (hsu.quiet _ (by
        rw [List.append_nil, bitWave_length hp, hpu, Nat.add_comm]; exact hn))
      (by rw [hg, hf]) (by rw [hg, hf])
    refine ⟨v, ?_, ?_, ?_, ?_, ?_⟩
    · simp [txBitsLoop, ht, hu, hv]
    · have := hsu.trans huv
      rw [hpu, hushreg, List.append_nil] at this
      rw [bitsOf_succ]
      simpa [bitsWave] using this
    · have hs : s = { s with txd := .inactive, evt := none } := by rw [← hx, ← he]
      rw [hk, hg, hf]
      conv_rhs => rw [hs]
    · rw [hks, hgs, hf]
    · rw [hki, hgi, hf]

/-- `TxBits` where no reset comes, for at least one bit (42_codec_transmit.md R143). -/
theorem txBits_spec (v : Half) (n : Nat) (h1 : 1 ≤ n) {s : State} (hp : s.params.wf = true)
    (hb : s.busy = true) (hn : s.NoReset (n * s.params.tBit)) :
    ∃ t, txBits v n s = .ok () t ∧ Spent s t (bitsWave s.params (bitsOf v n)) ∧
      t = { s with shreg := v, txd := .inactive, evt := none, seq := t.seq, io := t.io } ∧
      t.seq.state = s.seq.state ∧ t.seq.idx = s.seq.idx := by
  obtain ⟨n, rfl⟩ : ∃ m, n = m + 1 := ⟨n - 1, by omega⟩
  obtain ⟨a, ha, hsa, hfa, hfs, hfi⟩ := setSeqBit_spec (n + 1) { s with shreg := v }
  have hsa' : Spent s a [] := by
    simpa using (Spent.of_io (s := s) (t := { s with shreg := v }) rfl rfl rfl rfl).trans hsa
  have hpa := hsa'.params
  rw [Nat.succ_mul] at hn
  obtain ⟨t, ht, hst, hf⟩ := txBit_spec (a.shreg.getLsbD n) (s := a) (by rw [hpa]; exact hp)
    (hsa'.busy.trans hb) (hsa'.quiet _ (by rw [hpa]; exact hn.mono (by simp)))
  obtain ⟨u, hu, htu, hg, hgs, hgi⟩ := setSeqBit_spec n t
  have hsu := (hsa'.trans hst).trans htu
  have hpu : u.params = s.params := hsu.params
  have hush : u.shreg = v := by rw [hg, hf, hfa]
  have hash : a.shreg = v := by rw [hfa]
  obtain ⟨w, hw, huw, hk, hks, hki⟩ := txBitsLoop_spec n (s := u) (by rw [hpu]; exact hp)
    (hsu.busy.trans hb)
    (hsu.quiet _ (by
      rw [List.append_nil, List.nil_append, hpa, bitWave_length hp, hpu, Nat.add_comm]; exact hn))
    (by rw [hg, hf]) (by rw [hg, hf])
  refine ⟨w, ?_, ?_, ?_, ?_, ?_⟩
  · simp only [txBits, engine_bind, engine_modify]
    rw [ha]
    simp [txBitsLoop, ht, hu, hw]
  · have := hsu.trans huw
    rw [hpu, hush, List.append_nil, List.nil_append, hpa, hash] at this
    rw [bitsOf_succ]
    simpa [bitsWave] using this
  · rw [hk, hg, hf, hfa]
  · rw [hks, hgs, hf, hfs]
  · rw [hki, hgi, hf, hfi]

/-! ### The receive side -/

/-- The loop of `WaitLevel` finds its level after `g` other samples, within the deadline; `e` ticks have
passed since `T_S` (41_codec_receive.md R120). -/
theorem waitLoop_found (l : Level) (pl : Place) (g : Nat) : ∀ (k e : Nat) {s : State},
    s.busy = true → s.NoReset (g + 1) → (∀ j, j < g → s.rxAt j ≠ l) → s.rxAt g = l → g < k →
    s.io.now = s.tS + .ofNat 64 e → Within s.params.tWaitMax (e + g + 1) →
    ∃ t, waitLoop l pl k s = .ok (s.io.now + .ofNat 64 g) t ∧
      Spent s t (List.replicate (g + 1) s.txd) ∧ t = { s with evt := none, io := t.io } := by
  induction g with
  | zero =>
    intro k e s hb hn _ hg hk hts hw
    obtain ⟨k, rfl⟩ : ∃ m, k = m + 1 := ⟨k - 1, by omega⟩
    have he : s.expired s.params.tWaitMax = false :=
      not_expired hts fun m hm => by have := hw m hm; omega
    refine ⟨s.pass, ?_, by simpa using pass_spent hb, ?_⟩
    · simp [waitLoop, he, sample_of_not_reset s hn.now, rxNow_eq, hg]
    · rw [s.pass_of_busy hb]
  | succ g ih =>
    intro k e s hb hn hj hg hk hts hw
    obtain ⟨k, rfl⟩ : ∃ m, k = m + 1 := ⟨k - 1, by omega⟩
    have he : s.expired s.params.tWaitMax = false :=
      not_expired hts fun m hm => by have := hw m hm; omega
    have hs := pass_spent hb
    have hnow : s.pass.io.now = s.io.now + .ofNat 64 1 := hs.now
    have htS : s.pass.tS = s.tS := by simp
    obtain ⟨t, ht, hst, hf⟩ := ih k (e + 1) (s := s.pass) (hs.busy.trans hb)
      (hs.quiet _ (by simpa [Nat.add_comm] using hn))
      (fun j hlt => by
        rw [hs.rxAt, List.length_singleton, Nat.add_comm]
        exact hj _ (by omega))
      (by rw [hs.rxAt, List.length_singleton, Nat.add_comm]; exact hg)
      (by omega) (by rw [hnow, htS, hts, BitVec.add_assoc, ← BitVec.ofNat_add])
      (by rw [hs.params]; intro m hm; have := hw m hm; omega)
    refine ⟨t, ?_, ?_, ?_⟩
    · have h0 : ¬ s.rxNow = l := by rw [rxNow_eq]; exact hj 0 (by omega)
      simp only [waitLoop, engine_bind, engine_get, he, Bool.false_eq_true, if_false,
        sample_of_not_reset s hn.now, h0]
      rw [ht, hnow, BitVec.add_assoc, ← BitVec.ofNat_add, Nat.add_comm 1]
    · simpa [List.replicate_succ] using hs.trans hst
    · rw [hf, s.pass_of_busy hb]

/-- The loop of `WaitLevel` meets its deadline: `g` more samples are left in it and none is the level
(41_codec_receive.md R120). -/
theorem waitLoop_timeout (l : Level) (pl : Place) (g : Nat) : ∀ (k e : Nat) {s : State},
    s.busy = true → s.NoReset g → (∀ j, j < g → s.rxAt j ≠ l) → g < k →
    s.io.now = s.tS + .ofNat 64 e → s.params.tWaitMax = some (e + g) → e + g < 2 ^ 64 →
    ∃ t, waitLoop l pl k s = .error (.raised ⟨.timeout, pl.field, pl.index⟩) t ∧
      Spent s t (List.replicate g s.txd) ∧
      t = { s with evt := if g = 0 then s.evt else none, io := t.io } := by
  induction g with
  | zero =>
    intro k e s hb hn _ hk hts hw hlt
    obtain ⟨k, rfl⟩ : ∃ m, k = m + 1 := ⟨k - 1, by omega⟩
    refine ⟨s, ?_, .refl s, by simp⟩
    have he : s.expired s.params.tWaitMax = true := by rw [hw]; exact expired_at hts hlt
    simp [waitLoop, he]
  | succ g ih =>
    intro k e s hb hn hj hk hts hw hlt
    obtain ⟨k, rfl⟩ : ∃ m, k = m + 1 := ⟨k - 1, by omega⟩
    have he : s.expired s.params.tWaitMax = false :=
      not_expired hts fun m hm => by rw [hw] at hm; cases hm; omega
    have hs := pass_spent hb
    have hnow : s.pass.io.now = s.io.now + .ofNat 64 1 := hs.now
    have htS : s.pass.tS = s.tS := by simp
    obtain ⟨t, ht, hst, hf⟩ := ih k (e + 1) (s := s.pass) (hs.busy.trans hb)
      (hs.quiet _ (by simpa [Nat.add_comm] using hn))
      (fun j hlt => by
        rw [hs.rxAt, List.length_singleton, Nat.add_comm]
        exact hj _ (by omega))
      (by omega) (by rw [hnow, htS, hts, BitVec.add_assoc, ← BitVec.ofNat_add])
      (by rw [hs.params, hw]; congr 1; omega) (by omega)
    refine ⟨t, ?_, ?_, ?_⟩
    · have h0 : ¬ s.rxNow = l := by rw [rxNow_eq]; exact hj 0 (by omega)
      simp only [waitLoop, engine_bind, engine_get, he, Bool.false_eq_true, if_false,
        sample_of_not_reset s hn.now, h0]
      rw [ht]
    · simpa [List.replicate_succ] using hs.trans hst
    · rw [hf, s.pass_of_busy hb]
      simp

/-- The loop of `WaitLevel` without a deadline, on a line without the level, uses up its turns
(70_reset_and_hazards.md R254). -/
theorem waitLoop_hung (l : Level) (pl : Place) (k : Nat) : ∀ {s : State}, s.busy = true →
    s.NoReset k → (∀ j, j < k → s.rxAt j ≠ l) → s.params.tWaitMax = none →
    ∃ t, waitLoop l pl k s = .error .hung t ∧ Spent s t (List.replicate k s.txd) ∧
      t = { s with evt := if k = 0 then s.evt else none, io := t.io } := by
  induction k with
  | zero => exact fun {s} _ _ _ _ => ⟨s, rfl, .refl s, rfl⟩
  | succ k ih =>
    intro s hb hn hj hw
    have he : s.expired s.params.tWaitMax = false := by rw [hw]; rfl
    have hs := pass_spent hb
    obtain ⟨t, ht, hst, hf⟩ := ih (s := s.pass) (hs.busy.trans hb)
      (hs.quiet _ (by simpa [Nat.add_comm] using hn))
      (fun j hlt => by
        rw [hs.rxAt, List.length_singleton, Nat.add_comm]
        exact hj _ (by omega))
      (by rw [hs.params]; exact hw)
    refine ⟨t, ?_, ?_, ?_⟩
    · have h0 : ¬ s.rxNow = l := by rw [rxNow_eq]; exact hj 0 (by omega)
      simp only [waitLoop, engine_bind, engine_get, he, Bool.false_eq_true, if_false,
        sample_of_not_reset s hn.now, h0]
      rw [ht]
    · simpa [List.replicate_succ] using hs.trans hst
    · rw [hf, s.pass_of_busy hb]
      simp

/-- A wait may turn as often as the line's horizon and its deadline ask. -/
theorem horizon_lt_turns (s : State) (max : Option Nat) : s.io.rx.horizon < s.turns max := by
  unfold State.turns
  omega

theorem deadline_lt_turns (s : State) {max : Option Nat} {m : Nat} (h : max = some m) :
    m < s.turns max := by
  simp [State.turns, h]

/-- The first sample at a level lies within the line's horizon. -/
theorem first_lt_horizon {l : Level} {g : Nat} {s : State} (hj : ∀ j, j < g → s.rxAt j ≠ l)
    (hg : s.rxAt g = l) : g < s.io.rx.horizon := by
  by_contra hc
  exact Line.never (fun k hk => hj k (by omega)) g hg

/-- `WaitLevel` finds its level (41_codec_receive.md R120). -/
theorem waitLevel_found (l : Level) (pl : Place) (g : Nat) {s : State} (hb : s.busy = true)
    (hn : s.NoReset (g + 1)) (hj : ∀ j, j < g → s.rxAt j ≠ l) (hg : s.rxAt g = l)
    (hw : Within s.params.tWaitMax (g + 1)) :
    ∃ t, waitLevel l pl s = .ok (s.io.now + .ofNat 64 g) t ∧
      Spent s t (List.replicate (g + 1) s.txd) ∧
      t = { s with tS := s.io.now, evt := none, io := t.io } := by
  obtain ⟨t, ht, hst, hf⟩ := waitLoop_found l pl g (s.turns s.params.tWaitMax) 0
    (s := { s with tS := s.io.now }) hb hn hj hg
    ((first_lt_horizon hj hg).trans (horizon_lt_turns _ _)) (by simp)
    (by intro m hm; have := hw m hm; omega)
  refine ⟨t, ?_, ?_, ?_⟩
  · simp only [waitLevel, markWait, engine_bind, engine_modify, engine_get]
    exact ht
  · simpa using
      (Spent.of_io (s := s) (t := { s with tS := s.io.now }) rfl rfl rfl rfl).trans hst
  · rw [hf]

/-- `WaitLevel` meets its deadline (41_codec_receive.md R120). -/
theorem waitLevel_timeout (l : Level) (pl : Place) (m : Nat) {s : State} (hb : s.busy = true)
    (hn : s.NoReset m) (hj : ∀ j, j < m → s.rxAt j ≠ l) (hw : s.params.tWaitMax = some m)
    (hm : m < 2 ^ 64) :
    ∃ t, waitLevel l pl s = .error (.raised ⟨.timeout, pl.field, pl.index⟩) t ∧
      Spent s t (List.replicate m s.txd) ∧
      t = { s with tS := s.io.now, evt := if m = 0 then s.evt else none, io := t.io } := by
  obtain ⟨t, ht, hst, hf⟩ := waitLoop_timeout l pl m (s.turns s.params.tWaitMax) 0
    (s := { s with tS := s.io.now }) hb hn hj (deadline_lt_turns s hw) (by simp)
    (by simpa using hw) (by omega)
  refine ⟨t, ?_, ?_, ?_⟩
  · simp only [waitLevel, markWait, engine_bind, engine_modify, engine_get]
    exact ht
  · simpa using
      (Spent.of_io (s := s) (t := { s with tS := s.io.now }) rfl rfl rfl rfl).trans hst
  · rw [hf]

/-- `WaitLevel` without a deadline, on a line that never shows its level, never ends; what is left of
the line has no script any more (70_reset_and_hazards.md R254). -/
theorem waitLevel_hung (l : Level) (pl : Place) {s : State} (hb : s.busy = true)
    (hn : ∀ n, s.NoReset n) (hj : ∀ j, s.rxAt j ≠ l) (hw : s.params.tWaitMax = none) :
    ∃ t n, waitLevel l pl s = .error .hung t ∧ Spent s t (List.replicate n s.txd) ∧
      t = { s with tS := s.io.now, evt := none, io := t.io } ∧ t.io.rx.script = [] := by
  obtain ⟨t, ht, hst, hf⟩ := waitLoop_hung l pl (s.turns s.params.tWaitMax)
    (s := { s with tS := s.io.now }) hb (hn _) (fun j _ => hj j) hw
  have hpos := horizon_lt_turns s s.params.tWaitMax
  refine ⟨t, s.turns s.params.tWaitMax, ?_, ?_, ?_, ?_⟩
  · simp only [waitLevel, markWait, engine_bind, engine_modify, engine_get]
    exact ht
  · simpa using
      (Spent.of_io (s := s) (t := { s with tS := s.io.now }) rfl rfl rfl rfl).trans hst
  · rw [hf, if_neg (by omega)]
  · rw [hst.rx, Line.after_script, List.length_replicate]
    unfold Line.horizon at hpos
    exact List.drop_eq_nil_of_le (by simp only; omega)

/-- A pulse seen from a later start. -/
theorem PulseAt.shift {p : Params} {s t : State} {w : List Level} {o g H : Nat}
    (h : PulseAt p s.rxAt o g H) (hst : Spent s t w) (ho : w.length = o) :
    PulseAt p t.rxAt 0 g H where
  gap k hk := by rw [hst.rxAt, ho, Nat.zero_add]; exact h.gap k hk
  active k hk := by
    rw [hst.rxAt, ho, Nat.zero_add, ← Nat.add_assoc]; exact h.active k hk
  stop := by rw [hst.rxAt, ho, Nat.zero_add, ← Nat.add_assoc]; exact h.stop
  pos := h.pos
  startInTime := h.startInTime
  stopInTime := h.stopInTime
  clock := h.clock

/-- `RxPulse` measures a pulse in full (41_codec_receive.md R121). -/
theorem rxPulse_spec (pl : Place) {g H : Nat} {s : State} (hb : s.busy = true)
    (hp : PulseAt s.params s.rxAt 0 g H) (hn : s.NoReset (g + H + 1)) :
    ∃ t, rxPulse pl s = .ok H t ∧ Spent s t (List.replicate (g + H + 1) s.txd) ∧
      t = { s with t0 := s.io.now + .ofNat 64 g, tS := s.io.now + .ofNat 64 (g + 1), evt := none, io := t.io } := by
  have hpos := hp.pos
  obtain ⟨t, ht, hst, hf⟩ := waitLevel_found .active pl g hb (hn.mono (by omega))
    (fun j hj => by
      have := hp.gap j hj
      rw [Nat.zero_add] at this
      simp [this])
    (by simpa using hp.active 0 hp.pos) hp.startInTime
  have hnow : t.io.now = s.io.now + .ofNat 64 (g + 1) := by simpa using hst.now
  have htx : t.txd = s.txd := by rw [hf]
  have hsu : Spent s { t with t0 := s.io.now + .ofNat 64 g } (List.replicate (g + 1) s.txd) := by
    simpa using hst.trans
      (Spent.of_io (s := t) (t := { t with t0 := s.io.now + .ofNat 64 g }) rfl rfl rfl rfl)
  have hrx : ∀ j, ({ t with t0 := s.io.now + .ofNat 64 g } : State).rxAt j = s.rxAt (g + 1 + j) := by
    intro j
    rw [hsu.rxAt, List.length_replicate]
  obtain ⟨u, hu, htu, hg⟩ := waitLevel_found .inactive pl (H - 1)
    (s := { t with t0 := s.io.now + .ofNat 64 g }) (hst.busy.trans hb)
    (hsu.quiet _ (hn.mono (by rw [List.length_replicate]; omega)))
    (fun j hj => by
      rw [hrx, show g + 1 + j = 0 + g + (1 + j) by omega, hp.active _ (by omega)]
      simp)
    (by rw [hrx, show g + 1 + (H - 1) = 0 + g + H by omega]; exact hp.stop)
    (by
      change Within t.params.tWaitMax _
      rw [hst.params, Nat.sub_add_cancel hp.pos]
      exact hp.stopInTime)
  have hut0 : u.t0 = s.io.now + .ofNat 64 g := by rw [hg]
  refine ⟨u, ?_, ?_, ?_⟩
  · simp only [rxPulse, engine_bind, ht, engine_modify]
    rw [hu]
    simp only [engine_get, engine_pure, hut0, hnow, BitVec.add_assoc, ← BitVec.ofNat_add]
    rw [show g + 1 + (H - 1) = g + H by omega, ticksBetween_add _ hp.clock]
  · have h := hsu.trans htu
    have e : ({ t with t0 := s.io.now + .ofNat 64 g } : State).txd = s.txd := htx
    rw [e, List.replicate_append_replicate] at h
    rwa [show g + 1 + (H - 1 + 1) = g + H + 1 by omega] at h
  · rw [hg, hf]
    simp [hnow]

/-- `RxPulse` never ends where no pulse comes, or one comes and does not end, and there is no deadline
(70_reset_and_hazards.md R254). -/
theorem rxPulse_hung (pl : Place) {s : State} (hb : s.busy = true) (hn : ∀ n, s.NoReset n)
    (he : EndlessAt s.params s.rxAt 0) :
    ∃ t n, rxPulse pl s = .error .hung t ∧ Spent s t (List.replicate n s.txd) ∧
      t = { s with t0 := t.t0, tS := t.tS, evt := none, io := t.io } ∧ t.io.rx.script = [] := by
  obtain ⟨hw, hno | ⟨g, hgap, hact⟩⟩ := he
  · obtain ⟨t, n, ht, hst, hf, hs⟩ := waitLevel_hung .active pl hb hn
      (fun j => by have := hno j; rw [Nat.zero_add] at this; simp [this]) hw
    exact ⟨t, n, by simp [rxPulse, ht], hst, by rw [hf], hs⟩
  · obtain ⟨t, ht, hst, hf⟩ := waitLevel_found .active pl g hb (hn _)
      (fun j hj => by have := hgap j hj; rw [Nat.zero_add] at this; simp [this])
      (by simpa using hact 0) (fun m hm => by rw [hw] at hm; cases hm)
    have htx : t.txd = s.txd := by rw [hf]
    have hsu : Spent s { t with t0 := s.io.now + .ofNat 64 g } (List.replicate (g + 1) s.txd) := by
      simpa using hst.trans
        (Spent.of_io (s := t) (t := { t with t0 := s.io.now + .ofNat 64 g }) rfl rfl rfl rfl)
    obtain ⟨u, n, hu, htu, hg, hs⟩ := waitLevel_hung .inactive pl
      (s := { t with t0 := s.io.now + .ofNat 64 g }) (hst.busy.trans hb)
      (fun n => hsu.quiet _ (hn _))
      (fun j => by
        rw [hsu.rxAt, List.length_replicate, show g + 1 + j = 0 + g + (1 + j) by omega, hact]
        simp)
      (by change t.params.tWaitMax = none; rw [hst.params]; exact hw)
    refine ⟨u, g + 1 + n, ?_, ?_, ?_, hs⟩
    · simp [rxPulse, ht, hu]
    · have h := hsu.trans htu
      have e : ({ t with t0 := s.io.now + .ofNat 64 g } : State).txd = s.txd := htx
      rwa [e, List.replicate_append_replicate] at h
    · rw [hg, hf]

/-- `RxBit` reads the symbol of a pulse (41_codec_receive.md R125). -/
theorem rxBit_spec (pl : Place) {g H : Nat} {s : State} (hb : s.busy = true)
    (hp : PulseAt s.params s.rxAt 0 g H) (hn : s.NoReset (g + H + 1)) :
    ∃ t, rxBit pl s = .ok (symbol s.params H) t ∧
      Spent s t (List.replicate (g + H + 1) s.txd) ∧
      t = { s with t0 := s.io.now + .ofNat 64 g, tS := s.io.now + .ofNat 64 (g + 1), evt := none, io := t.io } := by
  obtain ⟨t, ht, hst, hf⟩ := rxPulse_spec pl hb hp hn
  refine ⟨t, ?_, hst, hf⟩
  simp [rxBit, ht, hst.params]

theorem BitAt.shift {p : Params} {s t : State} {w : List Level} {b : Bool} {o n : Nat}
    (h : BitAt p s.rxAt b o n) (hst : Spent s t w) (ho : w.length = o) : BitAt p t.rxAt b 0 n := by
  obtain ⟨g, H, hp, hs, hn⟩ := h
  exact ⟨g, H, hp.shift hst ho, hs, hn⟩

/-- `RxBit` reads a bit that is on the line. -/
theorem rxBit_of_bitAt (pl : Place) {b : Bool} {n : Nat} {s : State} (hb : s.busy = true)
    (hp : BitAt s.params s.rxAt b 0 n) (hn : s.NoReset n) :
    ∃ t, rxBit pl s = .ok b t ∧ Spent s t (List.replicate n s.txd) ∧
      t = { s with t0 := t.t0, tS := t.tS, evt := none, io := t.io } := by
  obtain ⟨g, H, hpu, hs, rfl⟩ := hp
  obtain ⟨t, ht, hst, hf⟩ := rxBit_spec pl hb hpu hn
  rw [(symbol_eq_iff _ _ _).mpr hs] at ht
  exact ⟨t, ht, hst, by rw [hf]⟩

/-- Bits seen from a later start. -/
theorem BitsAt.shift {p : Params} {s t : State} {w : List Level} (hst : Spent s t w)
    (bs : List Bool) : ∀ {o n : Nat}, BitsAt p s.rxAt bs (w.length + o) n →
    BitsAt p t.rxAt bs o n := by
  induction bs with
  | nil => exact fun h => h
  | cons b bs ih =>
    rintro o n ⟨x, y, ⟨g, H, hp, hs, hx⟩, hys, rfl⟩
    refine ⟨x, y, ⟨g, H, ?_, hs, hx⟩, ih (by rwa [Nat.add_assoc] at hys), rfl⟩
    exact
      { gap := fun j hj => by rw [hst.rxAt, ← Nat.add_assoc]; exact hp.gap j hj
        active := fun j hj => by
          rw [hst.rxAt, ← Nat.add_assoc, ← Nat.add_assoc]; exact hp.active j hj
        stop := by rw [hst.rxAt, ← Nat.add_assoc, ← Nat.add_assoc]; exact hp.stop
        pos := hp.pos
        startInTime := hp.startInTime
        stopInTime := hp.stopInTime
        clock := hp.clock }

/-- The value of `SHREG` after the bits `bs`, first bit first (30_encoding.md R87). -/
def shifted (v : Half) (bs : List Bool) : Half := bs.foldl shiftIn v

/-- Bits on the line are read by `RxBits`' loop in `n` ticks (41_codec_receive.md R126). -/
theorem rxBitsLoop_spec (pl : Place) (bs : List Bool) : ∀ {n : Nat} {s : State}, s.busy = true →
    BitsAt s.params s.rxAt bs 0 n → s.NoReset n →
    ∃ t, rxBitsLoop pl bs.length s = .ok () t ∧ Spent s t (List.replicate n s.txd) ∧
      t = { s with
        t0 := t.t0, tS := t.tS, shreg := shifted s.shreg bs, seq := t.seq,
        evt := if bs = [] then s.evt else none, io := t.io } ∧
      t.seq.state = s.seq.state ∧ t.seq.idx = s.seq.idx := by
  induction bs with
  | nil =>
    intro n s _ h _
    cases h
    exact ⟨s, rfl, .refl s, rfl, rfl, rfl⟩
  | cons b bs ih =>
    intro n s hb h hn
    obtain ⟨k, m, hbit, hbits, rfl⟩ := h
    obtain ⟨t, ht, hst, hf⟩ := rxBit_of_bitAt pl hb hbit (hn.mono (by omega))
    obtain ⟨u, hu, htu, hg, hgs, hgi⟩ :=
      setSeqBit_spec bs.length { t with shreg := shiftIn t.shreg b }
    have hsu : Spent s u (List.replicate k s.txd) := by
      have := (hst.trans (Spent.of_io (s := t) (t := { t with shreg := shiftIn t.shreg b })
        rfl rfl rfl rfl)).trans htu
      simpa using this
    have hshift : BitsAt u.params u.rxAt bs 0 m := by
      rw [hsu.params]
      exact BitsAt.shift hsu bs (by simpa using hbits)
    obtain ⟨v, hv, huv, hk, hks, hki⟩ := ih (hsu.busy.trans hb) hshift
      (hsu.quiet _ (by rw [List.length_replicate]; exact hn))
    have hush : u.shreg = shiftIn s.shreg b := by rw [hg, hf]
    have hutx : u.txd = s.txd := by rw [hg, hf]
    have huev : u.evt = none := by rw [hg, hf]
    refine ⟨v, ?_, ?_, ?_, ?_, ?_⟩
    · simp only [rxBitsLoop, List.length_cons, engine_bind, ht, engine_modify]
      rw [hu]
      simpa using hv
    · have := hsu.trans huv
      rwa [hutx, List.replicate_append_replicate] at this
    · rw [hk, hush, huev, hg, hf]
      simp [shifted]
    · rw [hks, hgs, hf]
    · rw [hki, hgi, hf]

/-- `RxBits` reads bits that are on the line (41_codec_receive.md R126). -/
theorem rxBits_spec (pl : Place) (bs : List Bool) {n : Nat} {s : State} (hb : s.busy = true)
    (hbs : BitsAt s.params s.rxAt bs 0 n) (hn : s.NoReset n) :
    ∃ t, rxBits bs.length pl s = .ok (lowBits (shifted 0 bs) bs.length) t ∧
      Spent s t (List.replicate n s.txd) ∧
      t = { s with
        t0 := t.t0, tS := t.tS, shreg := shifted 0 bs, seq := t.seq,
        evt := if bs = [] then s.evt else none, io := t.io } ∧
      t.seq.state = s.seq.state ∧ t.seq.idx = s.seq.idx := by
  obtain ⟨a, ha, hsa, hfa, hfs, hfi⟩ := setSeqBit_spec bs.length { s with shreg := 0 }
  have hsa' : Spent s a [] := by
    simpa using (Spent.of_io (s := s) (t := { s with shreg := 0 }) rfl rfl rfl rfl).trans hsa
  obtain ⟨t, ht, hst, hf, hts, hti⟩ := rxBitsLoop_spec pl bs (s := a) (n := n)
    (hsa'.busy.trans hb)
    (by rw [hsa'.params]; exact BitsAt.shift hsa' bs (by simpa using hbs))
    (hsa'.quiet _ (by simpa using hn))
  have hsh : a.shreg = 0 := by rw [hfa]
  have htx : a.txd = s.txd := by rw [hfa]
  have hev : a.evt = s.evt := by rw [hfa]
  rw [hsh, hev] at hf
  have htsh : t.shreg = shifted 0 bs := by rw [hf]
  refine ⟨t, ?_, ?_, ?_, ?_, ?_⟩
  · simp only [rxBits, engine_bind, engine_modify]
    rw [ha]
    simp [ht, htsh]
  · have := hsa'.trans hst
    rwa [List.nil_append, htx] at this
  · rw [hf, hfa]
  · rw [hts, hfs]
  · rw [hti, hfi]

/-! ### The bus test -/

/-- `BusFree`'s loop with `n` samples left: free if all are inactive (41_codec_receive.md R123). -/
theorem busFreeLoop_free (n : Nat) : ∀ {s : State}, s.busy = true → s.NoReset n →
    (∀ k, k < n → s.rxAt k = .inactive) →
    ∃ t, busFreeLoop n s = .ok true t ∧ Spent s t (List.replicate n s.txd) ∧
      t = { s with evt := if n = 0 then s.evt else none, io := t.io } := by
  induction n with
  | zero => exact fun {s} _ _ _ => ⟨s, rfl, .refl s, by simp⟩
  | succ n ih =>
    intro s hb hn hk
    have hs := pass_spent hb
    obtain ⟨t, ht, hst, hf⟩ := ih (s := s.pass) (hs.busy.trans hb)
      (hs.quiet _ (by simpa [Nat.add_comm] using hn))
      (fun k h => by
        rw [hs.rxAt, List.length_singleton, Nat.add_comm]
        exact hk _ (by omega))
    refine ⟨t, ?_, ?_, ?_⟩
    · have h0 : s.rxNow = .inactive := by rw [rxNow_eq]; exact hk 0 (by omega)
      simp only [busFreeLoop, engine_bind, sample_of_not_reset s hn.now, h0, reduceCtorEq, if_false]
      exact ht
    · simpa [List.replicate_succ] using hs.trans hst
    · rw [hf, s.pass_of_busy hb]
      simp

/-- `BusFree`'s loop stops at the first active sample (41_codec_receive.md R123). -/
theorem busFreeLoop_taken (k : Nat) : ∀ {n : Nat} {s : State}, s.busy = true →
    s.NoReset (k + 1) → (∀ j, j < k → s.rxAt j = .inactive) → s.rxAt k = .active → k < n →
    ∃ t, busFreeLoop n s = .ok false t ∧ Spent s t (List.replicate (k + 1) s.txd) ∧
      t = { s with evt := none, io := t.io } := by
  induction k with
  | zero =>
    intro n s hb hn _ hk hlt
    obtain ⟨n, rfl⟩ : ∃ m, n = m + 1 := ⟨n - 1, by omega⟩
    refine ⟨s.pass, ?_, by simpa using pass_spent hb, by rw [s.pass_of_busy hb]⟩
    simp [busFreeLoop, sample_of_not_reset s hn.now, rxNow_eq, hk]
  | succ k ih =>
    intro n s hb hn hj hk hlt
    obtain ⟨n, rfl⟩ : ∃ m, n = m + 1 := ⟨n - 1, by omega⟩
    have hs := pass_spent hb
    obtain ⟨t, ht, hst, hf⟩ := ih (n := n) (s := s.pass) (hs.busy.trans hb)
      (hs.quiet _ (by simpa [Nat.add_comm] using hn))
      (fun j h => by
        rw [hs.rxAt, List.length_singleton, Nat.add_comm]
        exact hj _ (by omega))
      (by rw [hs.rxAt, List.length_singleton, Nat.add_comm]; exact hk) (by omega)
    refine ⟨t, ?_, ?_, ?_⟩
    · have h0 : s.rxNow = .inactive := by rw [rxNow_eq]; exact hj 0 (by omega)
      simp only [busFreeLoop, engine_bind, sample_of_not_reset s hn.now, h0, reduceCtorEq, if_false]
      exact ht
    · simpa [List.replicate_succ] using hs.trans hst
    · rw [hf, s.pass_of_busy hb]

/-! ### What the sub-steps keep -/

/-- Relations that the Codec's own register writes keep too. -/
structure CodecKept (R Q : State → State → Prop) : Prop extends Ticks R Q where
  tS : ∀ s, R s { s with tS := s.io.now }
  t0 : ∀ s a, R s { s with t0 := a }
  shreg : ∀ s v, R s { s with shreg := v }
  seqBit : ∀ s n, R s { s with seq := { s.seq with bit := n } }

section
variable {R Q : State → State → Prop} (hC : CodecKept R Q)
include hC

theorem keeps_setSeqBit (n : Nat) : Keeps R Q (setSeqBit n) :=
  keeps_modify fun s => by
    by_cases h : s.seq.state = .idle
    · rw [if_pos h]; exact hC.refl s
    · rw [if_neg h]; exact hC.seqBit s n

theorem keeps_markWait : Keeps R Q markWait := keeps_modify hC.tS

theorem keeps_waitLoop (l : Level) (pl : Place) (n : Nat) : Keeps R Q (waitLoop l pl n) := by
  induction n with
  | zero => exact keeps_hang hC.toAlong
  | succ n ih =>
    exact keeps_bind hC.toAlong (keeps_get hC.toAlong) fun s =>
      keeps_ite (keeps_raise hC.toAlong _ _ _) <|
        keeps_bind hC.toAlong (keeps_sample hC.toTicks) fun x =>
          keeps_ite (keeps_pure hC.toAlong _) ih

theorem keeps_waitLevel (l : Level) (pl : Place) : Keeps R Q (waitLevel l pl) :=
  keeps_bind hC.toAlong (keeps_markWait hC) fun _ =>
    keeps_bind hC.toAlong (keeps_get hC.toAlong) fun _ => keeps_waitLoop hC _ _ _

theorem keeps_rxPulse (pl : Place) : Keeps R Q (rxPulse pl) :=
  keeps_bind hC.toAlong (keeps_waitLevel hC _ _) fun a =>
    keeps_bind hC.toAlong (keeps_modify fun s => hC.t0 s a) fun _ =>
      keeps_bind hC.toAlong (keeps_waitLevel hC _ _) fun _ =>
        keeps_bind hC.toAlong (keeps_get hC.toAlong) fun _ => keeps_pure hC.toAlong _

theorem keeps_rxStart : Keeps R Q rxStart :=
  keeps_bind hC.toAlong (keeps_rxPulse hC _) fun _ =>
    keeps_bind hC.toAlong (keeps_get hC.toAlong) fun _ => keeps_pure hC.toAlong _

theorem keeps_rxBit (pl : Place) : Keeps R Q (rxBit pl) :=
  keeps_bind hC.toAlong (keeps_rxPulse hC _) fun _ =>
    keeps_bind hC.toAlong (keeps_get hC.toAlong) fun _ => keeps_pure hC.toAlong _

theorem keeps_rxBitsLoop (pl : Place) (n : Nat) : Keeps R Q (rxBitsLoop pl n) := by
  induction n with
  | zero => exact keeps_pure hC.toAlong _
  | succ n ih =>
    exact keeps_bind hC.toAlong (keeps_rxBit hC _) fun _ =>
      keeps_bind hC.toAlong (keeps_modify fun s => hC.shreg s _) fun _ =>
        keeps_bind hC.toAlong (keeps_setSeqBit hC _) fun _ => ih

theorem keeps_rxBits (n : Nat) (pl : Place) : Keeps R Q (rxBits n pl) :=
  keeps_bind hC.toAlong (keeps_modify fun s => hC.shreg s _) fun _ =>
    keeps_bind hC.toAlong (keeps_setSeqBit hC _) fun _ =>
      keeps_bind hC.toAlong (keeps_rxBitsLoop hC _ _) fun _ =>
        keeps_bind hC.toAlong (keeps_get hC.toAlong) fun _ => keeps_pure hC.toAlong _

theorem keeps_rxAck (pl : Place) : Keeps R Q (rxAck pl) :=
  keeps_bind hC.toAlong (keeps_rxBit hC _) fun _ => keeps_pure hC.toAlong _

theorem keeps_busFreeLoop (n : Nat) : Keeps R Q (busFreeLoop n) := by
  induction n with
  | zero => exact keeps_pure hC.toAlong _
  | succ n ih =>
    exact keeps_bind hC.toAlong (keeps_sample hC.toTicks) fun _ =>
      keeps_ite (keeps_pure hC.toAlong _) ih

theorem keeps_busFree : Keeps R Q busFree :=
  keeps_bind hC.toAlong (keeps_get hC.toAlong) fun _ => keeps_busFreeLoop hC _

/-- `Drive` keeps what a write of `TXD` keeps (42_codec_transmit.md R140). -/
theorem keeps_drive (l : Level) (n : Nat) (hl : ∀ s, R s { s with txd := l }) :
    Keeps R Q (drive l n) :=
  keeps_ite (keeps_pure hC.toAlong _) <|
    keeps_bind hC.toAlong (keeps_modify hl) fun _ => keeps_delay hC.toTicks _

theorem keeps_txStart (ht : ∀ s l, R s { s with txd := l }) : Keeps R Q txStart :=
  keeps_bind hC.toAlong (keeps_get hC.toAlong) fun _ =>
    keeps_bind hC.toAlong (keeps_drive hC _ _ fun s => ht s _) fun _ =>
      keeps_drive hC _ _ fun s => ht s _

theorem keeps_txBit (ht : ∀ s l, R s { s with txd := l }) (b : Bool) : Keeps R Q (txBit b) :=
  keeps_bind hC.toAlong (keeps_get hC.toAlong) fun _ =>
    keeps_bind hC.toAlong (keeps_drive hC _ _ fun s => ht s _) fun _ =>
      keeps_drive hC _ _ fun s => ht s _

theorem keeps_txBitsLoop (ht : ∀ s l, R s { s with txd := l }) (n : Nat) :
    Keeps R Q (txBitsLoop n) := by
  induction n with
  | zero => exact keeps_pure hC.toAlong _
  | succ n ih =>
    exact keeps_bind hC.toAlong (keeps_get hC.toAlong) fun _ =>
      keeps_bind hC.toAlong (keeps_txBit hC ht _) fun _ =>
        keeps_bind hC.toAlong (keeps_setSeqBit hC _) fun _ => ih

theorem keeps_txBits (ht : ∀ s l, R s { s with txd := l }) (v : Half) (n : Nat) :
    Keeps R Q (txBits v n) :=
  keeps_bind hC.toAlong (keeps_modify fun s => hC.shreg s _) fun _ =>
    keeps_bind hC.toAlong (keeps_setSeqBit hC _) fun _ => keeps_txBitsLoop hC ht _

theorem keeps_txAck (ht : ∀ s l, R s { s with txd := l }) (a : Ack) : Keeps R Q (txAck a) :=
  keeps_txBit hC ht _

end

end Sys2Proof.Machine
end

