-- ==== Sys2Proof/Laws/Framer.lean ====
section
/-! SUPPORT. What each sub-step of the Framer does, said once: the field exchanges, the handshake, the
wait for a free bus, and what READMSG and WRITEMSG keep. -/

namespace Sys2Proof.Machine

/-! ### Values and their bits -/

theorem valueOf_foldl (bs : List Bool) : ∀ a : Nat,
    bs.foldl (fun a b => 2 * a + b.toNat) a = a * 2 ^ bs.length + valueOf bs := by
  induction bs with
  | nil => intro a; simp [valueOf]
  | cons b bs ih =>
    intro a
    simp only [valueOf, List.foldl_cons, List.length_cons]
    rw [ih, ih (2 * 0 + b.toNat), pow_succ]
    ring

theorem valueOf_cons (b : Bool) (bs : List Bool) :
    valueOf (b :: bs) = b.toNat * 2 ^ bs.length + valueOf bs := by
  rw [valueOf, List.foldl_cons, valueOf_foldl]
  simp

theorem valueOf_lt (bs : List Bool) : valueOf bs < 2 ^ bs.length := by
  induction bs with
  | nil => simp [valueOf]
  | cons b bs ih =>
    rw [valueOf_cons, List.length_cons, pow_succ]
    cases b <;> simp <;> omega

/-- Taking a value apart and putting it together (30_encoding.md R87). -/
theorem valueOf_bitsOf (v : Half) (n : Nat) : valueOf (bitsOf v n) = v.toNat % 2 ^ n := by
  induction n with
  | zero => simp [bitsOf, valueOf, Nat.mod_one]
  | succ n ih =>
    rw [bitsOf_succ, valueOf_cons, ih, bitsOf_length, pow_succ, Nat.mod_mul]
    have : v.getLsbD n = decide (v.toNat / 2 ^ n % 2 = 1) := by
      rw [BitVec.getLsbD, Nat.testBit_eq_decide_div_mod_eq]
    rw [this]
    rcases Nat.mod_two_eq_zero_or_one (v.toNat / 2 ^ n) with h | h <;> simp [h, Nat.add_comm]

theorem shifted_toNat (bs : List Bool) : ∀ v : Half,
    (shifted v bs).toNat = bs.foldl (fun a b => 2 * a + b.toNat) v.toNat % 2 ^ 16 := by
  induction bs with
  | nil => intro v; simp [shifted, Nat.mod_eq_of_lt v.isLt]
  | cons b bs ih =>
    intro v
    have h := ih (shiftIn v b)
    simp only [shifted, List.foldl_cons] at h ⊢
    rw [h, shiftIn_toNat, valueOf_foldl, valueOf_foldl]
    rw [Nat.add_mod, Nat.mul_mod, Nat.mod_mod, ← Nat.mul_mod, ← Nat.add_mod]

/-- What `RxBits` returns is the number its bits stand for (30_encoding.md R87). -/
theorem lowBits_shifted (bs : List Bool) (h : bs.length ≤ 16) :
    (lowBits (shifted 0 bs) bs.length).toNat = valueOf bs := by
  have hlt := valueOf_lt bs
  have hle : 2 ^ bs.length ≤ 2 ^ 16 := Nat.pow_le_pow_right (by decide) h
  have h0 : (shifted 0 bs).toNat = valueOf bs := by
    rw [shifted_toNat, valueOf_foldl]
    simp
    omega
  simp only [lowBits, BitVec.toNat_setWidth, h0]
  rw [Nat.mod_eq_of_lt hlt, Nat.mod_eq_of_lt (by omega)]

theorem lowBits_shifted_bitsOf {v : Half} {n : Nat} (h : n ≤ 16) (hv : v.toNat < 2 ^ n) :
    lowBits (shifted 0 (bitsOf v n)) n = v := by
  have := lowBits_shifted (bitsOf v n) (by simpa using h)
  rw [bitsOf_length, valueOf_bitsOf, Nat.mod_eq_of_lt hv] at this
  exact BitVec.eq_of_toNat_eq this

/-! ### The reader's field exchange -/

theorem answerWave_length {p : Params} (hp : p.wf = true) (a : Ack) :
    (answerWave p a).length = p.tAckDelay + p.tBit := by
  simp [answerWave, bitWave_length hp]

/-- The responder's handshake where no reset comes (43_framer_common.md R157). -/
theorem answer_spec (a : Ack) {s : State} (hp : s.params.wf = true) (hb : s.busy = true)
    (hn : s.NoReset (s.params.tAckDelay + s.params.tBit)) :
    ∃ t, answer a s = .ok () t ∧ Spent s t (answerWave s.params a) ∧
      t = { s with txd := .inactive, evt := none, io := t.io } := by
  obtain ⟨t, ht, hst, hf⟩ := drive_spec .inactive s.params.tAckDelay hb (hn.mono (by omega))
  obtain ⟨u, hu, htu, hg⟩ := txBit_spec a.toBit (s := t) (by rw [hst.params]; exact hp)
    (hst.busy.trans hb) (hst.quiet _ (by rw [List.length_replicate, hst.params]; exact hn))
  rw [hst.params] at htu
  refine ⟨u, ?_, hst.trans htu, ?_⟩
  · have : txAck a = txBit a.toBit := by cases a <;> rfl
    simp [answer, ht, this, hu]
  · rw [hg, hf]

/-- Whether a handshake follows this field, from the state in which the field begins
(43_framer_common.md R156, R160). -/
def owedAt (s : State) (field : ErrField) (v : Half) : Bool :=
  (if field = .slave then owedFor s.params s.work.bt (v.setWidth 12) else s.owed) &&
    decide (field ≠ .master)

/-- The working registers after a field's exchange: `W_SLAVE` and `OWED` after the slave field. -/
def latched (s : State) (field : ErrField) (v : Half) : State :=
  if field = .slave then
    { s with
      work := { s.work with slave := v.setWidth 12 },
      owed := owedFor s.params s.work.bt (v.setWidth 12) }
  else s

/-- The value and the parity bit of a field are in, and the parity bit is `q`: what is left of
`rxField` decides on `q` alone (43_framer_common.md R157). -/
theorem rxField_bits (field : ErrField) (index : Byte) {v : Half} {n a b : Nat} {q : Bool} {s : State}
    (h16 : n ≤ 16) (hv : v.toNat < 2 ^ n) (hb : s.busy = true)
    (hbits : BitsAt s.params s.rxAt (bitsOf v n) 0 a)
    (hpar : BitAt s.params s.rxAt q a b) (hn : s.NoReset (a + b)) :
    ∃ t, Spent s t (List.replicate (a + b) s.txd) ∧
      t = { (latched s field v) with
        t0 := t.t0, tS := t.tS, shreg := t.shreg, seq := t.seq, evt := none, io := t.io } ∧
      t.seq.state = s.seq.state ∧ t.seq.idx = s.seq.idx ∧
      rxField n field index s =
        if q = parity v n then
          match onlyIf (owedAt s field v) (answer .acknowledged) t with
          | .ok _ u => .ok v u
          | .error e u => .error e u
        else
          match onlyIf (owedAt s field v) (answer .rejected) t with
          | .ok _ u => .error (.raised ⟨.parityError, field, index⟩) u
          | .error e u => .error e u := by
  obtain ⟨t, ht, hst, hf, hts, hti⟩ := rxBits_spec ⟨field, index⟩ (bitsOf v n) hb hbits
    (hn.mono (by omega))
  rw [bitsOf_length, lowBits_shifted_bitsOf h16 hv] at ht
  obtain ⟨u, hu, htu, hg⟩ := rxBit_of_bitAt ⟨field, index⟩ (s := t) (hst.busy.trans hb)
    (by rw [hst.params]; exact hpar.shift hst (by simp))
    (hst.quiet _ (by rw [List.length_replicate]; exact hn))
  have htx : t.txd = s.txd := by rw [hf]
  have hsu : Spent s u (List.replicate (a + b) s.txd) := by
    have := hst.trans htu
    rwa [htx, List.replicate_append_replicate] at this
  have hul : Spent s (latched u field v) (List.replicate (a + b) s.txd) := by
    have : Spent u (latched u field v) [] := by
      unfold latched
      split
      · exact Spent.of_io rfl rfl rfl rfl
      · exact Spent.refl u
    simpa using hsu.trans this
  have hwork : u.work = s.work := by rw [hg, hf]
  have howed : u.owed = s.owed := by rw [hg, hf]
  refine ⟨latched u field v, hul, ?_, ?_, ?_, ?_⟩
  · unfold latched
    split <;> rw [hg, hf]
  · unfold latched
    split <;> · show u.seq.state = _; rw [hg, hts]
  · unfold latched
    split <;> · show u.seq.idx = _; rw [hg, hti]
  · have hlatch : onlyIf (decide (field = .slave)) (latchSlave v) u =
        .ok () (latched u field v) := by
      by_cases h : field = .slave <;> simp [onlyIf, latched, latchSlave, h]
    have howedHere : ((latched u field v).owed && decide (field ≠ .master)) = owedAt s field v := by
      unfold latched owedAt
      split
      · simp only [hsu.params, hwork]
      · rw [howed]
    simp only [rxField, engine_bind, ht, hu, hlatch, engine_get, howedHere]
    by_cases hq : q = parity v n
    · simp only [hq, if_true, engine_bind]
      cases onlyIf (owedAt s field v) (answer .acknowledged) (latched u field v) <;> rfl
    · simp only [hq, if_false, engine_bind]
      cases onlyIf (owedAt s field v) (answer .rejected) (latched u field v) <;> rfl

/-- `RxField` where the field is on the line with the right parity bit (43_framer_common.md R157). -/
theorem rxField_spec (field : ErrField) (index : Byte) {v : Half} {n : Nat} {w : List Level}
    {s : State} (hp : s.params.wf = true) (h16 : n ≤ 16) (hv : v.toNat < 2 ^ n)
    (hb : s.busy = true) (htx : s.txd = .inactive)
    (hfield : FieldAt s.params s.rxAt (owedAt s field v) v n 0 w) (hn : s.NoReset w.length) :
    ∃ t, rxField n field index s = .ok v t ∧ Spent s t w ∧
      t = { (latched s field v) with
        t0 := t.t0, tS := t.tS, shreg := t.shreg, seq := t.seq, evt := none, io := t.io } ∧
      t.seq.state = s.seq.state ∧ t.seq.idx = s.seq.idx := by
  obtain ⟨a, b, hbits, hpar, hw⟩ := hfield
  rw [Nat.zero_add] at hpar
  have hwl : w.length = a + b +
      (if owedAt s field v then answerWave s.params .acknowledged else []).length := by
    rw [hw, List.length_append, List.length_replicate]
  obtain ⟨t, hst, hf, hts, hti, hrun⟩ := rxField_bits field index h16 hv hb hbits hpar
    (hn.mono (by omega))
  rw [if_pos rfl] at hrun
  rw [htx] at hst
  by_cases ho : owedAt s field v = true
  · simp only [ho, if_true, onlyIf] at hrun hw hwl
    obtain ⟨u, hu, htu, hg⟩ := answer_spec .acknowledged (s := t) (by rw [hst.params]; exact hp)
      (hst.busy.trans hb)
      (hst.quiet _ (by
        rw [List.length_replicate, hst.params, ← answerWave_length hp .acknowledged, ← hwl]
        exact hn))
    rw [hst.params] at htu
    refine ⟨u, by rw [hrun, hu], by rw [hw]; exact hst.trans htu, ?_, by rw [hg, ← hts],
      by rw [hg, ← hti]⟩
    have hltx : (latched s field v).txd = .inactive := by
      unfold latched
      split <;> exact htx
    rw [hg, hf]
    conv_lhs => rw [← hltx]
  · simp only [ho, onlyIf] at hrun hw
    refine ⟨t, by rw [hrun]; rfl, ?_, hf, hts, hti⟩
    rw [hw]
    simpa using hst

/-! ### The writer's field exchange -/

theorem fieldWave_length {p : Params} (hp : p.wf = true) (v : Half) (n : Nat) :
    (fieldWave p v n).length = (n + 1) * p.tBit := by
  simp [fieldWave, bitsWave_length hp]

/-- The value and the parity bit are sent: what is left of `txField` is the handshake wait
(43_framer_common.md R158). -/
theorem txField_bits (v : Half) (n : Nat) (field : ErrField) (index : Byte) (h1 : 1 ≤ n) {s : State}
    (hp : s.params.wf = true) (hb : s.busy = true) (hn : s.NoReset ((n + 1) * s.params.tBit)) :
    ∃ t, Spent s t (fieldWave s.params v n) ∧
      t = { s with shreg := v, txd := .inactive, evt := none, seq := t.seq, io := t.io } ∧
      t.seq.state = s.seq.state ∧ t.seq.idx = s.seq.idx ∧
      txField v n field index s =
        if s.hswait && decide (field ≠ .master) then
          match rxAck ⟨field, index⟩ t with
          | .ok .acknowledged u => .ok () u
          | .ok .rejected u => .error (.raised ⟨.handshakeRejected, field, index⟩) u
          | .error e u => .error e u
        else .ok () t := by
  rw [Nat.succ_mul] at hn
  obtain ⟨t, ht, hst, hf, hts, hti⟩ := txBits_spec v n h1 hp hb (hn.mono (by omega))
  obtain ⟨u, hu, htu, hg⟩ := txBit_spec (parity v n) (s := t) (by rw [hst.params]; exact hp)
    (hst.busy.trans hb)
    (hst.quiet _ (by rw [bitsWave_length hp, bitsOf_length, hst.params]; exact hn))
  rw [hst.params] at htu
  have hhs : u.hswait = s.hswait := by rw [hg, hf]
  refine ⟨u, ?_, by rw [hg, hf], by rw [hg, ← hts], by rw [hg, ← hti], ?_⟩
  · have := hst.trans htu
    simpa [fieldWave, bitsWave] using this
  · simp only [txField, engine_bind, ht, hu, engine_get, hhs]
    by_cases hc : (s.hswait && decide (field ≠ .master)) = true
    · simp only [hc, if_true, engine_bind]
      cases rxAck ⟨field, index⟩ u with
      | ok a w => cases a <;> rfl
      | error e w => rfl
    · simp only [hc]
      rfl

/-- `RxAck` reads a handshake bit that is on the line (41_codec_receive.md R127). -/
theorem rxAck_of_bitAt (pl : Place) {b : Bool} {n : Nat} {s : State} (hb : s.busy = true)
    (hp : BitAt s.params s.rxAt b 0 n) (hn : s.NoReset n) :
    ∃ t, rxAck pl s = .ok (if b then .rejected else .acknowledged) t ∧
      Spent s t (List.replicate n s.txd) ∧
      t = { s with t0 := t.t0, tS := t.tS, evt := none, io := t.io } := by
  obtain ⟨t, ht, hst, hf⟩ := rxBit_of_bitAt pl hb hp hn
  exact ⟨t, by simp [rxAck, ht], hst, hf⟩

/-! ### The wait for a free bus -/

/-- The loop of `WaitBusFree` with the bus free `d` ticks from now: every failed attempt ends before
that, and the attempt that begins there succeeds; `x` ticks have passed since `T_S`
(45_framer_write.md R193). -/
theorem waitBusFreeLoop_spec (k : Nat) : ∀ {d : Nat} (x : Nat) {s : State}, s.busy = true →
    s.NoReset (d + s.params.tBit) → (∀ j, j < s.params.tBit → s.rxAt (d + j) = .inactive) →
    (∀ e, e < d → ∃ j, j < s.params.tBit ∧ s.rxAt (e + j) = .active) → d < k →
    s.io.now = s.tS + .ofNat 64 x → 0 < s.params.tBit →
    (∀ m, s.params.tBusFreeMax = some m → d = 0 ∨ x + d < m) →
    ∃ t, waitBusFreeLoop k s = .ok () t ∧
      Spent s t (List.replicate (d + s.params.tBit) s.txd) ∧
      t = { s with evt := none, io := t.io } := by
  induction k with
  | zero => intro d x s _ _ _ _ h; omega
  | succ k ih =>
    intro d x s hb hn hfree hfirst hk hts hpos hm
    rcases Nat.eq_zero_or_pos d with rfl | hd
    · obtain ⟨t, ht, hst, hf⟩ := busFreeLoop_free s.params.tBit hb (hn.mono (by omega))
        (fun j hj => by simpa using hfree j hj)
      refine ⟨t, ?_, by simpa using hst, ?_⟩
      · simp [waitBusFreeLoop, busFree, ht]
      · rw [hf, if_neg (by omega)]
    · have hex : ∃ j, j < s.params.tBit ∧ s.rxAt j = .active := by
        obtain ⟨j, hj, ha⟩ := hfirst 0 hd
        exact ⟨j, hj, by simpa using ha⟩
      have hj := (Nat.find_spec hex).1
      have ha := (Nat.find_spec hex).2
      have hmin : ∀ i, i < Nat.find hex → s.rxAt i = .inactive := by
        intro i hi
        have := Nat.find_min hex hi
        cases hx : s.rxAt i with
        | inactive => rfl
        | active => exact absurd ⟨by omega, hx⟩ this
      generalize Nat.find hex = j at hj ha hmin
      have hjd : j < d := by
        by_contra hc
        have := hfree (j - d) (by omega)
        rw [Nat.add_sub_cancel' (by omega), ha] at this
        cases this
      obtain ⟨t, ht, hst, hf⟩ := busFreeLoop_taken j (n := s.params.tBit) hb
        (hn.mono (by omega)) hmin ha hj
      have hnow : t.io.now = s.io.now + .ofNat 64 (j + 1) := by simpa using hst.now
      have htS : t.tS = s.tS := by rw [hf]
      have hrx : ∀ i, t.rxAt i = s.rxAt (j + 1 + i) := fun i => by
        rw [hst.rxAt, List.length_replicate]
      have hnow' : t.io.now = t.tS + .ofNat 64 (x + (j + 1)) := by
        rw [hnow, htS, hts, BitVec.add_assoc, ← BitVec.ofNat_add]
      have hexp : t.expired t.params.tBusFreeMax = false := by
        rw [hst.params]
        exact not_expired hnow' fun m hmm => by rcases hm m hmm with h0 | h0 <;> omega
      obtain ⟨u, hu, htu, hg⟩ := ih (d := d - (j + 1)) (x + (j + 1)) (s := t) (hst.busy.trans hb)
        (hst.quiet _ (by
          rw [List.length_replicate, hst.params]
          exact hn.mono (by omega)))
        (by
          intro i hi
          rw [hst.params] at hi
          rw [hrx, show j + 1 + (d - (j + 1) + i) = d + i by omega]
          exact hfree i hi)
        (by
          intro e he
          obtain ⟨i, hi, hai⟩ := hfirst (j + 1 + e) (by omega)
          refine ⟨i, by rw [hst.params]; exact hi, ?_⟩
          rw [hrx, ← Nat.add_assoc]
          exact hai)
        (by omega) hnow' (by rw [hst.params]; exact hpos)
        (by
          intro m hmm
          rw [hst.params] at hmm
          rcases hm m hmm with h0 | h0
          · omega
          · right
            omega)
      have htx : t.txd = s.txd := by rw [hf]
      refine ⟨u, ?_, ?_, ?_⟩
      · simp only [waitBusFreeLoop, busFree, engine_bind, engine_get, ht, hexp, Bool.false_eq_true,
          if_false]
        exact hu
      · have := hst.trans htu
        rw [htx, hst.params, List.replicate_append_replicate] at this
        rwa [show j + 1 + (d - (j + 1) + s.params.tBit) = d + s.params.tBit by omega] at this
      · rw [hg, hf]

/-- The loop of `WaitBusFree` without a bound, on a bus that is never free, uses up its turns, each of
at least one tick (70_reset_and_hazards.md R254). -/
theorem waitBusFreeLoop_hung (k : Nat) : ∀ {s : State}, s.busy = true → (∀ n, s.NoReset n) →
    (∀ d, ∃ j, j < s.params.tBit ∧ s.rxAt (d + j) = .active) → s.params.tBusFreeMax = none →
    ∃ t n, waitBusFreeLoop k s = .error .hung t ∧ Spent s t (List.replicate n s.txd) ∧ k ≤ n ∧
      t = { s with evt := if k = 0 then s.evt else none, io := t.io } := by
  induction k with
  | zero => exact fun {s} _ _ _ _ => ⟨s, 0, rfl, .refl s, le_rfl, rfl⟩
  | succ k ih =>
    intro s hb hn hno hmax
    have hex : ∃ j, j < s.params.tBit ∧ s.rxAt j = .active := by simpa using hno 0
    have hj := (Nat.find_spec hex).1
    have ha := (Nat.find_spec hex).2
    have hmin : ∀ i, i < Nat.find hex → s.rxAt i = .inactive := by
      intro i hi
      have := Nat.find_min hex hi
      cases hx : s.rxAt i with
      | inactive => rfl
      | active => exact absurd ⟨by omega, hx⟩ this
    generalize Nat.find hex = j at hj ha hmin
    obtain ⟨t, ht, hst, hf⟩ := busFreeLoop_taken j (n := s.params.tBit) hb (hn _) hmin ha hj
    have hexp : t.expired t.params.tBusFreeMax = false := by rw [hst.params, hmax]; rfl
    obtain ⟨u, n, hu, htu, hkn, hg⟩ := ih (s := t) (hst.busy.trans hb) (fun n => hst.quiet _ (hn _))
      (fun d => by
        obtain ⟨i, hi, hai⟩ := hno (j + 1 + d)
        refine ⟨i, by rw [hst.params]; exact hi, ?_⟩
        rw [hst.rxAt, List.length_replicate, ← Nat.add_assoc]
        exact hai)
      (by rw [hst.params]; exact hmax)
    have htx : t.txd = s.txd := by rw [hf]
    refine ⟨u, j + 1 + n, ?_, ?_, by omega, ?_⟩
    · simp only [waitBusFreeLoop, busFree, engine_bind, engine_get, ht, hexp, Bool.false_eq_true,
        if_false]
      exact hu
    · have := hst.trans htu
      rwa [htx, List.replicate_append_replicate] at this
    · rw [hg, hf]
      simp

/-- The first free window begins within the line's horizon. -/
theorem free_lt_horizon {p : Params} {d : Nat} {s : State} (h : FreeAt p s.rxAt d) :
    d < s.io.rx.horizon := by
  by_contra hc
  unfold Line.horizon at hc
  obtain ⟨j, hj, ha⟩ := h.first (d - (s.io.rx.more.length + 1)) (by omega)
  have h0 := h.free j hj
  unfold State.rxAt at ha h0
  rw [← Line.after_period (by omega), show d - (s.io.rx.more.length + 1) + j +
    (s.io.rx.more.length + 1) = d + j by omega, h0] at ha
  cases ha

/-- `WaitBusFree` returns after the first free window (45_framer_write.md R193). -/
theorem waitBusFree_spec {d : Nat} {s : State} (hp : s.params.wf = true) (hb : s.busy = true)
    (hfree : FreeAt s.params s.rxAt d) (hn : s.NoReset (d + s.params.tBit)) :
    ∃ t, waitBusFree s = .ok () t ∧ Spent s t (List.replicate (d + s.params.tBit) s.txd) ∧
      t = { s with tS := s.io.now, evt := none, io := t.io } := by
  have hpos : 0 < s.params.tBit := by
    have := (wf_iff s.params).mp hp
    omega
  have hturn : d < s.turns s.params.tBusFreeMax :=
    (free_lt_horizon hfree).trans (horizon_lt_turns _ _)
  obtain ⟨t, ht, hst, hf⟩ := waitBusFreeLoop_spec (s.turns s.params.tBusFreeMax) 0
    (s := { s with tS := s.io.now }) hb hn hfree.free hfree.first hturn (by simp) hpos
    (by simpa using hfree.inTime)
  refine ⟨t, ?_, ?_, by rw [hf]⟩
  · simp only [waitBusFree, markWait, engine_bind, engine_modify, engine_get]
    exact ht
  · simpa using
      (Spent.of_io (s := s) (t := { s with tS := s.io.now }) rfl rfl rfl rfl).trans hst

/-! ### What the Framer keeps -/

/-- Relations that the register writes of READMSG keep too, but for the commit. -/
structure ReadKept (R Q : State → State → Prop) : Prop extends CodecKept R Q where
  txd : ∀ s l, R s { s with txd := l }
  work : ∀ s w, R s { s with work := w }
  owed : ∀ s b, R s { s with owed := b }
  seq : ∀ s q, R s { s with seq := q }

/-- Relations that the register writes of WRITEMSG keep too. -/
structure WriteKept (R Q : State → State → Prop) : Prop extends CodecKept R Q where
  txd : ∀ s l, R s { s with txd := l }
  hswait : ∀ s b, R s { s with hswait := b }
  seq : ∀ s q, R s { s with seq := q }

section
variable {R Q : State → State → Prop}

theorem keeps_answer (hC : CodecKept R Q) (ht : ∀ s l, R s { s with txd := l }) (a : Ack) :
    Keeps R Q (answer a) :=
  keeps_bind hC.toAlong (keeps_get hC.toAlong) fun _ =>
    keeps_bind hC.toAlong (keeps_drive hC _ _ fun s => ht s _) fun _ => keeps_txAck hC ht _

theorem keeps_latchSlave (hR : ReadKept R Q) (v : Half) : Keeps R Q (latchSlave v) :=
  keeps_modify fun s =>
    hR.trans s { s with work := { s.work with slave := v.setWidth 12 } } _ (hR.work s _)
      (hR.owed { s with work := { s.work with slave := v.setWidth 12 } } _)

theorem keeps_rxField (hR : ReadKept R Q) (n : Nat) (f : ErrField) (i : Byte) :
    Keeps R Q (rxField n f i) :=
  keeps_bind hR.toAlong (keeps_rxBits hR.toCodecKept _ _) fun _ =>
    keeps_bind hR.toAlong (keeps_rxBit hR.toCodecKept _) fun _ =>
      keeps_bind hR.toAlong (keeps_onlyIf hR.toAlong _ (keeps_latchSlave hR _)) fun _ =>
        keeps_bind hR.toAlong (keeps_get hR.toAlong) fun _ =>
          keeps_ite
            (keeps_bind hR.toAlong
              (keeps_onlyIf hR.toAlong _ (keeps_answer hR.toCodecKept hR.txd _))
              fun _ => keeps_pure hR.toAlong _)
            (keeps_bind hR.toAlong
              (keeps_onlyIf hR.toAlong _ (keeps_answer hR.toCodecKept hR.txd _))
              fun _ => keeps_raise hR.toAlong _ _ _)

theorem keeps_setSeq (hs : ∀ s q, R s { s with seq := q }) (st : SeqState) :
    Keeps R Q (setSeq st) := keeps_modify fun s => hs s _

theorem keeps_setSeqData (hs : ∀ s q, R s { s with seq := q }) (i : Byte) :
    Keeps R Q (setSeqData i) := keeps_modify fun s => hs s _

theorem keeps_setWork (hR : ReadKept R Q) (f : Message → Message) : Keeps R Q (setWork f) :=
  keeps_modify fun s => hR.work s _

theorem keeps_readStart (hR : ReadKept R Q) : Keeps R Q readStart :=
  keeps_bind hR.toAlong (keeps_setSeq hR.seq _) fun _ =>
    keeps_bind hR.toAlong (keeps_rxStart hR.toCodecKept) fun _ =>
      keeps_ite (keeps_pure hR.toAlong _) (keeps_raise hR.toAlong _ _ _)

theorem keeps_readType (hR : ReadKept R Q) : Keeps R Q readType :=
  keeps_bind hR.toAlong (keeps_setSeq hR.seq _) fun _ =>
    keeps_bind hR.toAlong (keeps_rxBit hR.toCodecKept _) fun _ =>
      keeps_bind hR.toAlong (keeps_get hR.toAlong) fun _ => keeps_setWork hR _

theorem keeps_readAddress (hR : ReadKept R Q) : Keeps R Q readAddress :=
  keeps_bind hR.toAlong (keeps_setSeq hR.seq _) fun _ =>
    keeps_bind hR.toAlong (keeps_rxField hR _ _ _) fun _ =>
      keeps_bind hR.toAlong (keeps_setWork hR _) fun _ =>
        keeps_bind hR.toAlong (keeps_setSeq hR.seq _) fun _ =>
          keeps_bind hR.toAlong (keeps_rxField hR _ _ _) fun _ =>
            keeps_bind hR.toAlong (keeps_setWork hR _) fun _ =>
              keeps_bind hR.toAlong (keeps_setSeq hR.seq _) fun _ =>
                keeps_bind hR.toAlong (keeps_rxField hR _ _ _) fun _ => keeps_setWork hR _

theorem keeps_readLength (hR : ReadKept R Q) : Keeps R Q readLength :=
  keeps_bind hR.toAlong (keeps_setSeq hR.seq _) fun _ =>
    keeps_bind hR.toAlong (keeps_rxField hR _ _ _) fun _ => keeps_setWork hR _

theorem keeps_readData (hR : ReadKept R Q) (k : Nat) : ∀ i, Keeps R Q (readData k i) := by
  induction k with
  | zero => exact fun _ => keeps_pure hR.toAlong _
  | succ k ih =>
    exact fun i =>
      keeps_bind hR.toAlong (keeps_setSeqData hR.seq _) fun _ =>
        keeps_bind hR.toAlong (keeps_rxField hR _ _ _) fun _ =>
          keeps_bind hR.toAlong (keeps_setWork hR _) fun _ => ih _

/-- READMSG keeps what its register writes, ticks and commit keep (44_framer_read.md R170). -/
theorem keeps_readMsg (hR : ReadKept R Q) (hc : ∀ s, R s { s with msg := s.msg.commit s.work }) :
    Keeps R Q readMsg :=
  keeps_bind hR.toAlong (keeps_modify fun s => hR.owed s _) fun _ =>
    keeps_bind hR.toAlong (keeps_get hR.toAlong) fun _ =>
      keeps_ite
        (keeps_bind hR.toAlong (keeps_readStart hR) fun _ =>
          keeps_bind hR.toAlong (keeps_readType hR) fun _ =>
            keeps_bind hR.toAlong (keeps_readAddress hR) fun _ =>
              keeps_bind hR.toAlong (keeps_readLength hR) fun _ =>
                keeps_bind hR.toAlong (keeps_get hR.toAlong) fun _ =>
                  keeps_bind hR.toAlong (keeps_readData hR _ _) fun _ =>
                    keeps_bind hR.toAlong
                      (keeps_bind hR.toAlong (keeps_setSeq hR.seq _) fun _ =>
                        keeps_modify hc)
                      fun _ => keeps_pure hR.toAlong _)
        (keeps_raise hR.toAlong _ _ _)

theorem keeps_txField (hW : WriteKept R Q) (v : Half) (n : Nat) (f : ErrField) (i : Byte) :
    Keeps R Q (txField v n f i) :=
  keeps_bind hW.toAlong (keeps_txBits hW.toCodecKept hW.txd _ _) fun _ =>
    keeps_bind hW.toAlong (keeps_txBit hW.toCodecKept hW.txd _) fun _ =>
      keeps_bind hW.toAlong (keeps_get hW.toAlong) fun _ =>
        keeps_ite
          (keeps_bind hW.toAlong (keeps_rxAck hW.toCodecKept _) fun a => by
            cases a
            · exact keeps_pure hW.toAlong _
            · exact keeps_raise hW.toAlong _ _ _)
          (keeps_pure hW.toAlong _)

theorem keeps_waitBusFreeLoop (hC : CodecKept R Q) (k : Nat) : Keeps R Q (waitBusFreeLoop k) := by
  induction k with
  | zero => exact keeps_hang hC.toAlong
  | succ k ih =>
    exact keeps_bind hC.toAlong (keeps_busFree hC) fun _ =>
      keeps_ite (keeps_pure hC.toAlong _) <|
        keeps_bind hC.toAlong (keeps_get hC.toAlong) fun _ =>
          keeps_ite (keeps_raise hC.toAlong _ _ _) ih

theorem keeps_waitBusFree (hC : CodecKept R Q) : Keeps R Q waitBusFree :=
  keeps_bind hC.toAlong (keeps_markWait hC) fun _ =>
    keeps_bind hC.toAlong (keeps_get hC.toAlong) fun _ => keeps_waitBusFreeLoop hC _

theorem keeps_writeStart (hW : WriteKept R Q) : Keeps R Q writeStart :=
  keeps_bind hW.toAlong (keeps_setSeq hW.seq _) fun _ =>
    keeps_bind hW.toAlong (keeps_waitBusFree hW.toCodecKept) fun _ =>
      keeps_bind hW.toAlong (keeps_setSeq hW.seq _) fun _ =>
        keeps_bind hW.toAlong (keeps_txStart hW.toCodecKept hW.txd) fun _ =>
          keeps_bind hW.toAlong (keeps_setSeq hW.seq _) fun _ =>
            keeps_bind hW.toAlong (keeps_get hW.toAlong) fun _ =>
              keeps_txBit hW.toCodecKept hW.txd _

theorem keeps_seqTxField (hW : WriteKept R Q) (st : SeqState) (f : State → Engine Unit)
    {next : Engine Unit} (hf : ∀ s, Keeps R Q (f s)) (hnext : Keeps R Q next) :
    Keeps R Q (do setSeq st; let s ← get; f s; next) :=
  keeps_bind hW.toAlong (keeps_setSeq hW.seq _) fun _ =>
    keeps_bind hW.toAlong (keeps_get hW.toAlong) fun s =>
      keeps_bind hW.toAlong (hf s) fun _ => hnext

theorem keeps_writeHeader (hW : WriteKept R Q) : Keeps R Q writeHeader :=
  keeps_seqTxField hW _ _ (fun _ => keeps_txField hW _ _ _ _) <|
    keeps_seqTxField hW _ _ (fun _ => keeps_txField hW _ _ _ _) <|
      keeps_seqTxField hW _ _ (fun _ => keeps_txField hW _ _ _ _) <|
        keeps_bind hW.toAlong (keeps_setSeq hW.seq _) fun _ =>
          keeps_bind hW.toAlong (keeps_get hW.toAlong) fun _ => keeps_txField hW _ _ _ _

theorem keeps_writeData (hW : WriteKept R Q) (k : Nat) : ∀ i, Keeps R Q (writeData k i) := by
  induction k with
  | zero => exact fun _ => keeps_pure hW.toAlong _
  | succ k ih =>
    exact fun i =>
      keeps_bind hW.toAlong (keeps_setSeqData hW.seq _) fun _ =>
        keeps_bind hW.toAlong (keeps_get hW.toAlong) fun _ =>
          keeps_bind hW.toAlong (keeps_txField hW _ _ _ _) fun _ => ih _

/-- WRITEMSG keeps what its register writes and ticks keep (45_framer_write.md R190). -/
theorem keeps_writeMsg (hW : WriteKept R Q) : Keeps R Q writeMsg :=
  keeps_bind hW.toAlong (keeps_modify fun s => hW.hswait s _) fun _ =>
    keeps_bind hW.toAlong (keeps_get hW.toAlong) fun _ =>
      keeps_ite
        (keeps_ite
          (keeps_bind hW.toAlong (keeps_modify fun s => hW.hswait s _) fun _ =>
            keeps_bind hW.toAlong (keeps_writeStart hW) fun _ =>
              keeps_bind hW.toAlong (keeps_writeHeader hW) fun _ =>
                keeps_bind hW.toAlong (keeps_get hW.toAlong) fun _ =>
                  keeps_bind hW.toAlong (keeps_writeData hW _ _) fun _ =>
                    keeps_bind hW.toAlong (keeps_setSeq hW.seq _) fun _ =>
                      keeps_pure hW.toAlong _)
          (keeps_raise hW.toAlong _ _ _))
        (keeps_raise hW.toAlong _ _ _)

end

end Sys2Proof.Machine
end

