-- ==== Sys2Proof/Laws/Causal.lean ====
section
/-! SUPPORT. What an operation does depends on the levels of the ticks it takes and on no later level
(00_scope.md R11; log 5), said once per piece of pseudocode. -/

namespace Sys2Proof.Machine

/-- The machine with the line `l` to come. -/
def State.onRx (s : State) (l : Line) : State := { s with io := { s.io with rx := l } }

@[simp] theorem State.onRx_busy (s : State) (l : Line) : (s.onRx l).busy = s.busy := rfl
@[simp] theorem State.onRx_params (s : State) (l : Line) : (s.onRx l).params = s.params := rfl
@[simp] theorem State.onRx_resetNow (s : State) (l : Line) : (s.onRx l).resetNow = s.resetNow := rfl
@[simp] theorem State.onRx_expired (s : State) (l : Line) (m : Option Nat) :
    (s.onRx l).expired m = s.expired m := rfl
@[simp] theorem State.onRx_now (s : State) (l : Line) : (s.onRx l).io.now = s.io.now := rfl

theorem State.onRx_serve (s : State) (l : Line) : (s.onRx l).serve = s.serve.onRx l := by
  unfold State.serve State.onRx State.hostWrite
  simp only
  cases s.io.host.head? with
  | none => rfl
  | some r =>
    cases r with
    | write a n v =>
      simp only
      split
      · rfl
      · cases regAt a n <;> rfl
    | _ => rfl

theorem State.onRx_pass (s : State) (l : Line) : (s.onRx l).pass = s.pass.onRx l.next := by
  unfold State.pass
  rw [State.onRx_serve]
  rfl

/-- `n` ticks of an operation passed from `s` to `t`. -/
structure Passed (s t : State) (n : Nat) : Prop where
  busy : t.busy = s.busy
  rx : t.io.rx = s.io.rx.after n
  now : t.io.now = s.io.now + .ofNat 64 n
  pins : t.io.pins.length = s.io.pins.length + n

theorem Passed.refl (s : State) : Passed s s 0 := ⟨rfl, rfl, by simp, rfl⟩

theorem Passed.trans {s t u : State} {m n : Nat} (h : Passed s t m) (h' : Passed t u n) :
    Passed s u (m + n) where
  busy := h'.busy.trans h.busy
  rx := by rw [h'.rx, h.rx, Line.after_add]
  now := by rw [h'.now, h.now, BitVec.ofNat_add, BitVec.add_assoc]
  pins := by rw [h'.pins, h.pins, Nat.add_assoc]

theorem passed_pass {s : State} (hb : s.busy = true) : Passed s s.pass 1 :=
  have h := pass_spent hb
  ⟨h.busy, h.rx, h.now, by rw [h.pins]; simp⟩

/-- The line `l` shows the next `k` levels of the line of `s`. -/
def Agrees (k : Nat) (s : State) (l : Line) : Prop := ∀ j, j < k → (l.after j).level = s.rxAt j

theorem Agrees.later {k n : Nat} {s t : State} {l : Line} (h : Agrees (n + k) s l)
    (hp : Passed s t n) : Agrees k t (l.after n) := by
  intro j hj
  rw [Line.after_add, h _ (by omega)]
  simp only [State.rxAt, hp.rx, Line.after_add]

theorem Agrees.mono {k m : Nat} {s : State} {l : Line} (h : Agrees k s l) (hm : m ≤ k) :
    Agrees m s l := fun j hj => h j (by omega)

/-- `x`, an end of `m` from `s`, is the end of `m` on every line that agrees for as many ticks. -/
def CausalAt {α : Type} (m : Engine α) (s : State) : Prop :=
  (∀ a t, m s = .ok a t → ∃ n, Passed s t n ∧
    (n < 2 ^ 64 → ∀ l, Agrees n s l → m (s.onRx l) = .ok a (t.onRx (l.after n)))) ∧
  ∀ e t, m s = .error (.raised e) t → ∃ n, Passed s t n ∧
    (n < 2 ^ 64 → ∀ l, Agrees n s l → m (s.onRx l) = .error (.raised e) (t.onRx (l.after n)))

/-- Where it completes or ends by an error, `m` has read no level beyond the ticks it took. -/
def Causal {α : Type} (m : Engine α) : Prop := ∀ s, s.busy = true → CausalAt m s

section
variable {α β : Type}

theorem causal_of_ok {m : Engine α} {a : α} {f : State → State} (hm : ∀ s, m s = .ok a (f s))
    (hf : ∀ s l, f (s.onRx l) = (f s).onRx l) (hi : ∀ s, (f s).io = s.io)
    (hb : ∀ s, (f s).busy = s.busy) : Causal m := by
  intro s _
  refine ⟨fun b t h => ?_, fun e t h => ?_⟩ <;> rw [hm] at h <;> cases h
  exact ⟨0, ⟨hb s, by rw [hi]; rfl, by simp [hi], by rw [hi]; rfl⟩, fun _ l _ => by rw [hm, hf]; rfl⟩

theorem causal_pure (a : α) : Causal (pure a : Engine α) :=
  causal_of_ok (f := id) (fun _ => rfl) (fun _ _ => rfl) (fun _ => rfl) fun _ => rfl

theorem causal_modify {f : State → State} (hf : ∀ s l, f (s.onRx l) = (f s).onRx l)
    (hi : ∀ s, (f s).io = s.io) (hb : ∀ s, (f s).busy = s.busy) : Causal (modify f : Engine Unit) :=
  causal_of_ok (fun _ => rfl) hf hi hb

theorem causal_raise (c : ErrCode) (f : ErrField) (i : Byte) : Causal (raise c f i : Engine α) := by
  intro s _
  refine ⟨fun b t h => ?_, fun e t h => ?_⟩ <;> rw [raise_apply] at h <;> cases h
  exact ⟨0, .refl s, fun _ l _ => rfl⟩

theorem causal_bind {x : Engine α} {f : α → Engine β} (hx : Causal x) (hf : ∀ a, Causal (f a)) :
    Causal (x >>= f) := by
  intro s hb
  obtain ⟨h1, h2⟩ := hx s hb
  cases hs : x s with
  | ok a t =>
    obtain ⟨n, hp, hc⟩ := h1 a t hs
    obtain ⟨k1, k2⟩ := hf a t (hp.busy.trans hb)
    refine ⟨fun b u h => ?_, fun e u h => ?_⟩ <;> rw [engine_bind_ok hs] at h
    · obtain ⟨m, hq, hd⟩ := k1 b u h
      refine ⟨n + m, hp.trans hq, fun hlt l hl => ?_⟩
      rw [engine_bind_ok (hc (by omega) l (hl.mono (by omega))), hd (by omega) _ (hl.later hp),
        Line.after_add]
    · obtain ⟨m, hq, hd⟩ := k2 e u h
      refine ⟨n + m, hp.trans hq, fun hlt l hl => ?_⟩
      rw [engine_bind_ok (hc (by omega) l (hl.mono (by omega))), hd (by omega) _ (hl.later hp),
        Line.after_add]
  | error e t =>
    refine ⟨fun b u h => ?_, fun e' u h => ?_⟩ <;> rw [engine_bind_error hs] at h <;> cases h
    obtain ⟨n, hp, hc⟩ := h2 e' t hs
    exact ⟨n, hp, fun hlt l hl => engine_bind_error (hc hlt l hl)⟩

/-- A piece that reads the state, but not its line. -/
theorem causal_get {f : State → Engine β} (hl : ∀ s l, f (s.onRx l) = f s) (hf : ∀ s, Causal (f s)) :
    Causal (get >>= f) := by
  intro s hb
  obtain ⟨h1, h2⟩ := hf s s hb
  have e : ∀ u : State, (get >>= f) u = f u u := fun u => by simp
  refine ⟨fun b t h => ?_, fun e' t h => ?_⟩ <;> rw [e] at h
  · obtain ⟨n, hp, hc⟩ := h1 b t h
    exact ⟨n, hp, fun hlt l h => by rw [e, hl]; exact hc hlt l h⟩
  · obtain ⟨n, hp, hc⟩ := h2 e' t h
    exact ⟨n, hp, fun hlt l h => by rw [e, hl]; exact hc hlt l h⟩

theorem causal_ite {c : Prop} [Decidable c] {x y : Engine α} (hx : Causal x) (hy : Causal y) :
    Causal (if c then x else y) := by
  split
  · exact hx
  · exact hy

theorem causal_onlyIf (c : Bool) {x : Engine Unit} (hx : Causal x) : Causal (onlyIf c x) :=
  causal_ite hx (causal_pure _)

theorem causal_elapse : Causal elapse := by
  intro s hb
  by_cases h : s.resetNow = true
  · refine ⟨fun b t hs => ?_, fun e t hs => ?_⟩ <;> rw [elapse_of_reset s h] at hs <;> cases hs
  · have h : s.resetNow = false := by simpa using h
    refine ⟨fun b t hs => ?_, fun e t hs => ?_⟩ <;> rw [elapse_of_not_reset s h] at hs <;> cases hs
    exact ⟨1, passed_pass hb, fun _ l _ => by
      rw [elapse_of_not_reset _ (by simpa using h), State.onRx_pass]; rfl⟩

theorem causal_sample : Causal sample := by
  intro s hb
  by_cases h : s.resetNow = true
  · refine ⟨fun b t hs => ?_, fun e t hs => ?_⟩ <;> rw [sample_of_reset s h] at hs <;> cases hs
  · have h : s.resetNow = false := by simpa using h
    refine ⟨fun b t hs => ?_, fun e t hs => ?_⟩ <;> rw [sample_of_not_reset s h] at hs <;> cases hs
    refine ⟨1, passed_pass hb, fun _ l hl => ?_⟩
    rw [sample_of_not_reset _ (by simpa using h), State.onRx_pass]
    have : (s.onRx l).rxNow = s.rxNow := by rw [rxNow_eq, rxNow_eq, ← hl 0 (by omega)]; rfl
    rw [this]
    rfl

theorem causal_delay (n : Nat) : Causal (delay n) := by
  induction n with
  | zero => exact causal_pure _
  | succ n ih => exact causal_bind causal_elapse fun _ => ih

end

/-! ### The Codec -/

theorem causal_setSeqBit (n : Nat) : Causal (setSeqBit n) :=
  causal_modify
    (fun s l => by
      show (if s.seq.state = .idle then _ else _) = _
      split <;> rfl)
    (fun s => by by_cases h : s.seq.state = .idle <;> simp [h])
    fun s => by by_cases h : s.seq.state = .idle <;> simp [h]

/-- One turn of the loop of `WaitLevel` before its deadline. -/
theorem waitLoop_turn (x : Level) (pl : Place) (f : Nat) {s : State}
    (he : s.expired s.params.tWaitMax = false) (hr : s.resetNow = false) :
    waitLoop x pl (f + 1) s = if s.rxNow = x then .ok s.io.now s.pass else waitLoop x pl f s.pass := by
  simp only [waitLoop, engine_bind, engine_get, he, Bool.false_eq_true, if_false,
    sample_of_not_reset s hr]
  split <;> rfl

/-- The loop of `WaitLevel`, `e` ticks after `T_S`: what it has seen when it ends, and that it ends so
with as many turns as it took, on every line that agrees. -/
theorem waitLoop_causal (x : Level) (pl : Place) (f : Nat) : ∀ (e : Nat) (s : State), s.busy = true →
    s.io.now = s.tS + .ofNat 64 e →
    (∀ a t, waitLoop x pl f s = .ok a t → ∃ n, Passed s t (n + 1) ∧
      (∀ j, j < n → s.rxAt j ≠ x) ∧ s.rxAt n = x ∧
      ∀ l f', Agrees (n + 1) s l → n < f' →
        waitLoop x pl f' (s.onRx l) = .ok a (t.onRx (l.after (n + 1)))) ∧
    ∀ c t, waitLoop x pl f s = .error (.raised c) t → ∃ n, Passed s t n ∧
      (e + n < 2 ^ 64 → ∃ m, s.params.tWaitMax = some m ∧ (n = 0 ∨ e + n ≤ m)) ∧
      ∀ l f', Agrees n s l → n < f' →
        waitLoop x pl f' (s.onRx l) = .error (.raised c) (t.onRx (l.after n)) := by
  induction f with
  | zero =>
    intro e s _ _
    refine ⟨fun a t h => ?_, fun c t h => ?_⟩ <;> cases h
  | succ f ih =>
    intro e s hb hnow
    by_cases he : s.expired s.params.tWaitMax = true
    · refine ⟨fun a t h => ?_, fun c t h => ?_⟩ <;>
        simp only [waitLoop, engine_bind, engine_get, he, if_true, raise_apply] at h <;> cases h
      refine ⟨0, .refl s, fun _ => ?_, fun l f' _ hf => ?_⟩
      · cases hm : s.params.tWaitMax with
        | none => rw [hm] at he; cases he
        | some m => exact ⟨m, rfl, .inl rfl⟩
      · obtain ⟨f', rfl⟩ : ∃ g, f' = g + 1 := ⟨f' - 1, by omega⟩
        simp [waitLoop, he]
    · have he : s.expired s.params.tWaitMax = false := by simpa using he
      by_cases hr : s.resetNow = true
      · refine ⟨fun a t h => ?_, fun c t h => ?_⟩ <;>
          simp only [waitLoop, engine_bind, engine_get, he, Bool.false_eq_true, if_false,
            sample_of_reset s hr] at h <;> cases h
      · have hr : s.resetNow = false := by simpa using hr
        have hlt : ∀ m, s.params.tWaitMax = some m → e < 2 ^ 64 → e < m := by
          intro m hm hlt
          rw [hm] at he
          by_contra hc
          have := ticksBetween_add s.tS (a := 0) hlt
          simp only [BitVec.add_zero, Nat.zero_add] at this
          simp [State.expired, hnow, this] at he
          omega
        have hrun : ∀ (l : Line) (f' : Nat), (s.onRx l).rxNow = s.rxNow →
            waitLoop x pl (f' + 1) (s.onRx l) = if s.rxNow = x then .ok s.io.now (s.pass.onRx l.next)
              else waitLoop x pl f' (s.pass.onRx l.next) := by
          intro l f' h
          rw [waitLoop_turn x pl f' (s := s.onRx l) he hr, h, State.onRx_pass]
          rfl
        have hself := waitLoop_turn x pl f he hr
        have hag : ∀ (l : Line) (n : Nat), Agrees (n + 1) s l → (s.onRx l).rxNow = s.rxNow := by
          intro l n hl
          rw [rxNow_eq, rxNow_eq, ← hl 0 (by omega)]
          rfl
        have hp := passed_pass hb
        have hrx : ∀ j, s.pass.rxAt j = s.rxAt (j + 1) := fun j => by
          rw [(pass_spent hb).rxAt, List.length_singleton, Nat.add_comm]
        by_cases hx : s.rxNow = x
        · rw [if_pos hx] at hself
          refine ⟨fun a t h => ?_, fun c t h => ?_⟩ <;> rw [hself] at h <;> cases h
          refine ⟨0, hp, by omega, hx, fun l f' hl hf => ?_⟩
          obtain ⟨f', rfl⟩ : ∃ g, f' = g + 1 := ⟨f' - 1, by omega⟩
          rw [hrun l f' (hag l 0 hl), if_pos hx]
          rfl
        · rw [if_neg hx] at hself
          obtain ⟨h1, h2⟩ := ih (e + 1) s.pass (hp.busy.trans hb)
            (by rw [hp.now, hnow, State.pass_tS, BitVec.add_assoc, ← BitVec.ofNat_add])
          rw [hself]
          refine ⟨fun a t h => ?_, fun c t h => ?_⟩
          · obtain ⟨n, hq, hj, hn, hc⟩ := h1 a t h
            refine ⟨n + 1, by rw [Nat.add_comm]; exact hp.trans hq, fun j hlt => ?_, ?_, ?_⟩
            · cases j with
              | zero => exact hx
              | succ j => rw [← hrx]; exact hj j (by omega)
            · rw [← hrx]; exact hn
            · intro l f' hl hf
              obtain ⟨f', rfl⟩ : ∃ g, f' = g + 1 := ⟨f' - 1, by omega⟩
              rw [hrun l f' (hag l _ hl), if_neg hx]
              exact hc l.next f' (Agrees.later (n := 1) (by rw [Nat.add_comm]; exact hl) hp) (by omega)
          · obtain ⟨n, hq, hm, hc⟩ := h2 c t h
            refine ⟨n + 1, by rw [Nat.add_comm]; exact hp.trans hq, fun hlt' => ?_, ?_⟩
            · obtain ⟨m, hm, ho⟩ := hm (by omega)
              rw [State.pass_params] at hm
              have := hlt m hm (by omega)
              exact ⟨m, hm, .inr (by omega)⟩
            · intro l f' hl hf
              obtain ⟨f', rfl⟩ : ∃ g, f' = g + 1 := ⟨f' - 1, by omega⟩
              rw [hrun l f' (hag l _ hl), if_neg hx]
              exact hc l.next f' (Agrees.later (n := 1) (by rw [Nat.add_comm]; exact hl) hp) (by omega)

theorem causal_waitLevel (x : Level) (pl : Place) : Causal (waitLevel x pl) := by
  intro s hb
  have e : ∀ u : State, waitLevel x pl u =
      waitLoop x pl (u.turns u.params.tWaitMax) { u with tS := u.io.now } := fun u => by
    simp [waitLevel, markWait]
    rfl
  obtain ⟨h1, h2⟩ := waitLoop_causal x pl (s.turns s.params.tWaitMax) 0
    { s with tS := s.io.now } hb (by simp)
  refine ⟨fun a t h => ?_, fun c t h => ?_⟩ <;> rw [e] at h
  · obtain ⟨n, hp, hj, hn, hc⟩ := h1 a t h
    refine ⟨n + 1, ⟨hp.busy, hp.rx, hp.now, hp.pins⟩, fun _ l hl => ?_⟩
    rw [e]
    refine hc l _ hl ((first_lt_horizon (s := s.onRx l) (l := x) (fun j hlt => ?_) ?_).trans
      (horizon_lt_turns _ _))
    · exact fun he => hj j hlt ((hl j (by omega)).symm.trans he)
    · exact (hl n (by omega)).trans hn
  · obtain ⟨n, hp, hm, hc⟩ := h2 c t h
    refine ⟨n, ⟨hp.busy, hp.rx, hp.now, hp.pins⟩, fun hlt l hl => ?_⟩
    rw [e]
    obtain ⟨m, hm, ho⟩ := hm (by omega)
    refine hc l _ hl ?_
    exact Nat.lt_of_le_of_lt (by omega) (deadline_lt_turns (s.onRx l) hm)

theorem causal_rxPulse (pl : Place) : Causal (rxPulse pl) :=
  causal_bind (causal_waitLevel _ _) fun _ =>
    causal_bind (causal_modify (fun _ _ => rfl) (fun _ => rfl) fun _ => rfl) fun _ =>
      causal_bind (causal_waitLevel _ _) fun _ => causal_get (fun _ _ => rfl) fun _ => causal_pure _

theorem causal_rxStart : Causal rxStart :=
  causal_bind (causal_rxPulse _) fun _ => causal_get (fun _ _ => rfl) fun _ => causal_pure _

theorem causal_rxBit (pl : Place) : Causal (rxBit pl) :=
  causal_bind (causal_rxPulse _) fun _ => causal_get (fun _ _ => rfl) fun _ => causal_pure _

theorem causal_rxBits (n : Nat) (pl : Place) : Causal (rxBits n pl) := by
  have hl : ∀ n, Causal (rxBitsLoop pl n) := by
    intro n
    induction n with
    | zero => exact causal_pure _
    | succ n ih =>
      exact causal_bind (causal_rxBit _) fun _ =>
        causal_bind (causal_modify (fun _ _ => rfl) (fun _ => rfl) fun _ => rfl) fun _ =>
          causal_bind (causal_setSeqBit _) fun _ => ih
  exact causal_bind (causal_modify (fun _ _ => rfl) (fun _ => rfl) fun _ => rfl) fun _ =>
    causal_bind (causal_setSeqBit _) fun _ =>
      causal_bind (hl n) fun _ => causal_get (fun _ _ => rfl) fun _ => causal_pure _

theorem causal_rxAck (pl : Place) : Causal (rxAck pl) :=
  causal_bind (causal_rxBit _) fun _ => causal_pure _

theorem causal_busFreeLoop (n : Nat) : Causal (busFreeLoop n) := by
  induction n with
  | zero => exact causal_pure _
  | succ n ih => exact causal_bind causal_sample fun _ => causal_ite (causal_pure _) ih

theorem causal_busFree : Causal busFree :=
  causal_get (fun _ _ => rfl) fun _ => causal_busFreeLoop _

theorem causal_drive (l : Level) (n : Nat) : Causal (drive l n) :=
  causal_ite (causal_pure _) <|
    causal_bind (causal_modify (fun _ _ => rfl) (fun _ => rfl) fun _ => rfl) fun _ => causal_delay _

theorem causal_txStart : Causal txStart :=
  causal_get (fun _ _ => rfl) fun _ => causal_bind (causal_drive _ _) fun _ => causal_drive _ _

theorem causal_txBit (b : Bool) : Causal (txBit b) :=
  causal_get (fun _ _ => rfl) fun _ => causal_bind (causal_drive _ _) fun _ => causal_drive _ _

theorem causal_txBits (v : Half) (n : Nat) : Causal (txBits v n) := by
  have hl : ∀ n, Causal (txBitsLoop n) := by
    intro n
    induction n with
    | zero => exact causal_pure _
    | succ n ih =>
      exact causal_get (fun _ _ => rfl) fun _ => causal_bind (causal_txBit _) fun _ =>
        causal_bind (causal_setSeqBit _) fun _ => ih
  exact causal_bind (causal_modify (fun _ _ => rfl) (fun _ => rfl) fun _ => rfl) fun _ =>
    causal_bind (causal_setSeqBit _) fun _ => hl n

theorem causal_txAck (a : Ack) : Causal (txAck a) := causal_txBit _

/-! ### The Framer -/

theorem causal_answer (a : Ack) : Causal (answer a) :=
  causal_get (fun _ _ => rfl) fun _ => causal_bind (causal_drive _ _) fun _ => causal_txAck _

theorem causal_rxField (n : Nat) (f : ErrField) (i : Byte) : Causal (rxField n f i) :=
  causal_bind (causal_rxBits _ _) fun _ =>
    causal_bind (causal_rxBit _) fun _ =>
      causal_bind
        (causal_onlyIf _ (causal_modify (fun _ _ => rfl) (fun _ => rfl) fun _ => rfl)) fun _ =>
        causal_get (fun _ _ => rfl) fun _ =>
          causal_ite
            (causal_bind (causal_onlyIf _ (causal_answer _)) fun _ => causal_pure _)
            (causal_bind (causal_onlyIf _ (causal_answer _)) fun _ => causal_raise _ _ _)

theorem causal_txField (v : Half) (n : Nat) (f : ErrField) (i : Byte) : Causal (txField v n f i) :=
  causal_bind (causal_txBits _ _) fun _ =>
    causal_bind (causal_txBit _) fun _ =>
      causal_get (fun _ _ => rfl) fun _ =>
        causal_ite
          (causal_bind (causal_rxAck _) fun a => by
            cases a
            · exact causal_pure _
            · exact causal_raise _ _ _)
          (causal_pure _)

/-- What a bus test has seen when it ends (41_codec_receive.md R123). -/
theorem busFreeLoop_seen (n : Nat) : ∀ (s : State), s.busy = true → ∀ b t,
    busFreeLoop n s = .ok b t → t.tS = s.tS ∧
      (b = true → Passed s t n ∧ ∀ j, j < n → s.rxAt j = .inactive) ∧
      (b = false → ∃ j, j < n ∧ Passed s t (j + 1) ∧ s.rxAt j = .active) := by
  induction n with
  | zero => intro s _ b t h; cases h; exact ⟨rfl, fun _ => ⟨.refl s, by omega⟩, nofun⟩
  | succ n ih =>
    intro s hb b t h
    by_cases hr : s.resetNow = true
    · simp only [busFreeLoop, engine_bind, sample_of_reset s hr] at h
      cases h
    · have hr : s.resetNow = false := by simpa using hr
      have hp := passed_pass hb
      have hrx : ∀ j, s.pass.rxAt j = s.rxAt (j + 1) := fun j => by
        rw [(pass_spent hb).rxAt, List.length_singleton, Nat.add_comm]
      by_cases hx : s.rxNow = .active
      · simp only [busFreeLoop, engine_bind, sample_of_not_reset s hr, hx, if_true] at h
        cases h
        exact ⟨by simp, nofun, fun _ => ⟨0, by omega, hp, hx⟩⟩
      · simp only [busFreeLoop, engine_bind, sample_of_not_reset s hr, hx, if_false] at h
        obtain ⟨h0, h1, h2⟩ := ih s.pass (hp.busy.trans hb) b t h
        refine ⟨by rw [h0, State.pass_tS], fun hb' => ?_, fun hb' => ?_⟩
        · obtain ⟨hq, hj⟩ := h1 hb'
          refine ⟨by rw [Nat.add_comm]; exact hp.trans hq, fun j hlt => ?_⟩
          cases j with
          | zero => cases hl : s.rxNow with
            | inactive => exact hl
            | active => exact absurd hl hx
          | succ j => rw [← hrx]; exact hj j (by omega)
        · obtain ⟨j, hj, hq, ha⟩ := h2 hb'
          exact ⟨j + 1, by omega, by rw [Nat.add_comm]; exact hp.trans hq, by rw [← hrx]; exact ha⟩

/-- A bus test never ends by an error, and keeps the parameters. -/
theorem busFreeLoop_ends (n : Nat) : ∀ s : State,
    (∀ b t, busFreeLoop n s = .ok b t → t.params = s.params) ∧
    ∀ c t, busFreeLoop n s ≠ .error (.raised c) t := by
  induction n with
  | zero => exact fun s => ⟨fun b t h => by injection h with _ h; rw [h], fun c t h => (by cases h)⟩
  | succ n ih =>
    intro s
    by_cases hr : s.resetNow = true
    · refine ⟨fun b t h => ?_, fun c t h => ?_⟩ <;>
        simp only [busFreeLoop, engine_bind, sample_of_reset s hr] at h <;> cases h
    · have hr : s.resetNow = false := by simpa using hr
      simp only [busFreeLoop, engine_bind, sample_of_not_reset s hr]
      split
      · exact ⟨fun b t h => by injection h with _ h; rw [← h, State.pass_params], fun c t h => (by cases h)⟩
      · exact ⟨fun b t h => by rw [(ih s.pass).1 b t h, State.pass_params], (ih s.pass).2⟩

/-- The loop of `WaitBusFree`, `e` ticks after `T_S`: how many turns it takes at most, and that it ends
so with as many, on every line that agrees. -/
theorem waitBusFreeLoop_causal (f : Nat) : ∀ (e : Nat) (s : State), s.busy = true →
    s.io.now = s.tS + .ofNat 64 e →
    (∀ t, waitBusFreeLoop f s = .ok () t → ∃ d, Passed s t (d + s.params.tBit) ∧
      (∀ j, j < s.params.tBit → s.rxAt (d + j) = .inactive) ∧
      (∀ i, i < d → ∃ j, j < s.params.tBit ∧ s.rxAt (i + j) = .active) ∧
      (d + s.params.tBit < 2 ^ 64 → ∀ l f', Agrees (d + s.params.tBit) s l → d < f' →
        waitBusFreeLoop f' (s.onRx l) = .ok () (t.onRx (l.after (d + s.params.tBit))))) ∧
    ∀ c t, waitBusFreeLoop f s = .error (.raised c) t → ∃ n, Passed s t n ∧
      (e + n < 2 ^ 64 → ∃ m, s.params.tBusFreeMax = some m ∧
        ∀ l f', Agrees n s l → m ≤ e + f' → 1 ≤ f' →
          waitBusFreeLoop f' (s.onRx l) = .error (.raised c) (t.onRx (l.after n))) := by
  induction f with
  | zero =>
    intro e s _ _
    refine ⟨fun t h => ?_, fun c t h => ?_⟩ <;> cases h
  | succ f ih =>
    intro e s hb hnow
    have hturn : ∀ (g : Nat) (u : State), waitBusFreeLoop (g + 1) u =
        match busFree u with
        | .ok true t => .ok () t
        | .ok false t => if t.expired t.params.tBusFreeMax then
            .error (.raised ⟨.busBusy, .none, 0⟩) t else waitBusFreeLoop g t
        | .error c t => .error c t := by
      intro g u
      simp only [waitBusFreeLoop, engine_bind]
      cases hu : busFree u with
      | error c t => rfl
      | ok b t =>
        cases b with
        | true => rfl
        | false =>
          simp only [Bool.false_eq_true, if_false, engine_bind, engine_get]
          split <;> rfl
    rw [hturn f s]
    cases hs : busFree s with
    | error c t =>
      refine ⟨fun t h => (by cases h), fun c' t' h => ?_⟩
      cases h
      exact absurd hs ((busFreeLoop_ends s.params.tBit s).2 _ _)
    | ok b t =>
      obtain ⟨k, hk, hc⟩ := (causal_busFree s hb).1 b t hs
      obtain ⟨htS, h1, h2⟩ := busFreeLoop_seen s.params.tBit s hb b t hs
      cases b with
      | true =>
        obtain ⟨hp, hj⟩ := h1 rfl
        obtain rfl : k = s.params.tBit := by have := hk.pins; have := hp.pins; omega
        refine ⟨fun u h => ?_, fun c u h => (by cases h)⟩
        cases h
        refine ⟨0, by simpa using hp, by simpa using hj, by omega, fun hlt l f' hl hf => ?_⟩
        obtain ⟨f', rfl⟩ : ∃ g, f' = g + 1 := ⟨f' - 1, by omega⟩
        simp only [Nat.zero_add] at hlt hl ⊢
        rw [hturn, hc hlt l hl]
      | false =>
        obtain ⟨j, hj, hp, ha⟩ := h2 rfl
        obtain rfl : k = j + 1 := by have := hk.pins; have := hp.pins; omega
        have hpar : t.params = s.params := (busFreeLoop_ends s.params.tBit s).1 false t hs
        have hnow' : t.io.now = t.tS + .ofNat 64 (e + (j + 1)) := by
          rw [hp.now, htS, hnow, BitVec.add_assoc, ← BitVec.ofNat_add]
        have hrun : ∀ (l : Line) (g : Nat), j + 1 < 2 ^ 64 → Agrees (j + 1) s l →
            waitBusFreeLoop (g + 1) (s.onRx l) = if t.expired t.params.tBusFreeMax then
              .error (.raised ⟨.busBusy, .none, 0⟩) (t.onRx (l.after (j + 1)))
              else waitBusFreeLoop g (t.onRx (l.after (j + 1))) := by
          intro l g hlt hl
          rw [hturn, hc hlt l hl]
          rfl
        by_cases hx : t.expired t.params.tBusFreeMax = true
        · simp only [hx, if_true] at hrun ⊢
          refine ⟨fun u h => (by cases h), fun c u h => ?_⟩
          cases h
          refine ⟨j + 1, hp, fun hlt => ?_⟩
          cases hm : s.params.tBusFreeMax with
          | none => rw [hpar, hm] at hx; cases hx
          | some m =>
            refine ⟨m, rfl, fun l f' hl _ hf => ?_⟩
            obtain ⟨f', rfl⟩ : ∃ g, f' = g + 1 := ⟨f' - 1, by omega⟩
            exact hrun l f' (by omega) hl
        · have hx : t.expired t.params.tBusFreeMax = false := by simpa using hx
          simp only [hx, Bool.false_eq_true, if_false] at hrun ⊢
          obtain ⟨k1, k2⟩ := ih (e + (j + 1)) t (hp.busy.trans hb) hnow'
          have hrx : ∀ i, t.rxAt i = s.rxAt (j + 1 + i) := fun i => by
            simp only [State.rxAt, hp.rx, Line.after_add]
          rw [hpar] at k1 k2
          refine ⟨fun u h => ?_, fun c u h => ?_⟩
          · obtain ⟨d, hq, hfree, hfirst, hd⟩ := k1 u h
            refine ⟨j + 1 + d, by rw [Nat.add_assoc]; exact hp.trans hq, fun i hi => ?_,
              fun i hi => ?_, fun hlt l f' hl hf => ?_⟩
            · rw [Nat.add_assoc, ← hrx]
              exact hfree i hi
            · by_cases hij : i ≤ j
              · exact ⟨j - i, by omega, by rw [Nat.add_sub_cancel' hij]; exact ha⟩
              · obtain ⟨i', hi', ha'⟩ := hfirst (i - (j + 1)) (by omega)
                refine ⟨i', hi', ?_⟩
                rw [hrx, show j + 1 + (i - (j + 1) + i') = i + i' by omega] at ha'
                exact ha'
            · obtain ⟨f', rfl⟩ : ∃ g, f' = g + 1 := ⟨f' - 1, by omega⟩
              rw [Nat.add_assoc] at hl ⊢
              rw [hrun l f' (by omega) (hl.mono (by omega)),
                hd (by omega) _ f' (hl.later hp) (by omega), Line.after_add]
          · obtain ⟨n, hq, hm⟩ := k2 c u h
            refine ⟨j + 1 + n, hp.trans hq, fun hlt => ?_⟩
            obtain ⟨m, hm, hd⟩ := hm (by omega)
            have hem : e + (j + 1) < m := by
              by_contra hcon
              rw [hpar, hm] at hx
              have := ticksBetween_add t.tS (a := 0) (b := e + (j + 1)) (by omega)
              simp only [BitVec.add_zero, Nat.zero_add] at this
              simp [State.expired, hnow', this] at hx
              omega
            refine ⟨m, hm, fun l f' hl hf hf1 => ?_⟩
            obtain ⟨f', rfl⟩ : ∃ g, f' = g + 1 := ⟨f' - 1, by omega⟩
            rw [hrun l f' (by omega) (hl.mono (by omega)),
              hd _ f' (hl.later hp) (by omega) (by omega), Line.after_add]

theorem causal_waitBusFree : Causal waitBusFree := by
  intro s hb
  have e : ∀ u : State, waitBusFree u =
      waitBusFreeLoop (u.turns u.params.tBusFreeMax) { u with tS := u.io.now } := fun u => by
    simp [waitBusFree, markWait]
    rfl
  obtain ⟨h1, h2⟩ := waitBusFreeLoop_causal (s.turns s.params.tBusFreeMax) 0
    { s with tS := s.io.now } hb (by simp)
  refine ⟨fun a t h => ?_, fun c t h => ?_⟩ <;> rw [e] at h
  · obtain ⟨d, hp, hfree, hfirst, hc⟩ := h1 t h
    refine ⟨d + s.params.tBit, ⟨hp.busy, hp.rx, hp.now, hp.pins⟩, fun hlt l hl => ?_⟩
    rw [e]
    refine hc hlt l _ hl (Nat.lt_trans ?_ (horizon_lt_turns (s.onRx l) _))
    refine free_lt_horizon (p := { s.params with tBusFreeMax := none })
      ⟨fun j hj => (hl (d + j) (by change j < s.params.tBit at hj; omega)).trans (hfree j hj),
        fun i hi => ?_, nofun⟩
    obtain ⟨j, hj, ha⟩ := hfirst i hi
    change j < s.params.tBit at hj
    exact ⟨j, hj, (hl (i + j) (by omega)).trans ha⟩
  · obtain ⟨n, hp, hm⟩ := h2 c t h
    refine ⟨n, ⟨hp.busy, hp.rx, hp.now, hp.pins⟩, fun hlt l hl => ?_⟩
    obtain ⟨m, hm, hc⟩ := hm (by omega)
    rw [e]
    have := deadline_lt_turns (s.onRx l) hm
    exact hc l _ hl (by rw [Nat.zero_add]; exact this.le) (by
      have := horizon_lt_turns (s.onRx l) s.params.tBusFreeMax
      exact Nat.lt_of_le_of_lt (Nat.zero_le _) this)

theorem causal_setSeq (st : SeqState) : Causal (setSeq st) :=
  causal_modify (fun _ _ => rfl) (fun _ => rfl) fun _ => rfl

theorem causal_setSeqData (i : Byte) : Causal (setSeqData i) :=
  causal_modify (fun _ _ => rfl) (fun _ => rfl) fun _ => rfl

theorem causal_setWork (f : Message → Message) : Causal (setWork f) :=
  causal_modify (fun _ _ => rfl) (fun _ => rfl) fun _ => rfl

theorem causal_readData (k : Nat) : ∀ i, Causal (readData k i) := by
  induction k with
  | zero => exact fun _ => causal_pure _
  | succ k ih =>
    exact fun i => causal_bind (causal_setSeqData _) fun _ =>
      causal_bind (causal_rxField _ _ _) fun _ => causal_bind (causal_setWork _) fun _ => ih _

theorem causal_readAddress : Causal readAddress :=
  causal_bind (causal_setSeq _) fun _ =>
    causal_bind (causal_rxField _ _ _) fun _ =>
      causal_bind (causal_setWork _) fun _ =>
        causal_bind (causal_setSeq _) fun _ =>
          causal_bind (causal_rxField _ _ _) fun _ =>
            causal_bind (causal_setWork _) fun _ =>
              causal_bind (causal_setSeq _) fun _ =>
                causal_bind (causal_rxField _ _ _) fun _ => causal_setWork _

/-- READMSG reads no level beyond the ticks it takes. -/
theorem causal_readMsg : Causal readMsg :=
  causal_bind (causal_modify (fun _ _ => rfl) (fun _ => rfl) fun _ => rfl) fun _ =>
    causal_get (fun _ _ => rfl) fun _ =>
      causal_ite
        (causal_bind
          (causal_bind (causal_setSeq _) fun _ => causal_bind causal_rxStart fun _ =>
            causal_ite (causal_pure _) (causal_raise _ _ _)) fun _ =>
          causal_bind
            (causal_bind (causal_setSeq _) fun _ => causal_bind (causal_rxBit _) fun _ =>
              causal_get (fun _ _ => rfl) fun _ => causal_setWork _) fun _ =>
            causal_bind causal_readAddress fun _ =>
              causal_bind
                (causal_bind (causal_setSeq _) fun _ => causal_bind (causal_rxField _ _ _) fun _ =>
                  causal_setWork _) fun _ =>
                causal_get (fun _ _ => rfl) fun _ =>
                  causal_bind (causal_readData _ _) fun _ =>
                    causal_bind
                      (causal_bind (causal_setSeq _) fun _ =>
                        (causal_modify (fun _ _ => rfl) (fun _ => rfl) fun _ => rfl)) fun _ => causal_pure _)
        (causal_raise _ _ _)

theorem causal_writeStart : Causal writeStart :=
  causal_bind (causal_setSeq _) fun _ =>
    causal_bind causal_waitBusFree fun _ =>
      causal_bind (causal_setSeq _) fun _ =>
        causal_bind causal_txStart fun _ =>
          causal_bind (causal_setSeq _) fun _ => causal_get (fun _ _ => rfl) fun _ => causal_txBit _

theorem causal_writeHeader : Causal writeHeader :=
  causal_bind (causal_setSeq _) fun _ => causal_get (fun _ _ => rfl) fun _ =>
    causal_bind (causal_txField _ _ _ _) fun _ =>
      causal_bind (causal_setSeq _) fun _ => causal_get (fun _ _ => rfl) fun _ =>
        causal_bind (causal_txField _ _ _ _) fun _ =>
          causal_bind (causal_setSeq _) fun _ => causal_get (fun _ _ => rfl) fun _ =>
            causal_bind (causal_txField _ _ _ _) fun _ =>
              causal_bind (causal_setSeq _) fun _ => causal_get (fun _ _ => rfl) fun _ =>
                causal_txField _ _ _ _

theorem causal_writeData (k : Nat) : ∀ i, Causal (writeData k i) := by
  induction k with
  | zero => exact fun _ => causal_pure _
  | succ k ih =>
    exact fun i => causal_bind (causal_setSeqData _) fun _ =>
      causal_get (fun _ _ => rfl) fun _ =>
        causal_bind (causal_txField _ _ _ _) fun _ => ih _

/-- WRITEMSG reads no level beyond the ticks it takes. -/
theorem causal_writeMsg : Causal writeMsg :=
  causal_bind (causal_modify (fun _ _ => rfl) (fun _ => rfl) fun _ => rfl) fun _ =>
    causal_get (fun _ _ => rfl) fun _ =>
      causal_ite
        (causal_ite
          (causal_bind (causal_modify (fun _ _ => rfl) (fun _ => rfl) fun _ => rfl) fun _ =>
            causal_bind causal_writeStart fun _ =>
              causal_bind causal_writeHeader fun _ =>
                causal_get (fun _ _ => rfl) fun _ =>
                  causal_bind (causal_writeData _ _) fun _ =>
                    causal_bind (causal_setSeq _) fun _ => causal_pure _)
          (causal_raise _ _ _))
        (causal_raise _ _ _)

end Sys2Proof.Machine
end

