-- ==== Sys2Proof/Laws/Operands.lean ====
section
/-! SUPPORT. The payload file, the commit and the register map, each said once. -/

namespace Sys2Proof.Machine

/-! ### The payload file -/

@[simp] theorem Message.setByte_bt (m : Message) (i : Nat) (b : Byte) : (m.setByte i b).bt = m.bt := rfl
@[simp] theorem Message.setByte_master (m : Message) (i : Nat) (b : Byte) :
    (m.setByte i b).master = m.master := rfl
@[simp] theorem Message.setByte_slave (m : Message) (i : Nat) (b : Byte) :
    (m.setByte i b).slave = m.slave := rfl
@[simp] theorem Message.setByte_ctrl (m : Message) (i : Nat) (b : Byte) :
    (m.setByte i b).ctrl = m.ctrl := rfl
@[simp] theorem Message.setByte_len (m : Message) (i : Nat) (b : Byte) :
    (m.setByte i b).len = m.len := rfl

/-- A payload element reads as it was last written (10_state.md R23). -/
theorem Message.byteAt_setByte (m : Message) (i j : Nat) (b : Byte) :
    (m.setByte i b).byteAt j = if i = j ∧ j < 256 then b else m.byteAt j := by
  unfold Message.byteAt Message.setByte
  rw [Vector.getElem?_setIfInBounds]
  by_cases h : i = j
  · subst h
    by_cases hi : i < 256 <;> simp [hi]
  · simp [h]

/-- The copy of the first `n` elements (44_framer_read.md R170). -/
theorem Message.byteAt_copyBytes (m w : Message) (n j : Nat) (hn : n ≤ 256) :
    (m.copyBytes w n).byteAt j = if j < n then w.byteAt j else m.byteAt j := by
  induction n with
  | zero => simp [Message.copyBytes]
  | succ n ih =>
    rw [Message.copyBytes, Message.byteAt_setByte, ih (by omega)]
    split_ifs <;> first | rfl | omega | (rename_i h _; rw [h.1])

@[simp] theorem Message.commit_bt (m w : Message) : (m.commit w).bt = w.bt := rfl
@[simp] theorem Message.commit_master (m w : Message) : (m.commit w).master = w.master := rfl
@[simp] theorem Message.commit_slave (m w : Message) : (m.commit w).slave = w.slave := rfl
@[simp] theorem Message.commit_ctrl (m w : Message) : (m.commit w).ctrl = w.ctrl := rfl
@[simp] theorem Message.commit_len (m w : Message) : (m.commit w).len = w.len := rfl

/-- The commit takes the elements the frame has and keeps the others (44_framer_read.md R179). -/
theorem Message.byteAt_commit (m w : Message) (j : Nat) (h : w.len.toNat ≤ 256) :
    (m.commit w).byteAt j = if j < w.len.toNat then w.byteAt j else m.byteAt j :=
  Message.byteAt_copyBytes m w _ j h

/-! ### The length field -/

/-- The length that is sent is the length that is received (30_encoding.md R88). -/
theorem lenOfWire_wireOfLen {len : BitVec 9} (h : legalLen len = true) :
    lenOfWire (wireOfLen len) = len := by
  revert len
  decide

/-! ### The register map -/

/-- The accesses that reach a payload element (20_memory.md R70). -/
theorem regAt_payload (i : Nat) (h : i < 256) : regAt (0x400 + 4 * i) 4 = some (.payload i) := by
  unfold regAt
  rw [if_neg (by omega), if_pos (by omega)]
  congr 2
  omega

/-- An access that is misaligned, narrow or outside the map reaches no register (20_memory.md R65). -/
theorem regAt_of_bad {addr size : Nat} (h : size ≠ 4 ∨ addr % 4 ≠ 0 ∨ 0x7FC < addr) :
    regAt addr size = none := by
  unfold regAt
  by_cases h1 : size ≠ 4 ∨ addr % 4 ≠ 0
  · rw [if_pos h1]
  · rw [if_neg h1, if_neg (by omega)]
    split <;> first | rfl | omega

/-- Only `CMD` starts an operation (20_memory.md R71). -/
theorem regAt_cmd_iff (addr size : Nat) : regAt addr size = some .cmd ↔ addr = 0 ∧ size = 4 := by
  constructor
  · intro h
    unfold regAt at h
    split at h
    · cases h
    · split at h
      · cases h
      · split at h <;> first | (injection h with h; cases h; done) | (refine ⟨rfl, ?_⟩; omega) | cases h
  · rintro ⟨rfl, rfl⟩
    rfl

/-- Everything a host write can do outside `CMD`: the message registers, as the map says
(20_memory.md R69, R70, R75). -/
theorem State.hostWrite_eq (s : State) (addr size : Nat) (v : Word) :
    s.hostWrite addr size v = { s with
      msg := if s.busy then s.msg
        else match regAt addr size with
          | some r => s.msg.regWrite v r
          | none => s.msg } := by
  unfold State.hostWrite
  split
  · rfl
  · cases regAt addr size <;> rfl

end Sys2Proof.Machine
end

