-- ==== Sys2Proof/Laws/PerInstr.lean ====
section
/-! SUPPORT. One lemma per operation: the word it is encoded as is selected by its own row of the
command table (30_encoding.md R92). -/

namespace Sys2Proof.Laws.EncodedByItsRow

open Sys2Proof.Machine

/-- The command word of a well-formed operation is one that its row of R92 selects. -/
def Statement (i : Instr) : Prop :=
  i.wf = true → ∃ r ∈ commandTable, r.mnemonic = mnemonicOf i ∧ r.selects (encode i)

theorem of_closed {i : Instr} (r : CommandRow) (hr : r ∈ commandTable) (hm : r.mnemonic = mnemonicOf i)
    (hb : encode i &&& r.mask = r.matchBits) (hc : r.counted = false) : Statement i :=
  fun _ => ⟨r, hr, hm, hb, by simp [hc]⟩

theorem enable : Statement .enable :=
  of_closed ⟨"ENABLE", 0x01000000, 0xFFFFFFFF, false⟩ (by simp [commandTable]) rfl (by decide) rfl

theorem disable : Statement .disable :=
  of_closed ⟨"DISABLE", 0x02000000, 0xFFFFFFFF, false⟩ (by simp [commandTable]) rfl (by decide) rfl

theorem isen : Statement .isen :=
  of_closed ⟨"ISEN", 0x03000000, 0xFFFFFFFF, false⟩ (by simp [commandTable]) rfl (by decide) rfl

theorem busfree : Statement .busfree :=
  of_closed ⟨"BUSFREE", 0x04000000, 0xFFFFFFFF, false⟩ (by simp [commandTable]) rfl (by decide) rfl

theorem rxstart : Statement .rxstart :=
  of_closed ⟨"RXSTART", 0x10000000, 0xFFFFFFFF, false⟩ (by simp [commandTable]) rfl (by decide) rfl

theorem rxbit : Statement .rxbit :=
  of_closed ⟨"RXBIT", 0x11000000, 0xFFFFFFFF, false⟩ (by simp [commandTable]) rfl (by decide) rfl

theorem rxbits (n : BitVec 5) : Statement (.rxbits n) := by
  intro h
  refine ⟨⟨"RXBITS", 0x12000000, 0xFFE0FFFF, true⟩, by simp [commandTable], rfl, ?_, fun _ => ?_⟩
  · revert n
    decide
  · revert n
    decide

theorem rxack : Statement .rxack :=
  of_closed ⟨"RXACK", 0x13000000, 0xFFFFFFFF, false⟩ (by simp [commandTable]) rfl (by decide) rfl

theorem txstart : Statement .txstart :=
  of_closed ⟨"TXSTART", 0x20000000, 0xFFFFFFFF, false⟩ (by simp [commandTable]) rfl (by decide) rfl

theorem txbit (b : Bool) : Statement (.txbit b) :=
  of_closed ⟨"TXBIT", 0x21000000, 0xFFFFFFFE, false⟩ (by simp [commandTable]) rfl
    (by cases b <;> decide) rfl

/-- The fields of a command word of TXBITS, as numbers. -/
theorem txbits_toNat (v : Half) (n : BitVec 5) :
    (encode (.txbits v n)).toNat = 0x22000000 + n.toNat * 2 ^ 16 + v.toNat := by
  have hn := n.isLt
  have hv := v.isLt
  simp only [encode, commandWord, BitVec.toNat_append]
  rw [← Nat.shiftLeft_add_eq_or_of_lt hv, ← Nat.shiftLeft_add_eq_or_of_lt hn,
    ← Nat.shiftLeft_add_eq_or_of_lt (by decide)]
  simp only [Nat.shiftLeft_eq, show BitVec.toNat (34 : BitVec 8) = 34 from rfl,
    show BitVec.toNat (0 : BitVec 3) = 0 from rfl]
  omega

theorem txbits (v : Half) (n : BitVec 5) : Statement (.txbits v n) := by
  intro h
  have hn := n.isLt
  have hv := v.isLt
  refine ⟨⟨"TXBITS", 0x22000000, 0xFFE00000, true⟩, by simp [commandTable], rfl, ?_, fun _ => ?_⟩
  · apply BitVec.eq_of_getLsbD_eq
    intro i hi
    simp only [encode, commandWord, BitVec.getLsbD_and, BitVec.getLsbD_append]
    by_cases h1 : i < 16
    · rw [if_pos h1]
      interval_cases i <;> simp
    · by_cases h2 : i < 21
      · rw [if_neg h1, if_pos (by omega)]
        interval_cases i <;> simp
      · interval_cases i <;> simp
  · rw [txbits_toNat]
    simp only [Instr.wf, legalCount, nMax, Bool.and_eq_true, decide_eq_true_eq] at h
    have hq : (0x22000000 + n.toNat * 2 ^ 16 + v.toNat) / 2 ^ 16 = 0x2200 + n.toNat := by omega
    rw [hq]
    obtain ⟨h1, h2⟩ := h
    have h2' : n.toNat ≤ 16 := of_decide_eq_true h2
    omega

theorem txack (a : Ack) : Statement (.txack a) :=
  of_closed ⟨"TXACK", 0x23000000, 0xFFFFFFFE, false⟩ (by simp [commandTable]) rfl
    (by cases a <;> decide) rfl

theorem readmsg : Statement .readmsg :=
  of_closed ⟨"READMSG", 0x30000000, 0xFFFFFFFF, false⟩ (by simp [commandTable]) rfl (by decide) rfl

theorem writemsg : Statement .writemsg :=
  of_closed ⟨"WRITEMSG", 0x31000000, 0xFFFFFFFF, false⟩ (by simp [commandTable]) rfl (by decide) rfl

end Sys2Proof.Laws.EncodedByItsRow
end

