-- ==== Sys2Proof/Laws/Waves.lean ====
section
/-! SUPPORT. Lines that carry given bits, fields, frames and answers, each as short as the rules allow:
they show that what Safety.lean says about a line can be met, for every legal profile and Message. -/

namespace Sys2Proof.Machine

/-- The line that shows `l` and rests afterwards (30_encoding.md R98). -/
def onLine (l : List Level) (k : Nat) : Level := l.getD k .inactive

theorem onLine_right (a b : List Level) (k : Nat) : onLine (a ++ b) (a.length + k) = onLine b k := by
  simp [onLine, List.getD_eq_getElem?_getD, List.getElem?_append_right (Nat.le_add_right _ _)]

theorem onLine_left (a b : List Level) {k : Nat} (h : k < a.length) :
    onLine (a ++ b) k = onLine a k := by
  simp [onLine, List.getD_eq_getElem?_getD, List.getElem?_append_left h]

theorem onLine_replicate (n k : Nat) (l : Level) (b : List Level) (h : k < n) :
    onLine (List.replicate n l ++ b) k = l := by
  rw [onLine_left _ _ (by simpa using h)]
  simp [onLine, List.getD_eq_getElem?_getD, h]

/-- A pulse that begins `g` ticks after the prefix `a`. -/
theorem pulseAt_line (p : Params) (a b : List Level) (g H : Nat) (hH : 1 ≤ H)
    (h1 : Within p.tWaitMax (g + 1)) (h2 : Within p.tWaitMax H) (h3 : H < 2 ^ 64) :
    PulseAt p (onLine (a ++ (List.replicate g .inactive ++
      (List.replicate H .active ++ .inactive :: b)))) a.length g H where
  gap k hk := by rw [onLine_right, onLine_replicate _ _ _ _ hk]
  active k hk := by
    rw [Nat.add_assoc, onLine_right]
    have := onLine_right (List.replicate g .inactive)
      (List.replicate H .active ++ .inactive :: b) k
    rw [List.length_replicate] at this
    rw [this, onLine_replicate _ _ _ _ hk]
  stop := by
    rw [Nat.add_assoc, onLine_right]
    have h := onLine_right (List.replicate g .inactive)
      (List.replicate H .active ++ .inactive :: b) H
    rw [List.length_replicate] at h
    rw [h]
    have h' := onLine_right (List.replicate H Level.active) (.inactive :: b) 0
    rw [List.length_replicate, Nat.add_zero] at h'
    rw [h']
    rfl
  pos := hH
  startInTime := h1
  stopInTime := h2
  clock := h3

/-- The canonical width of a symbol is read as that symbol (41_codec_receive.md R129). -/
theorem isSymbol_highOf {p : Params} (hp : p.wf = true) (b : Bool) : IsSymbol p (highOf p b) b := by
  have hne := (wf_iff p).mp hp
  unfold IsSymbol highOf
  cases b with
  | false => simp
  | true =>
    simp only [if_true, Bool.true_eq_false, false_iff, sub_self, abs_zero, abs_nonpos_iff]
    omega

theorem Within.mono {max : Option Nat} {m n : Nat} (h : Within max n) (hm : m ≤ n) : Within max m :=
  fun k hk => hm.trans (h k hk)

/-- A data bit at once: its pulse and one tick of rest. -/
def tightBit (p : Params) (b : Bool) : List Level := List.replicate (highOf p b) .active ++ [.inactive]

theorem bitAt_line {p : Params} (hp : p.wf = true) (hw : Within p.tWaitMax p.tBit)
    (hc : p.tStartTotal < 2 ^ 64) (a c : List Level)
    (b : Bool) : BitAt p (onLine (a ++ (tightBit p b ++ c))) b a.length (tightBit p b).length := by
  have h1 := highOf_pos hp b
  have h2 := highOf_lt hp b
  refine ⟨0, highOf p b, ?_, isSymbol_highOf hp b, by simp [tightBit]⟩
  have := pulseAt_line p a c 0 (highOf p b) h1 (hw.mono (by omega)) (hw.mono (by omega))
    (by have := (wf_iff p).mp hp; omega)
  simpa [tightBit] using this

/-- Data bits at once. -/
def tightBits (p : Params) (bs : List Bool) : List Level := bs.flatMap (tightBit p)

theorem bitsAt_line {p : Params} (hp : p.wf = true) (hw : Within p.tWaitMax p.tBit)
    (hc : p.tStartTotal < 2 ^ 64) (bs : List Bool) :
    ∀ a c : List Level,
      BitsAt p (onLine (a ++ (tightBits p bs ++ c))) bs a.length (tightBits p bs).length := by
  induction bs with
  | nil => exact fun a c => rfl
  | cons b bs ih =>
    intro a c
    refine ⟨(tightBit p b).length, (tightBits p bs).length, ?_, ?_, by simp [tightBits]⟩
    · have := bitAt_line hp hw hc a (tightBits p bs ++ c) b
      simpa [tightBits] using this
    · have := ih (a ++ tightBit p b) c
      simpa [tightBits] using this

/-- A field at once, with a slot left for the answer where one is owed. -/
def tightField (p : Params) (owed : Bool) (v : Half) (n : Nat) : List Level :=
  tightBits p (bitsOf v n) ++ (tightBit p (parity v n) ++
    List.replicate (if owed then p.tAckDelay + p.tBit else 0) .inactive)

theorem fieldAt_line {p : Params} (hp : p.wf = true) (hw : Within p.tWaitMax p.tBit)
    (hc : p.tStartTotal < 2 ^ 64) (owed : Bool)
    (v : Half) (n : Nat) (a c : List Level) :
    ∃ w, FieldAt p (onLine (a ++ (tightField p owed v n ++ c))) owed v n a.length w ∧
      w.length = (tightField p owed v n).length := by
  refine ⟨_, ⟨(tightBits p (bitsOf v n)).length, (tightBit p (parity v n)).length, ?_, ?_, rfl⟩, ?_⟩
  · have := bitsAt_line hp hw hc (bitsOf v n) a (tightBit p (parity v n) ++
      List.replicate (if owed then p.tAckDelay + p.tBit else 0) .inactive ++ c)
    simpa [tightField] using this
  · have := bitAt_line hp hw hc (a ++ tightBits p (bitsOf v n))
      (List.replicate (if owed then p.tAckDelay + p.tBit else 0) .inactive ++ c) (parity v n)
    simpa [tightField] using this
  · cases owed
    · simp [tightField]
    · simp [tightField, answerWave, bitWave_length hp, Nat.add_assoc]

/-- Fields at once. -/
def tightFields (p : Params) (owed : Bool) (fs : List (Half × Nat)) : List Level :=
  fs.flatMap fun f => tightField p owed f.1 f.2

theorem fieldsAt_line {p : Params} (hp : p.wf = true) (hw : Within p.tWaitMax p.tBit)
    (hc : p.tStartTotal < 2 ^ 64) (owed : Bool)
    (fs : List (Half × Nat)) : ∀ a c : List Level,
      ∃ w, FieldsAt p (onLine (a ++ (tightFields p owed fs ++ c))) owed fs a.length w ∧
        w.length = (tightFields p owed fs).length := by
  induction fs with
  | nil => exact fun a c => ⟨[], rfl, rfl⟩
  | cons f fs ih =>
    intro a c
    obtain ⟨w, h, hl⟩ := fieldAt_line hp hw hc owed f.1 f.2 a (tightFields p owed fs ++ c)
    obtain ⟨w', h', hl'⟩ := ih (a ++ tightField p owed f.1 f.2) c
    refine ⟨w ++ w', ⟨w, w', ?_, ?_, rfl⟩, by simp [hl, hl', tightFields]⟩
    · simpa [tightFields] using h
    · rw [hl]
      simpa [tightFields] using h'

/-- A frame's head at once. -/
def tightHead (p : Params) (m : Message) : List Level :=
  List.replicate p.tStartHigh .active ++ .inactive ::
    (tightBit p (symbolOfBType p m.bt) ++ tightField p false (m.master.setWidth 16) 12)

theorem inStartWindow_tStartHigh (p : Params) : InStartWindow p p.tStartHigh := by
  unfold InStartWindow
  omega

theorem headAt_line {p : Params} (hp : p.wf = true) (hw : Within p.tWaitMax p.tBit)
    (hc : p.tStartTotal < 2 ^ 64) (m : Message)
    (c : List Level) : HeadAt p (onLine (tightHead p m ++ c)) m (tightHead p m).length := by
  have hwf := (wf_iff p).mp hp
  have hws : Within p.tWaitMax (p.tStartHigh + p.startTol) := by
    intro k hk
    have := hwf.2.2.2.2.2.2.2.2.2.2.2
    simp only [Params.waitExceeds, hk, decide_eq_true_eq] at this
    exact this.le
  obtain ⟨w, h, hl⟩ := fieldAt_line hp hw hc false (m.master.setWidth 16) 12
    (List.replicate p.tStartHigh .active ++ [.inactive] ++ tightBit p (symbolOfBType p m.bt)) c
  refine ⟨0, p.tStartHigh, (tightBit p (symbolOfBType p m.bt)).length, w, ?_,
    inStartWindow_tStartHigh p, ?_, ?_, ?_⟩
  · have := pulseAt_line p [] (tightBit p (symbolOfBType p m.bt) ++
      (tightField p false (m.master.setWidth 16) 12 ++ c)) 0 p.tStartHigh hwf.1
      (hws.mono (by omega)) (hws.mono (by omega)) (by omega)
    simpa [tightHead] using this
  · have := bitAt_line hp hw hc (List.replicate p.tStartHigh .active ++ [.inactive])
      (tightField p false (m.master.setWidth 16) 12 ++ c) (symbolOfBType p m.bt)
    simpa [tightHead] using this
  · simpa [tightHead, Nat.add_assoc, Nat.add_comm 1] using h
  · simp [tightHead, hl]
    omega

/-- A whole frame at once. -/
def tightFrame (p : Params) (m : Message) : List Level :=
  tightHead p m ++ tightFields p (owedFor p m.bt m.slave) (eligibleFields m)

theorem frameAt_line {p : Params} (hp : p.wf = true) (hw : Within p.tWaitMax p.tBit)
    (hc : p.tStartTotal < 2 ^ 64) (m : Message) :
    ∃ w, FrameAt p (onLine (tightFrame p m)) m w := by
  obtain ⟨w, h, -⟩ := fieldsAt_line hp hw hc (owedFor p m.bt m.slave) (eligibleFields m) (tightHead p m) []
  exact ⟨_, (tightHead p m).length, w, headAt_line hp hw hc m _, by simpa [tightFrame] using h, rfl⟩

/-- The line of a writer whose fields are answered at once. -/
def tightAnswers (p : Params) (fs : List (Half × Nat)) : List Level :=
  fs.flatMap fun f => List.replicate ((f.2 + 1) * p.tBit) .inactive ++ tightBit p false

theorem answeredAt_line {p : Params} (hp : p.wf = true) (hw : Within p.tWaitMax p.tBit)
    (hc : p.tStartTotal < 2 ^ 64)
    (fs : List (Half × Nat)) : ∀ a c : List Level,
      ∃ w, AnsweredAt p (onLine (a ++ (tightAnswers p fs ++ c))) fs a.length w ∧
        w.length = (tightAnswers p fs).length := by
  induction fs with
  | nil => exact fun a c => ⟨[], rfl, rfl⟩
  | cons f fs ih =>
    intro a c
    obtain ⟨w', h', hl'⟩ := ih
      (a ++ (List.replicate ((f.2 + 1) * p.tBit) .inactive ++ tightBit p false)) c
    refine ⟨_, ⟨(tightBit p false).length, w', ?_, ?_, rfl⟩, ?_⟩
    · have := bitAt_line hp hw hc (a ++ List.replicate ((f.2 + 1) * p.tBit) .inactive)
        (tightAnswers p fs ++ c) false
      simpa [tightAnswers] using this
    · simpa [tightAnswers, Nat.add_assoc] using h'
    · simp [tightAnswers, fieldWave, bitsWave_length hp, hl']

/-- A line that rests for `T_BIT` ticks is free at once. -/
theorem freeAt_line (p : Params) (c : List Level) :
    FreeAt p (onLine (List.replicate p.tBit .inactive ++ c)) 0 where
  free k hk := by rw [Nat.zero_add, onLine_replicate _ _ _ _ hk]
  first e he := absurd he (Nat.not_lt_zero e)
  inTime _ _ := .inl rfl

end Sys2Proof.Machine
end

