-- ==== Sys2Proof/Tests/Slice0.lean ====
section
/-! SUPPORT. Tests of the model against the words and numbers of the spec, and one witness for the
hypotheses of every statement of Certificates/Slice0/Obligations.lean. Expected values are those of
95_test_vectors.md and of the rules named. -/

namespace Sys2Proof.Tests

open Sys2Proof.Machine

/-! ### Well-formedness (30_encoding.md R91, R93) -/

theorem test_rxbits_zero_is_ill_formed : (Instr.rxbits 0).wf = false := by decide
theorem test_rxbits_17_is_ill_formed : (Instr.rxbits 17).wf = false := by decide
theorem test_txbits_zero_is_ill_formed : (Instr.txbits 5 0).wf = false := by decide
theorem test_txbits_31_is_ill_formed : (Instr.txbits 0xFFFF 31).wf = false := by decide
theorem test_counts_1_and_16_are_legal :
    (Instr.rxbits 1).wf = true ∧ (Instr.txbits 0xFFFF 16).wf = true := by decide

/-! ### Decoding: words written out from 30_encoding.md R90 to R92 and 95_test_vectors.md 2.1 to 2.5 -/

theorem test_decode_gate :
    decode 0x01000000 = .ok .enable ∧ decode 0x02000000 = .ok .disable ∧
      decode 0x03000000 = .ok .isen := ⟨rfl, rfl, rfl⟩

theorem test_decode_receive :
    decode 0x04000000 = .ok .busfree ∧ decode 0x10000000 = .ok .rxstart ∧
      decode 0x11000000 = .ok .rxbit ∧ decode 0x12040000 = .ok (.rxbits 4) ∧
      decode 0x12100000 = .ok (.rxbits 16) ∧ decode 0x13000000 = .ok .rxack :=
  ⟨rfl, rfl, rfl, rfl, rfl, rfl⟩

theorem test_decode_transmit :
    decode 0x20000000 = .ok .txstart ∧ decode 0x21000000 = .ok (.txbit false) ∧
      decode 0x21000001 = .ok (.txbit true) ∧ decode 0x2204FFF2 = .ok (.txbits 0xFFF2 4) ∧
      decode 0x22108001 = .ok (.txbits 0x8001 16) ∧ decode 0x23000000 = .ok (.txack .acknowledged) ∧
      decode 0x23000001 = .ok (.txack .rejected) := ⟨rfl, rfl, rfl, rfl, rfl, rfl, rfl⟩

theorem test_decode_framer :
    decode 0x30000000 = .ok .readmsg ∧ decode 0x31000000 = .ok .writemsg := ⟨rfl, rfl⟩

/-- The illegal words of 95_test_vectors.md 2.2. -/
theorem test_decode_illegal_words :
    decode 0x00000000 = .error .unknownOpcode ∧ decode 0x05000000 = .error .unknownOpcode ∧
      decode 0x01000001 = .error .reservedBits ∧ decode 0x12000000 = .error .badCount ∧
      decode 0x12110000 = .error .badCount ∧ decode 0x12240000 = .error .reservedBits ∧
      decode 0x21000002 = .error .reservedBits ∧ decode 0x22000005 = .error .badCount ∧
      decode 0x30000001 = .error .reservedBits :=
  ⟨rfl, rfl, rfl, rfl, rfl, rfl, rfl, rfl, rfl⟩

theorem test_table_word : decodeTableWord 32 0x220C0456 = some (.txbits 0x456 12) ∧
    decodeTableWord 32 0x12000000 = none := ⟨rfl, rfl⟩

/-! ### Helpers: a node, a waveform, and what the host would read -/

/-- A node with the profile `p`, enabled, idle, that will see the line `l` and then rest. -/
def node (p : Params) (l : List Level) : State :=
  { State.resetOf p with en := true, io := { Io.quiet with rx := ⟨l, .inactive, []⟩ } }

/-- A waveform from run lengths (30_encoding.md R98). -/
def wave (l : List (Level × Nat)) : List Level := l.flatMap fun r => List.replicate r.2 r.1

/-- `A<k>` -/
def A (k : Nat) : Level × Nat := (.active, k)

/-- `I<k>` -/
def I (k : Nat) : Level × Nat := (.inactive, k)

/-- What a vector of 95_test_vectors.md states of a completion. -/
structure View where
  now : Tick
  status : Word
  result : Word
  err : Word
deriving DecidableEq, Repr

/-- The completion of an operation, as the host sees it. -/
def view : Host.Outcome State Fault Refusal → Option View
  | .next s => some ⟨s.io.now, s.hostRead 4 4, s.hostRead 8 4, s.hostRead 0xC 4⟩
  | .fault _ => none
  | .refused _ => none

/-- The completion state of an operation. -/
def after (i : Instr) (s : State) : State :=
  match exec i s with
  | .next t => t
  | .fault _ => s
  | .refused _ => s

/-- The waveform an operation drives. -/
def driven (i : Instr) (s : State) : List Level := drivenSince s (after i s)

/-! ### Vectors of 95_test_vectors.md 2.1: the gate -/

theorem test_enable : view (exec .enable State.reset) = some ⟨0, 0xD, 0, 0⟩ := by decide
theorem test_disable : view (exec .disable (node .ref [])) = some ⟨0, 0xC, 0, 0⟩ := by decide
theorem test_isen_after_reset : view (exec .isen State.reset) = some ⟨0, 0xC, 0, 0⟩ := by decide
theorem test_isen_enabled : view (exec .isen (node .ref [])) = some ⟨0, 0xD, 1, 0⟩ := by decide

/-! ### 2.2, 2.3: illegal words, BUSFREE -/

/-- 0x05000000 at tick 0: the operation's start tick is 1. -/
theorem test_illegal_word : view (step (State.reset.withFetchWord 32 0x05000000)) =
    some ⟨1, 0x4, 0, 0x07⟩ := by decide
theorem test_busfree_last_sample : view (exec .busfree (node .ref (wave [I 38, A 1]))) =
    some ⟨39, 0x5, 0, 0⟩ := by decide
theorem test_busfree_just_after : view (exec .busfree (node .ref (wave [I 39, A 1]))) =
    some ⟨39, 0xD, 1, 0⟩ := by decide

/-! ### 2.4: the receive side -/

theorem test_rxstart_upper_end : view (exec .rxstart (node .ref (wave [I 7, A 191, I 50]))) =
    some ⟨199, 0xD, 1, 0⟩ := by decide +kernel
theorem test_rxstart_too_long : view (exec .rxstart (node .ref (wave [I 7, A 192, I 50]))) =
    some ⟨200, 0x5, 0, 0x12⟩ := by decide +kernel
theorem test_rxbit_26 : view (exec .rxbit (node .ref (wave [I 3, A 26, I 5]))) =
    some ⟨30, 0xD, 1, 0⟩ := by decide
/-- The exact tie of the second profile of 2.4. -/
theorem test_rxbit_tie :
    view (exec .rxbit (node { Params.ref with tBit := 40, tHigh0 := 32 } (wave [I 3, A 26, I 5]))) =
      some ⟨30, 0xD, 0, 0⟩ := by decide
theorem test_rxbits_msb_first :
    view (exec (.rxbits 4) (node .ref (wave [I 5, A 20, I 19, A 33, I 6, A 20, I 19, A 20, I 19]))) =
      some ⟨143, 0xD, 0xB, 0⟩ := by decide +kernel
/-- Two pulses only, with a deadline of 192 ticks in place of 1000: 192 samples from tick 78 on. -/
theorem test_rxbits_timeout :
    view (exec (.rxbits 4) (node { Params.ref with tWaitMax := some 192 }
      (wave [I 5, A 20, I 19, A 33, I 6]))) = some ⟨270, 0x5, 0, 0x05⟩ := by decide +kernel
theorem test_rxack_rejected : view (exec .rxack (node .ref (wave [A 15, I 5]))) =
    some ⟨16, 0xD, 1, 0⟩ := by decide
theorem test_rxack_acknowledged : view (exec .rxack (node .ref (wave [A 28, I 5]))) =
    some ⟨29, 0xD, 0, 0⟩ := by decide

/-! ### 2.5: the transmit side and parity -/

theorem test_txstart : view (exec .txstart (node .ref [])) = some ⟨190, 0xD, 0, 0⟩ ∧
    driven .txstart (node .ref []) = wave [A 171, I 19] := by decide +kernel
theorem test_txbit_while_disabled : view (exec (.txbit true) State.reset) = some ⟨39, 0xC, 0, 0⟩ ∧
    driven (.txbit true) State.reset = wave [A 20, I 19] := by decide
theorem test_txbits_low_bits : view (exec (.txbits 0xFFF2 4) (node .ref [])) = some ⟨156, 0xD, 0, 0⟩ ∧
    driven (.txbits 0xFFF2 4) (node .ref []) = wave [A 33, I 6, A 33, I 6, A 20, I 19, A 33, I 6] := by
  decide +kernel
theorem test_txack : driven (.txack .acknowledged) (node .ref []) = wave [A 33, I 6] ∧
    driven (.txack .rejected) (node .ref []) = wave [A 20, I 19] := by decide
theorem test_parity : parity 0x456 12 = true ∧ parity 0x123 12 = false ∧ parity 0xAB 8 = true ∧
    parity 0x100 8 = false ∧ parity 0xFFF 12 = false := by decide

/-! ### 2.6, 2.7 and the source's scenarios: the Framer -/

/-- A field value as full slots under `P_REF`. -/
def slots (v n : Nat) : List (Level × Nat) :=
  (List.range n).reverse.flatMap fun i => if v.testBit i then [A 20, I 19] else [A 33, I 6]

/-- S1, the source's first scenario. -/
def s1Line : List Level :=
  wave ([I 10, A 171, I 19, A 20, I 19] ++ slots 0x456 12 ++ [A 20, I 19] ++ slots 0x123 12 ++
    [A 33, I 45] ++ slots 0x2 4 ++ [A 20, I 58] ++ slots 0x01 8 ++ [A 20, I 58] ++ slots 0xAB 8 ++
    [A 20, I 58])

/-- What a read shows besides: `MSG_ADDR`, `MSG_CTL`, `P[0]` and the waveform driven. -/
def readView (s : State) : Option (View × Word × Word × Word × List Level) :=
  match exec .readmsg s with
  | .next t => (view (.next t)).map fun v =>
      (v, t.hostRead 0x14 4, t.hostRead 0x18 4, t.hostRead 0x400 4, drivenSince s t)
  | .fault _ => none
  | .refused _ => none

theorem test_readmsg_s1 :
    readView (node .ref s1Line) =
      some (⟨2288, 0xD, 0, 0⟩, 0x01230456, 0x00010102, 0xAB,
        wave [I 1248, A 33, I 188, A 33, I 357, A 33, I 357, A 33, I 6]) := by decide +kernel

/-- F5: a data pulse first. -/
theorem test_readmsg_not_a_start_bit :
    view (exec .readmsg (node .ref (wave [I 10, A 33, I 6, A 171, I 19]))) =
      some ⟨44, 0x5, 0, 0x12⟩ := by decide +kernel

/-- S4, the source's fourth scenario: the Message `D M456 S123 C2 L1 [AB]`. -/
def s4Node : State :=
  { node .ref (wave [I 1284, A 33, I 198, A 20]) with
    msg := ({ Message.zero with
      bt := .forDevice, master := 0x456, slave := 0x123, ctrl := 2, len := 1 }).setByte 0 0xAB }

/-- Only the start, the end and the result of the waveform are compared. -/
theorem test_writemsg_s4 :
    (match exec .writemsg s4Node with
      | .next t => (view (.next t), (drivenSince s4Node t).take 268, (drivenSince s4Node t).drop 1474)
      | .fault _ => (none, [], [])
      | .refused _ => (none, [], [])) =
    (some ⟨1536, 0x5, 0, 0x54⟩, wave [I 39, A 171, I 19, A 20, I 19], wave [A 20, I 42]) := by
  decide +kernel

/-- W5: a length of 0. -/
theorem test_writemsg_invalid :
    view (exec .writemsg { s4Node with msg := { s4Node.msg with len := 0 } }) =
      some ⟨0, 0x5, 0, 0x68⟩ := by decide

/-! ### 2.8: the host interface -/

/-- A machine whose host makes the requests `h`. -/
def asked (h : List HostReq) : State := { State.reset with io := { Io.quiet with host := h } }

/-- What the host reads at `addr` after the step. -/
def readBack (addr : Nat) (s : State) : Option Word :=
  match step s with
  | .next t => some (t.hostRead addr 4)
  | .fault _ => none
  | .refused _ => none

theorem test_host_writes :
    readBack 0x14 (asked [.write 0x14 4 0xFFFFFFFF]) = some 0x0FFF0FFF ∧
      readBack 0x18 (asked [.write 0x18 4 0xFFFFFFFF]) = some 0x01FF010F ∧
      readBack 0x40C (asked [.write 0x40C 4 0x12345678]) = some 0x78 ∧
      readBack 0x400 (asked [.write 0x402 4 0x5]) = some 0 := by decide +kernel

/-- TXBIT 1 with a host that reads `STATUS`, writes a second command and a payload byte meanwhile. -/
def talkative : State :=
  asked [.write 0 4 0x21000001, .read 4 4, .write 0 4 0x01000000, .write 0x400 4 5, .wait]

theorem test_host_during_operation :
    view (step talkative) = some ⟨40, 0xC, 0, 0⟩ ∧ readBack 0x400 talkative = some 0 := by
  decide +kernel

/-! ### Two nodes: the first ticks of program P4 of 95_test_vectors.md (a shorter value) -/

theorem test_two_nodes :
    view (exec (.rxbits 3) (node .ref
      (List.replicate 5 .inactive ++ lineOf [after (.txbits 5 3) (node .ref []), node .ref []] 117))) =
      some ⟨104, 0xD, 5, 0⟩ := by decide +kernel

/-! ### Witnesses: concrete states and operands that meet the hypotheses of each statement

The profile `tiny` keeps the lines short; its start window is 0 to 172. -/

/-- A legal profile with the shortest pulses. -/
def tiny : Params where
  tStartHigh := 86
  tStartTotal := 88
  startTol := 86
  tBit := 3
  tHigh0 := 2
  tHigh1 := 1
  tWaitMax := some 200
  tBusFreeMax := some 10
  tAckDelay := 1
  fdSymbol := true
  localAddr := 0x123

/-- The same without deadlines. -/
def patient : Params := { tiny with tWaitMax := none, tBusFreeMax := none }

/-- The same bit timing at another address, with other deadlines. -/
def stranger : Params := { tiny with localAddr := 0x456, tWaitMax := some 500, tBusFreeMax := none }

theorem stranger_sameTiming : SameTiming tiny stranger := ⟨rfl, rfl, rfl, rfl, rfl, rfl⟩

/-- Every operation answers, and `after` is its answer. -/
theorem exec_after (i : Instr) (s : State) : exec i s = .next (after i s) := by
  have h : ∃ t, exec i s = .next t := by
    cases i <;>
      simp only [exec, execEnable, execDisable, execIsen, execBusfree, execRxstart, execRxbit,
        execRxbits, execRxack, execTxstart, execTxbit, execTxbits, execTxack, execReadmsg,
        execWritemsg] <;>
      exact operate_answers _ _
  obtain ⟨t, h⟩ := h
  simp [after, h]

theorem exec_answers (i : Instr) (s : State) : ∃ t, exec i s = .next t := ⟨_, exec_after i s⟩

theorem tiny_wf : tiny.wf = true := by decide

theorem within_tiny {n : Nat} (h : n ≤ 200) : Within tiny.tWaitMax n := by
  intro m hm
  cases hm
  exact h

theorem node_noReset (p : Params) (l : List Level) (n : Nat) : (node p l).NoReset n := by
  simp [State.NoReset, node, Io.quiet]

theorem node_rxAt (p : Params) (l : List Level) : (node p l).rxAt = onLine l :=
  funext fun k => Line.level_after_rest _ k l

/-- A line with one pulse. -/
def pulse (g H : Nat) : List Level :=
  List.replicate g Level.inactive ++ (List.replicate H Level.active ++ [Level.inactive])

theorem pulse_at {p : Params} {g H : Nat} (hH : 1 ≤ H) (h1 : Within p.tWaitMax (g + 1))
    (h2 : Within p.tWaitMax H) (h3 : H < 2 ^ 64) : PulseAt p (onLine (pulse g H)) 0 g H :=
  pulseAt_line p [] [] g H hH h1 h2 h3

/-- No pulse comes after `a`: the deadline of `tiny` ends the wait. -/
theorem timeout_after (a : List Level) : TimeoutAt tiny (onLine a) a.length 200 := by
  refine ⟨200, rfl, by decide, .inl ⟨fun k _ => ?_, rfl⟩⟩
  have := onLine_right a [] k
  rw [List.append_nil] at this
  rw [this]
  rfl

/-- A pulse that outlasts the deadline of `tiny`. -/
theorem timeout_stuck : TimeoutAt tiny (onLine (List.replicate 201 .active)) 0 201 := by
  refine ⟨200, rfl, by decide, .inr ⟨0, by decide, fun k hk => absurd hk (Nat.not_lt_zero k), fun k hk => ?_, rfl⟩⟩
  have := onLine_replicate 201 k .active [] (by omega)
  rw [List.append_nil] at this
  rwa [Nat.zero_add]

/-- A wait for a free bus without a bound, on a line that changes for ever (70_reset_and_hazards.md
R254): `EN` and `BUSY` are all that `STATUS` shows. -/
theorem test_writemsg_never_free :
    (view (exec .writemsg { node patient [] with
      io := { Io.quiet with rx := ⟨[], .active, [.inactive]⟩ }, msg := { Message.zero with len := 1 } })).map
      View.status = some 0x3 := by decide +kernel

/-- A pulse during which the clock comes round is still measured in full (log 6). -/
theorem test_rxbit_late :
    view (exec .rxbit { node .ref [] with
      io := { Io.quiet with now := 0xFFFFFFFFFFFFFFFF, rx := ⟨wave [I 3, A 26], .inactive, []⟩ } }) =
      some ⟨29, 0xD, 1, 0⟩ := by decide +kernel

/-! Reset and steps -/

theorem meets_ResetValues : ∃ p, State.reset = State.resetOf p := ⟨Params.ref, rfl⟩

theorem meets_IsenReportsTheGate : (node tiny []).en = true ∧ State.reset.en = false := ⟨rfl, rfl⟩

theorem meets_ResetInputRestoresResetValues :
    (asked [.reset]).params.wf = true ∧ (asked [.reset]).io.host = .reset :: [] := by decide

/-- A host that is silent for `n` ticks and then asserts the reset input. -/
def resetAfter (n : Nat) : List HostReq := List.replicate n .idle ++ [.reset]

/-- The first and the last tick of a data bit; the first tick of a bus test, and one in the middle of
READMSG's wait, each with more ticks to come without the reset. -/
theorem meets_ResetCutsTransmission :
    (transmitWave Params.ref (.txbit true) = some (bitWave .ref true) ∧
      (0 < (bitWave .ref true).length ∧ (asked [.reset]).io.host[0]? = some .reset) ∧
      38 < (bitWave .ref true).length ∧
      (∀ j, j < 38 → (asked (resetAfter 38)).io.host[j]? ≠ some .reset ∧
        (asked (resetAfter 38)).io.host[j]? ≠ some .wait) ∧
      (asked (resetAfter 38)).io.host[38]? = some .reset) ∧
    ((asked [.reset]).NoReset 0 ∧ (after .busfree (asked [])).io.pins.length = 0 + 39) ∧
    ({ node tiny [] with io := { Io.quiet with host := resetAfter 50 } } : State).NoReset 50 ∧
    HostReq.wait ∉ (resetAfter 50).take 50 ∧ (resetAfter 50)[50]? = some .reset ∧
    (after .readmsg { node tiny [] with
      io := { Io.quiet with host := (resetAfter 50).take 50 } }).io.pins.length = 0 + 200 := by
  unfold State.NoReset
  decide +kernel

theorem meets_StepRunsDecodedCommand :
    ((asked [.write 0 4 0x04000000]).params.wf = true ∧
      (asked [.write 0 4 0x04000000]).busy = false ∧ decode 0x04000000 = .ok .busfree) ∧
    decodeTableWord 32 0x04000000 = some .busfree := by decide

theorem meets_IdleTickDoesNothing :
    State.reset.params.wf = true ∧ State.reset.busy = false ∧ State.reset.fetch = none ∧
    State.reset.io.host.head? ≠ some .reset := by decide

/-- A machine that waits for ever. -/
def hung : State := { node patient [] with busy := true }

theorem meets_BusyIgnoresTheHost :
    hung.params.wf = true ∧ hung.busy = true ∧ hung.io.host.head? ≠ some HostReq.reset ∧
    ({ hung with io := { hung.io with host := [.write 0 4 0x01000000] } } : State).io.host =
      .write 0 4 0x01000000 :: [] := by decide

/-- Also two lines that differ from the fourth tick on. -/
theorem meets_StepAnswersAndTimeMovesOn :
    State.reset.params.wf = true ∧ (State.resetOf { Params.ref with tHigh0 := 0 }).params.wf = false ∧
    .wait ∉ State.reset.io.host ∧ State.reset.busy = false ∧
    ∀ k, k < 3 → ((⟨[], .inactive, [.inactive, .inactive, .active]⟩ : Line).after k).level =
      State.reset.rxAt k := by decide

/-! The command word -/

theorem meets_CommandTableSelects :
    decode 0x12100000 = .ok (.rxbits 16) ∧
    (⟨"RXBITS", 0x12000000, 0xFFE0FFFF, true⟩ : CommandRow) ∈ commandTable ∧
    (⟨"RXBITS", 0x12000000, 0xFFE0FFFF, true⟩ : CommandRow).selects 0x12100000 :=
  ⟨rfl, by simp [commandTable], by decide, fun _ => by decide⟩

theorem meets_OperandsReadFromTheWord :
    decode 0x12010000 = .ok (.rxbits 1) ∧ decode 0x2210FFFF = .ok (.txbits 0xFFFF 16) ∧
    decode 0x21000001 = .ok (.txbit true) ∧ decode 0x23000001 = .ok (.txack .rejected) :=
  ⟨rfl, rfl, rfl, rfl⟩

theorem meets_DecodeEncode : (Instr.txbits 0xFFFF 16).wf = true := by decide

theorem meets_IllegalCommandWord :
    (asked [.write 0 4 0x12110000]).params.wf = true ∧ (asked [.write 0 4 0x12110000]).busy = false ∧
    ∀ r ∈ commandTable, ¬ r.selects 0x12110000 := by
  refine ⟨by decide, rfl, fun r hr h => ?_⟩
  simp only [commandTable, List.mem_cons, List.not_mem_nil, or_false] at hr
  rcases hr with rfl | rfl | rfl | rfl | rfl | rfl | rfl | rfl | rfl | rfl | rfl | rfl | rfl | rfl <;>
    first | exact absurd h.1 (by decide) | exact absurd (h.2 rfl) (by decide)

theorem meets_IllegalCountIsIllegalCommand : legalCount 0 = false ∧ legalCount 17 = false := by decide

/-! The Codec -/

theorem meets_CodecDoesNotReadTheGate :
    isCodecOp .busfree = true ∧ State.SameButGate (node tiny []) { node tiny [] with en := false } ∧
    ∃ t, exec .busfree (node tiny []) = .next t := ⟨rfl, ⟨rfl, rfl, rfl⟩, exec_answers _ _⟩

theorem meets_BusfreeTestsOneBitPeriod :
    ((node tiny []).NoReset 3 ∧ ∀ k, k < 3 → (node tiny []).rxAt k = .inactive) ∧
    (node tiny [.active]).rxAt 0 = .active ∧
    (2 < tiny.tBit ∧ (∀ j, j < 2 → (node tiny (wave [I 2, A 1])).rxAt j = .inactive) ∧
      (node tiny (wave [I 2, A 1])).rxAt 2 = .active ∧ (node tiny (wave [I 2, A 1])).NoReset 3) := by
  simp only [node_rxAt]
  exact ⟨⟨node_noReset _ _ _, by decide⟩, rfl, by decide, by decide, rfl, node_noReset _ _ _⟩

/-- Both sides of the window's end, and both deadlines. -/
theorem meets_RxstartTestsTheStartWindow :
    (PulseAt tiny (node tiny (pulse 0 172)).rxAt 0 0 172 ∧ InStartWindow tiny 172) ∧
    (PulseAt tiny (node tiny (pulse 199 173)).rxAt 0 199 173 ∧ ¬ InStartWindow tiny 173) ∧
    (node tiny (pulse 199 173)).NoReset (199 + 173 + 1) ∧
    TimeoutAt tiny (node tiny []).rxAt 0 200 ∧
    TimeoutAt tiny (node tiny (List.replicate 201 .active)).rxAt 0 201 := by
  simp only [node_rxAt]
  exact ⟨⟨pulse_at (by decide) (within_tiny (by decide)) (within_tiny (by decide)) (by decide), by
      unfold InStartWindow; decide⟩,
    ⟨pulse_at (by decide) (within_tiny (by decide)) (within_tiny (by decide)) (by decide), by
      unfold InStartWindow; decide⟩,
    node_noReset _ _ _, timeout_after [], timeout_stuck⟩

/-- The shortest and the longest pulse; the same states serve RXACK. -/
theorem meets_RxbitReadsTheNearerSymbol :
    (PulseAt tiny (node tiny (pulse 0 1)).rxAt 0 0 1 ∧ IsSymbol tiny 1 true) ∧
    (PulseAt tiny (node tiny (pulse 199 200)).rxAt 0 199 200 ∧ IsSymbol tiny 200 false) ∧
    (node tiny (pulse 199 200)).NoReset (199 + 200 + 1) ∧
    TimeoutAt tiny (node tiny []).rxAt 0 200 ∧
    TimeoutAt tiny (node tiny (List.replicate 201 .active)).rxAt 0 201 := by
  simp only [node_rxAt]
  exact ⟨⟨pulse_at (by decide) (within_tiny (by decide)) (within_tiny (by decide)) (by decide), by
      unfold IsSymbol; decide⟩,
    ⟨pulse_at (by decide) (within_tiny (by decide)) (within_tiny (by decide)) (by decide), by
      unfold IsSymbol; decide⟩,
    node_noReset _ _ _, timeout_after [], timeout_stuck⟩

theorem meets_RxackReadsAHandshake :
    (PulseAt tiny (node tiny (pulse 0 2)).rxAt 0 0 2 ∧ IsSymbol tiny 2 false) ∧
    (node tiny (pulse 0 2)).NoReset (0 + 2 + 1) ∧ TimeoutAt tiny (node tiny []).rxAt 0 200 := by
  simp only [node_rxAt]
  exact ⟨⟨pulse_at (by decide) (within_tiny (by decide)) (within_tiny (by decide)) (by decide), by
      unfold IsSymbol; decide⟩, node_noReset _ _ _, timeout_after []⟩

theorem bits_at (bs : List Bool) :
    BitsAt tiny (onLine (tightBits tiny bs)) bs 0 (tightBits tiny bs).length := by
  have := bitsAt_line tiny_wf (within_tiny (by decide)) (by decide) bs [] []
  rwa [List.append_nil] at this

/-- One bit, sixteen bits, and a timeout after none and after fifteen. -/
theorem meets_RxbitsAssemblesTheValue :
    (node tiny []).seq.state = .idle ∧ legalCount 1 = true ∧ legalCount 16 = true ∧
    BitsAt tiny (node tiny (tightBits tiny [true])).rxAt [true] 0 (tightBits tiny [true]).length ∧
    BitsAt tiny (node tiny (tightBits tiny (List.replicate 16 true))).rxAt
      (List.replicate 16 true) 0 (tightBits tiny (List.replicate 16 true)).length ∧
    (node tiny (tightBits tiny (List.replicate 16 true))).NoReset 32 ∧
    (BitsAt tiny (node tiny []).rxAt [] 0 0 ∧ TimeoutAt tiny (node tiny []).rxAt 0 200) ∧
    BitsAt tiny (node tiny (tightBits tiny (List.replicate 15 false))).rxAt
      (List.replicate 15 false) 0 (tightBits tiny (List.replicate 15 false)).length ∧
    TimeoutAt tiny (node tiny (tightBits tiny (List.replicate 15 false))).rxAt
      (tightBits tiny (List.replicate 15 false)).length 200 := by
  simp only [node_rxAt]
  exact ⟨rfl, rfl, rfl, bits_at [true], bits_at _, node_noReset _ _ _, ⟨rfl, timeout_after []⟩,
    bits_at _, timeout_after _⟩

theorem within_patient (n : Nat) : Within patient.tWaitMax n := fun _ h => nomatch h

theorem patient_wf : patient.wf = true := by decide

/-- No pulse comes after `a`, and there is no deadline. -/
theorem endless_after (a : List Level) : EndlessAt patient (onLine a) a.length := by
  refine ⟨rfl, .inl fun k => ?_⟩
  have := onLine_right a [] k
  rw [List.append_nil] at this
  rw [this]
  rfl

/-- A line that changes for ever. -/
def restless : Line := ⟨[.inactive], .active, [.inactive]⟩

theorem restless_is_never_free (d : Nat) : ∃ k, k < 3 ∧ (restless.after (d + k)).level = .active := by
  induction d using Nat.strong_induction_on with
  | _ d ih =>
    by_cases h : d < 3
    · interval_cases d
      · exact ⟨1, by decide, rfl⟩
      · exact ⟨0, by decide, rfl⟩
      · exact ⟨1, by decide, rfl⟩
    · obtain ⟨k, hk, ha⟩ := ih (d - 2) (by omega)
      refine ⟨k, hk, ?_⟩
      have := Line.after_period (l := restless) (k := d - 2 + k) (by simp [restless]; omega)
      rw [show d - 2 + k + (restless.more.length + 1) = d + k by simp [restless]; omega] at this
      rw [this]
      exact ha

/-- No pulse, a pulse that never ends, sixteen bits of which the last never comes, and a bus that is
never free; the wait for a handshake is `meets_EndlessHandshake`. -/
theorem meets_WaitWithoutDeadlineNeverCompletes :
    .reset ∉ (node patient []).io.host ∧ EndlessAt patient (node patient []).rxAt 0 ∧
    (∀ k, ({ node patient [] with io := { Io.quiet with rx := ⟨[], .active, []⟩ } } : State).rxAt k =
      .active) ∧
    (legalCount 16 = true ∧
      BitsAt patient (node patient (tightBits patient (List.replicate 15 true))).rxAt
        (List.replicate 15 true) 0 (tightBits patient (List.replicate 15 true)).length ∧
      EndlessAt patient (node patient (tightBits patient (List.replicate 15 true))).rxAt
        (tightBits patient (List.replicate 15 true)).length) ∧
    patient.tBusFreeMax = none ∧ legalLen 256 = true ∧
    ∀ d, ∃ k, k < patient.tBit ∧
      ({ node patient [] with io := { Io.quiet with rx := restless } } : State).rxAt (d + k) =
        .active := by
  simp only [node_rxAt]
  refine ⟨by decide, endless_after [], fun k => ?_, ⟨rfl, ?_, endless_after _⟩, rfl, rfl,
    restless_is_never_free⟩
  · exact (Line.level_after_rest .active k []).trans rfl
  · have := bitsAt_line patient_wf (within_patient _) (by decide) (List.replicate 15 true) [] []
    rwa [List.append_nil] at this

theorem meets_TxstartDrivesAStartBit : tiny.wf = true ∧ (node tiny []).NoReset tiny.tStartTotal :=
  ⟨tiny_wf, node_noReset _ _ _⟩

/-- Also for TXACK. -/
theorem meets_TxbitDrivesADataBit : tiny.wf = true ∧ (node tiny []).NoReset tiny.tBit :=
  ⟨tiny_wf, node_noReset _ _ _⟩

theorem meets_TxackDrivesAHandshake : tiny.wf = true ∧ (node tiny [.active]).NoReset tiny.tBit :=
  ⟨tiny_wf, node_noReset _ _ _⟩

theorem meets_TxbitsDrivesTheLowBits :
    tiny.wf = true ∧ (node tiny []).seq.state = .idle ∧ legalCount 16 = true ∧
    (node tiny []).NoReset (16 * tiny.tBit) := ⟨tiny_wf, rfl, rfl, node_noReset _ _ _⟩

theorem meets_TxRestsAfterEveryOperation :
    (∃ t, exec (.txbit true) (node tiny []) = .next t) ∧
    transmitWave tiny (.txbit true) ≠ none ∧ (node tiny []).txd = .inactive ∧
    (∃ t, exec .busfree (node tiny []) = .next t) ∧ transmitWave tiny .busfree = none :=
  ⟨exec_answers _ _, by decide, rfl, exec_answers _ _, rfl⟩

/-- The value 0x8001 in sixteen bits, first heard 100 ticks after a reader at another address starts. -/
theorem meets_BitFieldRoundTrip :
    exec (.txbits 0x8001 16) (node tiny []) = .next (after (.txbits 0x8001 16) (node tiny [])) ∧
    (node stranger (List.replicate 100 .inactive ++ driven (.txbits 0x8001 16) (node tiny []))).Hears 100
      (driven (.txbits 0x8001 16) (node tiny [])) ∧
    stranger.waitExceeds (100 + 3) = true ∧ SameTiming tiny stranger ∧ tiny.tBit < 2 ^ 64 := by
  refine ⟨exec_after _ _, ?_, rfl, stranger_sameTiming, by decide⟩
  unfold State.Hears
  decide +kernel

theorem meets_StartAndHandshakeRoundTrip :
    exec .txstart (node tiny []) = .next (after .txstart (node tiny [])) ∧
    (node stranger (driven .txstart (node tiny []))).Hears 0 (driven .txstart (node tiny [])) ∧
    exec (.txack .rejected) (node tiny []) = .next (after (.txack .rejected) (node tiny [])) ∧
    (node stranger (driven (.txack .rejected) (node tiny []))).Hears 0
      (driven (.txack .rejected) (node tiny [])) ∧
    stranger.waitExceeds (0 + 88) = true ∧ SameTiming tiny stranger ∧ tiny.tStartTotal < 2 ^ 64 := by
  unfold State.Hears
  exact ⟨exec_after _ _, by decide +kernel, exec_after _ _, by decide +kernel, rfl, stranger_sameTiming, by decide⟩

theorem meets_ParityDetectsSingleFlips : 12 ∈ [4, 8, 12] ∧ 11 < 12 ∧ 0 < 12 ∧ 11 ≠ 0 ∧
    true = parity 0x456 12 := by decide

theorem meets_FrameFieldCodes : (255 : Half).toNat < 256 ∧ (0 : Half).toNat < 256 := by decide

/-! READMSG -/

theorem meets_DisabledTransaction : State.reset.en = false := rfl

theorem meets_ReadScansOnePulse :
    (node tiny []).en = true ∧ (node tiny []).txd = .inactive ∧
    PulseAt tiny (node tiny (pulse 0 173)).rxAt 0 0 173 ∧ ¬ InStartWindow tiny 173 ∧
    (node tiny (pulse 0 173)).NoReset (0 + 173 + 1) ∧
    TimeoutAt tiny (node tiny []).rxAt 0 200 ∧
    TimeoutAt tiny (node tiny (List.replicate 201 .active)).rxAt 0 201 := by
  simp only [node_rxAt]
  exact ⟨rfl, rfl, pulse_at (by decide) (within_tiny (by decide)) (within_tiny (by decide)) (by decide), by
    unfold InStartWindow; decide, node_noReset _ _ _, timeout_after [], timeout_stuck⟩

/-- The Message `D M456 S123 C2 L1 [AB]`, and one of 256 bytes for everyone. -/
def shortMsg : Message :=
  ({ Message.zero with bt := .forDevice, master := 0x456, slave := 0x123, ctrl := 2, len := 1 }).setByte
    0 0xAB

def longMsg : Message := { shortMsg with bt := .broadcast, len := 256 }

theorem meets_ReadReturnsTheFrame :
    (legalLen shortMsg.len = true ∧
      ∃ w, FrameAt tiny (node tiny (tightFrame tiny shortMsg)).rxAt shortMsg w ∧
        (node tiny (tightFrame tiny shortMsg)).NoReset w.length) ∧
    (legalLen longMsg.len = true ∧
      ∃ w, FrameAt tiny (node tiny (tightFrame tiny longMsg)).rxAt longMsg w ∧
        (node tiny (tightFrame tiny longMsg)).NoReset w.length) := by
  simp only [node_rxAt]
  obtain ⟨w, h⟩ := frameAt_line tiny_wf (within_tiny (by decide)) (by decide) shortMsg
  obtain ⟨w', h'⟩ := frameAt_line tiny_wf (within_tiny (by decide)) (by decide) longMsg
  exact ⟨⟨rfl, w, h, node_noReset _ _ _⟩, rfl, w', h', node_noReset _ _ _⟩

/-- After any line `a`: the bits of a value and a wrong parity bit. -/
def badField (v : Half) (n : Nat) : List Level :=
  tightBits tiny (bitsOf v n) ++ tightBit tiny (!parity v n)

theorem bad_at (a : List Level) (v : Half) (n : Nat) :
    BitsAt tiny (onLine (a ++ badField v n)) (bitsOf v n) a.length
      (tightBits tiny (bitsOf v n)).length ∧
    BitAt tiny (onLine (a ++ badField v n)) (!parity v n)
      (a.length + (tightBits tiny (bitsOf v n)).length) (tightBit tiny (!parity v n)).length := by
  constructor
  · exact bitsAt_line tiny_wf (within_tiny (by decide)) (by decide) (bitsOf v n) a _
  · have := bitAt_line tiny_wf (within_tiny (by decide)) (by decide) (a ++ tightBits tiny (bitsOf v n)) []
      (!parity v n)
    simpa [badField] using this

/-- A start bit and a broadcast-type bit. -/
def opening : List Level := List.replicate 86 .active ++ .inactive :: tightBit tiny true

theorem opening_at (c : List Level) :
    PulseAt tiny (onLine (opening ++ c)) 0 0 86 ∧ BitAt tiny (onLine (opening ++ c)) true (0 + 86 + 1) 2 := by
  rw [opening, List.append_assoc, List.cons_append]
  constructor
  · exact pulseAt_line tiny [] (tightBit tiny true ++ c) 0 86 (by decide)
      (within_tiny (by decide)) (within_tiny (by decide)) (by decide)
  · have := bitAt_line tiny_wf (within_tiny (by decide)) (by decide)
      (List.replicate 86 .active ++ [.inactive]) c true
    rw [List.append_assoc, List.singleton_append, List.length_append, List.length_replicate,
      List.length_singleton] at this
    exact this

theorem meets_ReadMasterParityError :
    ∃ b c, PulseAt tiny (node tiny (opening ++ badField 0x456 12)).rxAt 0 0 86 ∧
      InStartWindow tiny 86 ∧
      BitAt tiny (node tiny (opening ++ badField 0x456 12)).rxAt true (0 + 86 + 1) 2 ∧
      BitsAt tiny (node tiny (opening ++ badField 0x456 12)).rxAt (bitsOf 0x456 12)
        (0 + 86 + 1 + 2) b ∧
      BitAt tiny (node tiny (opening ++ badField 0x456 12)).rxAt (!parity 0x456 12)
        (0 + 86 + 1 + 2 + b) c ∧ (0x456 : Half).toNat < 2 ^ 12 := by
  simp only [node_rxAt]
  obtain ⟨h1, h2⟩ := bad_at opening 0x456 12
  obtain ⟨h3, h4⟩ := opening_at (badField 0x456 12)
  exact ⟨_, _, h3, inStartWindow_tStartHigh tiny, h4, h1, h2, by decide⟩

/-- The line up to the `k`-th field, and what the reader meets on it. -/
theorem head_and_fields (m : Message) (k : Nat) (c : List Level) :
    ∃ n w, HeadAt tiny (onLine (tightHead tiny m ++
        tightFields tiny (owedFor tiny m.bt m.slave) ((eligibleFields m).take k) ++ c)) m n ∧
      FieldsAt tiny (onLine (tightHead tiny m ++
        tightFields tiny (owedFor tiny m.bt m.slave) ((eligibleFields m).take k) ++ c))
        (owedFor tiny m.bt m.slave) ((eligibleFields m).take k) n w ∧
      n + w.length = (tightHead tiny m ++
        tightFields tiny (owedFor tiny m.bt m.slave) ((eligibleFields m).take k)).length := by
  obtain ⟨w, h, hl⟩ := fieldsAt_line tiny_wf (within_tiny (by decide)) (by decide) (owedFor tiny m.bt m.slave)
    ((eligibleFields m).take k) (tightHead tiny m) c
  rw [List.append_assoc]
  exact ⟨_, w, headAt_line tiny_wf (within_tiny (by decide)) (by decide) m _, h, by simp [hl]⟩

/-- The first field, the slave's, and the last one, byte 0; in a frame for this node, which answers, and
in one for everyone, to which nothing is sent. -/
theorem meets_ReadAbortsOnParity :
    ∀ m ∈ [shortMsg, { shortMsg with bt := .broadcast }],
    ∀ f ∈ [(0, (0x123 : Half), 12), (3, (0xAB : Half), 8)],
      (eligibleFields m)[f.1]? = some (f.2.1, f.2.2) ∧
      ∃ l n w a b, HeadAt tiny (node tiny l).rxAt m n ∧
        FieldsAt tiny (node tiny l).rxAt (owedFor tiny m.bt m.slave)
          ((eligibleFields m).take f.1) n w ∧
        BitsAt tiny (node tiny l).rxAt (bitsOf f.2.1 f.2.2) (n + w.length) a ∧
        BitAt tiny (node tiny l).rxAt (!parity f.2.1 f.2.2) (n + w.length + a) b ∧
        ∀ j, (node tiny l).NoReset j := by
  simp only [node_rxAt]
  intro m hm f hf
  refine ⟨?_, ?_⟩
  · simp only [List.mem_cons, List.not_mem_nil, or_false] at hm hf
    rcases hm with rfl | rfl <;> rcases hf with rfl | rfl <;> decide +kernel
  · obtain ⟨n, w, h1, h2, h3⟩ := head_and_fields m f.1 (badField f.2.1 f.2.2)
    obtain ⟨h4, h5⟩ := bad_at (tightHead tiny m ++ tightFields tiny
      (owedFor tiny m.bt m.slave) ((eligibleFields m).take f.1)) f.2.1 f.2.2
    rw [← h3] at h4 h5
    exact ⟨_, n, w, _, _, h1, h2, h4, h5, fun _ => node_noReset _ _ _⟩

/-- No broadcast-type bit after the start bit; no bit of the master field, and twelve of them without the
parity bit. The later fields are in `meets_ReadTimesOutInAField`. -/
theorem meets_ReadTimesOutInItsHead :
    (PulseAt tiny (node tiny (pulse 0 86)).rxAt 0 0 86 ∧ InStartWindow tiny 86 ∧
      TimeoutAt tiny (node tiny (pulse 0 86)).rxAt (0 + 86 + 1) 200) ∧
    ∀ bs ∈ [[], bitsOf 0x456 12], bs.length ≤ 12 ∧
      ∃ b, PulseAt tiny (node tiny (opening ++ tightBits tiny bs)).rxAt 0 0 86 ∧
        BitAt tiny (node tiny (opening ++ tightBits tiny bs)).rxAt true (0 + 86 + 1) 2 ∧
        BitsAt tiny (node tiny (opening ++ tightBits tiny bs)).rxAt bs (0 + 86 + 1 + 2) b ∧
        TimeoutAt tiny (node tiny (opening ++ tightBits tiny bs)).rxAt (0 + 86 + 1 + 2 + b) 200 := by
  simp only [node_rxAt]
  refine ⟨⟨pulse_at (by decide) (within_tiny (by decide)) (within_tiny (by decide)) (by decide),
    inStartWindow_tStartHigh tiny, timeout_after (pulse 0 86)⟩, fun bs hbs => ?_⟩
  obtain ⟨h1, h2⟩ := opening_at (tightBits tiny bs)
  have h3 := bitsAt_line tiny_wf (within_tiny (by decide)) (by decide) bs opening []
  have h4 := timeout_after (opening ++ tightBits tiny bs)
  rw [List.append_nil] at h3
  rw [List.length_append] at h4
  refine ⟨?_, _, h1, h2, h3, h4⟩
  simp only [List.mem_cons, List.not_mem_nil, or_false] at hbs
  rcases hbs with rfl | rfl <;> simp

/-- No bit of the slave field, and all eight bits of byte 0 without the parity bit. -/
theorem meets_ReadTimesOutInAField :
    ∀ f ∈ [(0, ([] : List Bool), 12), (3, bitsOf 0xAB 8, 8)],
      (f.2.1.length ≤ f.2.2 ∧ ∃ v, (eligibleFields shortMsg)[f.1]? = some (v, f.2.2)) ∧
      ∃ l n w a, HeadAt tiny (node tiny l).rxAt shortMsg n ∧
        FieldsAt tiny (node tiny l).rxAt (owedFor tiny shortMsg.bt shortMsg.slave)
          ((eligibleFields shortMsg).take f.1) n w ∧
        BitsAt tiny (node tiny l).rxAt f.2.1 (n + w.length) a ∧
        TimeoutAt tiny (node tiny l).rxAt (n + w.length + a) 200 ∧ ∀ j, (node tiny l).NoReset j := by
  simp only [node_rxAt]
  intro f hf
  refine ⟨?_, ?_⟩
  · simp only [List.mem_cons, List.not_mem_nil, or_false] at hf
    rcases hf with rfl | rfl
    · exact ⟨by decide, 0x123, by decide +kernel⟩
    · exact ⟨by decide, 0xAB, by decide +kernel⟩
  · obtain ⟨n, w, h1, h2, h3⟩ := head_and_fields shortMsg f.1 (tightBits tiny f.2.1)
    have h4 := bitsAt_line tiny_wf (within_tiny (by decide)) (by decide) f.2.1 (tightHead tiny shortMsg ++
      tightFields tiny (owedFor tiny shortMsg.bt shortMsg.slave) ((eligibleFields shortMsg).take f.1)) []
    have h5 := timeout_after (tightHead tiny shortMsg ++ tightFields tiny
      (owedFor tiny shortMsg.bt shortMsg.slave) ((eligibleFields shortMsg).take f.1) ++
      tightBits tiny f.2.1)
    rw [List.append_nil, ← h3] at h4
    rw [List.length_append, ← h3] at h5
    exact ⟨_, n, w, _, h1, h2, h4, h5, fun _ => node_noReset _ _ _⟩

theorem meets_ReadIsNeverPartial :
    (∃ t, exec .readmsg State.reset = .next t ∧ t.resValid = true ∧ t.resOk = false) ∧
    (∃ t, exec .readmsg (node patient []) = .next t ∧ t.busy = true) ∧
    ∃ t, exec .readmsg (node tiny (tightFrame tiny shortMsg)) = .next t ∧ t.resOk = true :=
  ⟨⟨_, exec_after _ _, by decide +kernel, by decide +kernel⟩, ⟨_, exec_after _ _, by decide +kernel⟩,
    _, exec_after _ _, by decide +kernel⟩

/-- A frame for node 0x124, read by node 0x123. -/
theorem meets_AddressingFilter :
    ∃ l n a, HeadAt tiny (node tiny l).rxAt { shortMsg with slave := 0x124 } n ∧
      BitsAt tiny (node tiny l).rxAt (bitsOf 0x124 12) n a ∧
      ¬ (BType.forDevice = .forDevice ∧ (0x124 : BitVec 12) = (node tiny l).params.localAddr) ∧
      (∃ t, exec .readmsg (node tiny l) = .next t) ∧ ∀ j, (node tiny l).NoReset j := by
  simp only [node_rxAt]
  refine ⟨tightHead tiny { shortMsg with slave := 0x124 } ++ (tightBits tiny (bitsOf 0x124 12) ++ []),
    _, _, headAt_line tiny_wf (within_tiny (by decide)) (by decide) _ _,
    bitsAt_line tiny_wf (within_tiny (by decide)) (by decide) (bitsOf 0x124 12) _ [], by decide,
    exec_answers _ _, fun _ => node_noReset _ _ _⟩

/-! WRITEMSG -/

/-- A node that has a Message to send. -/
def sender (m : Message) (l : List Level) : State := { node tiny l with msg := m }

theorem meets_WriteRefusesAnIllegalLength :
    (sender { shortMsg with len := 0 } []).en = true ∧
    (sender { shortMsg with len := 0 } []).msg.len.toNat = 0 ∧
    256 < (sender { shortMsg with len := 257 } []).msg.len.toNat := by decide

theorem sender_rxAt (m : Message) (l : List Level) : (sender m l).rxAt = onLine l := node_rxAt tiny l

/-- A bus that is free at once, and one that is free after the last attempt in time. -/
theorem meets_WriteSendsABroadcastFrame :
    (sender longMsg []).msg.bt = .broadcast ∧ legalLen (sender longMsg []).msg.len = true ∧
    FreeAt tiny (sender longMsg []).rxAt 0 ∧
    FreeAt tiny (sender longMsg (List.replicate 9 .active)).rxAt 9 := by
  simp only [sender_rxAt]
  refine ⟨rfl, rfl, ⟨fun _ _ => rfl, by omega, fun _ _ => .inl rfl⟩, ?_, ?_, ?_⟩
  · decide
  · intro e he
    exact ⟨0, by decide, by
      rw [Nat.add_zero]
      have := onLine_replicate 9 e .active [] he
      rwa [List.append_nil] at this⟩
  · intro m hm
    cases hm
    exact .inr (by decide)

/-- The line of a node that sends on a bus free at once, up to its head's end. -/
def quietHead (p : Params) (m : Message) : List Level :=
  List.replicate (p.tBit + (headWave p m).length) .inactive

theorem free_quietHead (p : Params) (m : Message) (c : List Level) :
    FreeAt p (onLine (quietHead p m ++ c)) 0 := by
  have := freeAt_line p (List.replicate (headWave p m).length .inactive ++ c)
  rw [← List.append_assoc, List.replicate_append_replicate] at this
  exact this

theorem meets_WriteSendsAnAnsweredFrame :
    ∃ l w, FreeAt tiny (sender shortMsg l).rxAt 0 ∧
      AnsweredAt tiny (sender shortMsg l).rxAt (eligibleFields shortMsg)
        (0 + tiny.tBit + (headWave tiny shortMsg).length) w ∧
      (sender shortMsg l).msg.bt = .forDevice ∧ ∀ j, (sender shortMsg l).NoReset j := by
  simp only [sender_rxAt]
  obtain ⟨w, h, -⟩ := answeredAt_line tiny_wf (within_tiny (by decide)) (by decide) (eligibleFields shortMsg)
    (quietHead tiny shortMsg) []
  refine ⟨quietHead tiny shortMsg ++ (tightAnswers tiny (eligibleFields shortMsg) ++ []), w,
    free_quietHead tiny shortMsg _, ?_, rfl, fun j => node_noReset tiny _ j⟩
  have hl : (quietHead tiny shortMsg).length = 0 + tiny.tBit + (headWave tiny shortMsg).length := by
    simp [quietHead]
  rw [← hl]
  exact h

/-- After `k` answered fields and the whole `k`-th one: what the line shows next. -/
theorem answered_then {p : Params} (hp : p.wf = true) (hw : Within p.tWaitMax p.tBit)
    (hc : p.tStartTotal < 2 ^ 64) (m : Message) (k width : Nat) (c : List Level) :
    ∃ l w, FreeAt p (onLine (l ++ c)) 0 ∧
      AnsweredAt p (onLine (l ++ c)) ((eligibleFields m).take k)
        (0 + p.tBit + (headWave p m).length) w ∧
      0 + p.tBit + (headWave p m).length + w.length + (width + 1) * p.tBit = l.length := by
  obtain ⟨w, h, hl⟩ := answeredAt_line hp hw hc ((eligibleFields m).take k)
    (quietHead p m) (List.replicate ((width + 1) * p.tBit) .inactive ++ c)
  have hq : (quietHead p m).length = 0 + p.tBit + (headWave p m).length := by simp [quietHead]
  refine ⟨quietHead p m ++ tightAnswers p ((eligibleFields m).take k) ++
    List.replicate ((width + 1) * p.tBit) .inactive, w, ?_, ?_, ?_⟩
  · rw [List.append_assoc, List.append_assoc]
    exact free_quietHead p m _
  · rw [← hq, List.append_assoc, List.append_assoc]
    exact h
  · simp only [List.length_append, List.length_replicate, hq, hl]

/-- The slave field rejected, and byte 0 rejected. -/
theorem meets_WriteAbortsOnReject :
    ∀ f ∈ [(0, (0x123 : Half), 12), (3, (0xAB : Half), 8)],
      (eligibleFields shortMsg)[f.1]? = some (f.2.1, f.2.2) ∧
      ∃ l w n, FreeAt tiny (sender shortMsg l).rxAt 0 ∧
        AnsweredAt tiny (sender shortMsg l).rxAt ((eligibleFields shortMsg).take f.1)
          (0 + tiny.tBit + (headWave tiny shortMsg).length) w ∧
        BitAt tiny (sender shortMsg l).rxAt true
          (0 + tiny.tBit + (headWave tiny shortMsg).length + w.length + (f.2.2 + 1) * tiny.tBit) n ∧
        ∀ j, (sender shortMsg l).NoReset j := by
  simp only [sender_rxAt]
  intro f hf
  refine ⟨?_, ?_⟩
  · simp only [List.mem_cons, List.not_mem_nil, or_false] at hf
    rcases hf with rfl | rfl <;> decide +kernel
  · obtain ⟨l, w, h1, h2, h3⟩ := answered_then tiny_wf (within_tiny (by decide)) (by decide) shortMsg f.1 f.2.2 (tightBit tiny true ++ [])
    refine ⟨_, w, (tightBit tiny true).length, h1, h2, ?_, fun j => node_noReset tiny _ j⟩
    rw [h3]
    exact bitAt_line tiny_wf (within_tiny (by decide)) (by decide) l [] true

/-- The slave field, and byte 0, never answered. -/
theorem meets_EndlessHandshake :
    ∀ f ∈ [(0, (0x123 : Half), 12), (3, (0xAB : Half), 8)],
      (eligibleFields shortMsg)[f.1]? = some (f.2.1, f.2.2) ∧
      ∃ l w, FreeAt patient (node patient l).rxAt 0 ∧
        AnsweredAt patient (node patient l).rxAt ((eligibleFields shortMsg).take f.1)
          (0 + patient.tBit + (headWave patient shortMsg).length) w ∧
        EndlessAt patient (node patient l).rxAt
          (0 + patient.tBit + (headWave patient shortMsg).length + w.length +
            (f.2.2 + 1) * patient.tBit) := by
  simp only [node_rxAt]
  intro f hf
  refine ⟨?_, ?_⟩
  · simp only [List.mem_cons, List.not_mem_nil, or_false] at hf
    rcases hf with rfl | rfl <;> decide +kernel
  · obtain ⟨l, w, h1, h2, h3⟩ := answered_then patient_wf (within_patient _) (by decide) shortMsg
      f.1 f.2.2 []
    rw [List.append_nil] at h1 h2
    refine ⟨l, w, h1, h2, ?_⟩
    rw [h3]
    exact endless_after l

theorem meets_WriteTimesOutUnanswered :
    ∀ f ∈ [(0, (0x123 : Half), 12), (3, (0xAB : Half), 8)],
      (eligibleFields shortMsg)[f.1]? = some (f.2.1, f.2.2) ∧
      ∃ l w, FreeAt tiny (sender shortMsg l).rxAt 0 ∧
        AnsweredAt tiny (sender shortMsg l).rxAt ((eligibleFields shortMsg).take f.1)
          (0 + tiny.tBit + (headWave tiny shortMsg).length) w ∧
        TimeoutAt tiny (sender shortMsg l).rxAt
          (0 + tiny.tBit + (headWave tiny shortMsg).length + w.length + (f.2.2 + 1) * tiny.tBit)
          200 ∧
        ∀ j, (sender shortMsg l).NoReset j := by
  simp only [sender_rxAt]
  intro f hf
  refine ⟨?_, ?_⟩
  · simp only [List.mem_cons, List.not_mem_nil, or_false] at hf
    rcases hf with rfl | rfl <;> decide +kernel
  · obtain ⟨l, w, h1, h2, h3⟩ := answered_then tiny_wf (within_tiny (by decide)) (by decide) shortMsg f.1 f.2.2 []
    rw [List.append_nil] at h1 h2
    refine ⟨l, w, h1, h2, ?_, fun j => node_noReset tiny _ j⟩
    rw [h3]
    exact timeout_after l

/-- The first failed attempt at the bound itself, and one after it. -/
theorem meets_WriteGivesUpOnABusyBus :
    ((sender shortMsg (List.replicate 10 .active)).rxAt (10 - 1) = .active ∧
      ∀ d, d + 3 ≤ 10 → ∃ k, k < 3 ∧
        (sender shortMsg (List.replicate 10 .active)).rxAt (d + k) = .active) ∧
    ((sender shortMsg (List.replicate 9 Level.active ++ [Level.inactive, Level.active])).rxAt (11 - 1) = .active ∧
      (∀ j, j + 1 < 11 → 10 ≤ j + 1 →
        (sender shortMsg (List.replicate 9 Level.active ++ [Level.inactive, Level.active])).rxAt j = .inactive) ∧
      ∀ d, d + 3 ≤ 11 → ∃ k, k < 3 ∧
        (sender shortMsg (List.replicate 9 Level.active ++ [Level.inactive, Level.active])).rxAt (d + k) = .active) := by
  simp only [sender_rxAt]
  refine ⟨⟨by decide, fun d hd => ⟨0, by decide, ?_⟩⟩, by decide, fun j hj hj' => ?_, fun d hd => ⟨0, by decide, ?_⟩⟩
  · exact onLine_replicate 10 d .active [] (by omega)
  · obtain rfl : j = 9 := by omega
    decide
  · exact onLine_replicate 9 d .active [.inactive, .active] (by omega)

theorem hears_at_once (p : Params) (l : List Level) : (node p l).Hears 0 l := by
  refine ⟨fun k hk => absurd hk (Nat.not_lt_zero k), fun k _ => ?_⟩
  rw [Nat.zero_add, node_rxAt]
  rfl

/-- A sender of a short `Broadcast` frame on a bus that stays free. -/
def crier : State := sender { shortMsg with bt := .broadcast } []

/-- The reader starts three ticks late, in the last tick of the bus test. -/
theorem meets_FrameRoundTrip :
    (crier.params.wf = true ∧ crier.en = true ∧ crier.txd = .inactive ∧
      crier.msg.bt = .broadcast ∧ legalLen crier.msg.len = true ∧ FreeAt tiny crier.rxAt 0) ∧
    exec .writemsg crier = .next (after .writemsg crier) ∧ 3 ≤ tiny.tBit ∧
    SameTiming tiny stranger ∧ stranger.fdSymbol = tiny.fdSymbol ∧ tiny.tStartTotal < 2 ^ 64 ∧
    (node stranger ((driven .writemsg crier).drop 3)).Hears 0 ((driven .writemsg crier).drop 3) ∧
    stranger.waitExceeds (0 + tiny.tBit + tiny.tStartTotal) = true ∧
    ∀ l j, (node stranger l).NoReset j := by
  refine ⟨⟨tiny_wf, rfl, rfl, rfl, rfl, ?_⟩, exec_after _ _, by decide, stranger_sameTiming, rfl,
    by decide, hears_at_once _ _, rfl, fun _ _ => node_noReset _ _ _⟩
  rw [crier, sender_rxAt]
  exact ⟨fun _ _ => rfl, by omega, fun _ _ => .inl rfl⟩

/-! Writes of registers, the host, the invariant -/

theorem meets_OperationsWriteOnlyTheirRegisters :
    .reset ∉ (node tiny []).io.host ∧ ∃ t, exec .busfree (node tiny []) = .next t :=
  ⟨by decide, exec_answers _ _⟩

theorem meets_HiddenStateIsNeverObserved :
    State.visible (node tiny []) = State.visible { node tiny [] with shreg := 0xFFFF, tS := 7, owed := true } ∧
    ∃ t, exec .readmsg (node tiny []) = .next t := ⟨rfl, exec_answers _ _⟩

theorem meets_HostReadSeesTheStartOfTheTick :
    (asked [.read 4 4]).params.wf = true ∧ (asked [.read 4 4]).io.host = .read 4 4 :: [] := by decide

theorem meets_HostWriteReadsBack :
    writableBits 0x14 = some 0x0FFF0FFF ∧ writableBits 0x18 = some 0x01FF010F ∧
    writableBits 0x400 = some 0xFF ∧ writableBits 0x7FC = some 0xFF ∧
    (asked [.write 0x7FC 4 5]).io.host = .write 0x7FC 4 5 :: [] ∧ (asked []).busy = false := by decide

theorem meets_BadAccessHasNoEffect :
    ((3 : Nat) < 4 ∧ 0x402 % 4 ≠ 0 ∧ 0x7FC < 0x7FD) ∧
    (asked [.write 0x7FD 4 5]).io.host = .write 0x7FD 4 5 :: [] ∧
    (asked [.read 0x402 4]).io.host = .read 0x402 4 :: [] := by decide

theorem meets_ReadOnlyRegistersIgnoreWrites :
    0x010 ∈ [0x004, 0x008, 0x00C, 0x010] ∧ (0x01C ≤ 0x01C ∧ 0x3FF < 0x400) ∧
    (asked [.write 0x010 4 5]).io.host = .write 0x010 4 5 :: [] ∧ 4 < 8 ∧
    (asked [.read 0x004 8]).io.host = .read 0x004 8 :: [] := by decide

theorem meets_StatusReadsBusyDuringTransmission :
    transmitWave tiny (.txbit true) = some (bitWave tiny true) ∧ 2 < (bitWave tiny true).length ∧
    (asked [.idle, .idle, .read 4 4]).NoReset 3 ∧
    .wait ∉ (asked [.idle, .idle, .read 4 4]).io.host.take 2 ∧
    (asked [.idle, .idle, .read 4 4]).io.host[2]? = some (.read 4 4) ∧
    ∃ t, exec (.txbit true) (asked [.idle, .idle, .read 4 4]) = .next t :=
  ⟨rfl, by decide, by unfold State.NoReset; decide, by decide, rfl, exec_answers _ _⟩

theorem meets_ReadsDuringAnOperation :
    ∃ t, exec .busfree (asked [.read 4 4]) = .next t := exec_answers _ _

theorem reset_inv : State.reset.Inv where
  profile := by decide
  txd := rfl
  idle _ := rfl
  hung h := absurd h (by decide)
  ok h := absurd h (by decide)
  index _ := rfl

theorem meets_StepKeepsInvariant : State.reset.Inv ∧ ∃ t, step State.reset = .next t :=
  ⟨reset_inv, _, rfl⟩

theorem meets_ResetMeetsInvariant : Params.ref.wf = true ∧ tiny.wf = true := by decide

end Sys2Proof.Tests
end

section
/-! The reset values (10_state.md R45). -/

namespace Sys2Proof.Machine

/-- The reset state of a node is at reset whatever its parameters are: no item of R45 depends on them. -/
theorem State.resetOf_atReset (p : Params) : (State.resetOf p).AtReset where
  en := State.resetOf_en p
  txd := State.resetOf_txd p
  busy := State.resetOf_busy p
  resValid := State.resetOf_resValid p
  resOk := State.resetOf_resOk p
  result := State.resetOf_result p
  err := State.resetOf_err p
  idle := congrArg Seq.state (State.resetOf_seq p)
  evt := State.resetOf_evt p

/-- The machine's own reset state is the one of a node with the parameters of the spec's examples. -/
theorem State.reset_atReset : State.reset.AtReset := State.resetOf_atReset Params.ref

/-- Settles O1, from `AtReset` of the two forms of a reset state. -/
theorem resetValues : Obligations.ResetValues := by
  refine ⟨fun s hs => ?_, State.resetOf_params⟩
  have atReset : s.AtReset := by
    obtain rfl | ⟨p, rfl⟩ := hs
    · exact State.reset_atReset
    · exact State.resetOf_atReset p
  obtain ⟨en, txd, busy, resValid, resOk, result, err, idle, evt⟩ := atReset
  exact ⟨en, txd, busy, resValid, resOk, result, err, idle, evt⟩

end Sys2Proof.Machine
end

section
/-! The ticks of a host access (20_memory.md R65, R69). -/

namespace Sys2Proof.Machine

variable {s : State} {a n : Nat} {v : Word} {h : List HostReq}

/-- A read starts no operation. -/
theorem State.fetch_of_read (hhost : s.io.host = .read a n :: h) : s.fetch = none := by
  simp [State.fetch, hhost]

/-- Only a write of `CMD` starts an operation (20_memory.md R71). -/
theorem State.fetch_of_write_ne_cmd (hhost : s.io.host = .write a n v :: h)
    (hreg : regAt a n ≠ some .cmd) : s.fetch = none := by
  simp [State.fetch, hhost, hreg]

/-- A step that accepts no command and sees no reset is one passing tick. -/
theorem step_of_not_accepted (hwf : s.params.wf = true) (hfetch : s.fetch = none)
    (hreset : s.resetNow = false) : step s = .next s.pass := by
  simp [step, hwf, hfetch, State.tick, hreset]

/-- The step of a read: it is answered, and no register changes. -/
theorem step_read (hwf : s.params.wf = true) (hhost : s.io.host = .read a n :: h) :
    step s = .next { s with
      evt := none,
      io := { s.io with
        now := s.io.now + 1, rx := s.io.rx.next, host := h,
        pins := ⟨s.txd, s.en⟩ :: s.io.pins,
        reads := ⟨s.io.now, s.hostRead a n⟩ :: s.io.reads } } := by
  have notReset : s.resetNow = false := by simp [State.resetNow, hhost]
  rw [step_of_not_accepted hwf (State.fetch_of_read hhost) notReset]
  simp [State.pass, State.serve, Io.pass, hostAfter, hhost]

/-- The step of a write outside `CMD`: it reaches the message registers only. -/
theorem step_write_of_ne_cmd (hwf : s.params.wf = true) (hhost : s.io.host = .write a n v :: h)
    (hreg : regAt a n ≠ some .cmd) :
    step s = .next { s with
      msg := (s.hostWrite a n v).msg, evt := none,
      io := { s.io with
        now := s.io.now + 1, rx := s.io.rx.next, host := h,
        pins := ⟨s.txd, s.en⟩ :: s.io.pins } } := by
  have notReset : s.resetNow = false := by simp [State.resetNow, hhost]
  rw [step_of_not_accepted hwf (State.fetch_of_write_ne_cmd hhost hreg) notReset]
  simp [State.pass, State.serve, State.hostWrite_eq, Io.pass, hostAfter, hhost]

/-- A read that reaches no register gives 0. -/
theorem State.hostRead_of_no_reg (s : State) (hreg : regAt a n = none) : s.hostRead a n = 0 := by
  simp [State.hostRead, hreg]

/-- A write that reaches no register is ignored. -/
theorem State.hostWrite_of_no_reg (s : State) (v : Word) (hreg : regAt a n = none) :
    s.hostWrite a n v = s := by
  simp [State.hostWrite, hreg]

/-- Settles O54: such an access reaches no register, so its tick only passes and a read gives 0. -/
theorem badAccessHasNoEffect : Obligations.BadAccessHasNoEffect := by
  intro s a n h hwf hbad
  have noReg : regAt a n = none := regAt_of_bad (by omega)
  constructor
  · intro v hhost
    have notCmd : regAt a n ≠ some .cmd := by simp [noReg]
    rw [step_write_of_ne_cmd hwf hhost notCmd, s.hostWrite_of_no_reg v noReg]
  · intro hhost
    rw [step_read hwf hhost, s.hostRead_of_no_reg noReg]

end Sys2Proof.Machine
end

section
/-! The command word: its fields, and the decoder and the encoder against each other (30_encoding.md
R90 to R93). -/

namespace Sys2Proof

/-! ### The fields of a word, as the arithmetic of R90 -/

section
variable (w : Word)

theorem Word.opc_toNat : w.opc.toNat = w.toNat / 2 ^ 24 := by
  have hw := w.isLt
  rw [Word.opc, BitVec.extractLsb'_toNat, Nat.shiftRight_eq_div_pow]
  omega

theorem Word.zeroBits_toNat : w.zeroBits.toNat = w.toNat / 2 ^ 21 % 8 := by
  rw [Word.zeroBits, BitVec.extractLsb'_toNat, Nat.shiftRight_eq_div_pow]

theorem Word.count_toNat : w.count.toNat = w.toNat / 2 ^ 16 % 32 := by
  rw [Word.count, BitVec.extractLsb'_toNat, Nat.shiftRight_eq_div_pow]

theorem Word.operand_toNat : w.operand.toNat = w.toNat % 2 ^ 16 := by
  rw [Word.operand, BitVec.extractLsb'_toNat, Nat.shiftRight_zero]

end

section
variable (opc : BitVec 8) (n : BitVec 5) (v : Half)

theorem commandWord_toNat :
    (commandWord opc n v).toNat = opc.toNat * 2 ^ 24 + n.toNat * 2 ^ 16 + v.toNat := by
  have hn := n.isLt
  have hv := v.isLt
  simp only [commandWord, BitVec.toNat_append]
  rw [← Nat.shiftLeft_add_eq_or_of_lt hv, ← Nat.shiftLeft_add_eq_or_of_lt hn,
    ← Nat.shiftLeft_add_eq_or_of_lt (by decide)]
  simp only [Nat.shiftLeft_eq, show BitVec.toNat (0 : BitVec 3) = 0 from rfl]
  omega

@[simp] theorem commandWord_opc : (commandWord opc n v).opc = opc := by
  apply BitVec.eq_of_toNat_eq
  rw [Word.opc_toNat, commandWord_toNat]
  omega

@[simp] theorem commandWord_zeroBits : (commandWord opc n v).zeroBits = 0 := by
  apply BitVec.eq_of_toNat_eq
  rw [Word.zeroBits_toNat, commandWord_toNat, show BitVec.toNat (0 : BitVec 3) = 0 from rfl]
  omega

@[simp] theorem commandWord_count : (commandWord opc n v).count = n := by
  apply BitVec.eq_of_toNat_eq
  rw [Word.count_toNat, commandWord_toNat]
  omega

@[simp] theorem commandWord_operand : (commandWord opc n v).operand = v := by
  apply BitVec.eq_of_toNat_eq
  rw [Word.operand_toNat, commandWord_toNat]
  omega

end

/-- A word with bits 23:21 zero is the command word of its other fields. -/
theorem commandWord_of_zeroBits {w : Word} (hz : w.zeroBits = 0) :
    commandWord w.opc w.count w.operand = w := by
  have hz' : w.toNat / 2 ^ 21 % 8 = 0 := by rw [← w.zeroBits_toNat, hz]; rfl
  apply BitVec.eq_of_toNat_eq
  rw [commandWord_toNat, Word.opc_toNat, Word.count_toNat, Word.operand_toNat]
  omega

theorem legalCount_iff (n : BitVec 5) : legalCount n = true ↔ 1 ≤ n.toNat ∧ n.toNat ≤ 16 := by
  rw [legalCount, nMax, Bool.and_eq_true, decide_eq_true_iff, decide_eq_true_iff]

@[simp] theorem Ack.toBit_ofBit (b : Bool) : (Ack.ofBit b).toBit = b := by cases b <;> rfl

/-! ### What the operand forms of the decoder accept -/

section
variable {w : Word} {i : Instr}

theorem decodePlain_eq_ok {j : Instr} :
    decodePlain w j = .ok i ↔ (w.count = 0 ∧ w.operand = 0) ∧ j = i := by
  unfold decodePlain
  split
  next zero => simp [zero]
  next nonzero => simpa using fun hn hv _ => nonzero ⟨hn, hv⟩

theorem decodeBit_eq_ok {j : Bool → Instr} :
    decodeBit w j = .ok i ↔ ∃ b, (w.count = 0 ∧ w.operand = bitOperand b) ∧ j b = i := by
  unfold decodeBit
  split
  next zero => simp [zero, bitOperand]
  next notZero =>
    split
    next one => simp [one, bitOperand]
    next notOne =>
      constructor
      · nofun
      · rintro ⟨b, fields, -⟩
        cases b with
        | false => exact absurd fields notZero
        | true => exact absurd fields notOne

theorem decodeCount_eq_ok {j : BitVec 5 → Instr} :
    decodeCount w j = .ok i ↔ legalCount w.count = true ∧ j w.count = i := by
  unfold decodeCount
  split <;> simp [*]

theorem decodeRxbits_eq_ok :
    decodeRxbits w = .ok i ↔ w.operand = 0 ∧ legalCount w.count = true ∧ .rxbits w.count = i := by
  unfold decodeRxbits
  split
  next zero => simp [zero, decodeCount_eq_ok]
  next nonzero => simpa using fun hv _ _ => nonzero hv

end

/-! ### Decoder and encoder -/

/-- The command word of a well-formed operation decodes to it, with its operands (R92). -/
theorem decode_encode {i : Instr} (hwf : i.wf = true) : decode (encode i) = .ok i := by
  cases i with
  | rxbits n => simpa [encode, decode, decodeRxbits_eq_ok, Instr.wf] using hwf
  | txbits v n => simpa [encode, decode, decodeCount_eq_ok, Instr.wf] using hwf
  | txbit b => simp [encode, decode, decodeBit_eq_ok]
  | txack a => cases a <;> simp [encode, decode, decodeBit_eq_ok, Ack.toBit, Ack.ofBit]
  | _ => simp [encode, decode, decodePlain_eq_ok]

section
variable {w : Word} {i : Instr} {k : Nat}

/-- The word of a listed opcode with bits 23:21 zero, from its fields. -/
theorem commandWord_of_opc (hopc : w.opc.toNat = k) (hz : w.zeroBits.toNat = 0) :
    commandWord (BitVec.ofNat 8 k) w.count w.operand = w := by
  have opc : BitVec.ofNat 8 k = w.opc := by rw [← hopc, BitVec.ofNat_toNat, BitVec.setWidth_eq]
  rw [opc, commandWord_of_zeroBits (BitVec.eq_of_toNat_eq hz)]

theorem encode_of_decodePlain {j : Instr} (hopc : w.opc.toNat = k) (hz : w.zeroBits.toNat = 0)
    (h : decodePlain w j = .ok i) (hj : encode j = commandWord (BitVec.ofNat 8 k) 0 0)
    (hwf : j.wf = true) : i.wf = true ∧ encode i = w := by
  obtain ⟨⟨count, operand⟩, rfl⟩ := decodePlain_eq_ok.mp h
  exact ⟨hwf, by rw [hj, ← count, ← operand, commandWord_of_opc hopc hz]⟩

theorem encode_of_decodeBit {j : Bool → Instr} (hopc : w.opc.toNat = k)
    (hz : w.zeroBits.toNat = 0) (h : decodeBit w j = .ok i)
    (hj : ∀ b, encode (j b) = commandWord (BitVec.ofNat 8 k) 0 (bitOperand b))
    (hwf : ∀ b, (j b).wf = true) : i.wf = true ∧ encode i = w := by
  obtain ⟨b, ⟨count, operand⟩, rfl⟩ := decodeBit_eq_ok.mp h
  exact ⟨hwf b, by rw [hj, ← count, ← operand, commandWord_of_opc hopc hz]⟩

/-- A word that decodes is the command word of a well-formed operation, the decoded one: no second
word decodes to it (R92, R93). -/
theorem encode_of_decode (h : decode w = .ok i) : i.wf = true ∧ encode i = w := by
  unfold decode at h
  split at h
  -- the listed opcodes, in the decoder's order; then the words it rejects
  next hopc hz => exact encode_of_decodePlain hopc hz h rfl rfl
  next hopc hz => exact encode_of_decodePlain hopc hz h rfl rfl
  next hopc hz => exact encode_of_decodePlain hopc hz h rfl rfl
  next hopc hz => exact encode_of_decodePlain hopc hz h rfl rfl
  next hopc hz => exact encode_of_decodePlain hopc hz h rfl rfl
  next hopc hz => exact encode_of_decodePlain hopc hz h rfl rfl
  next hopc hz =>
    obtain ⟨operand, count, rfl⟩ := decodeRxbits_eq_ok.mp h
    exact ⟨count, by rw [encode, ← operand]; exact commandWord_of_opc hopc hz⟩
  next hopc hz => exact encode_of_decodePlain hopc hz h rfl rfl
  next hopc hz => exact encode_of_decodePlain hopc hz h rfl rfl
  next hopc hz => exact encode_of_decodeBit hopc hz h (fun _ => rfl) fun _ => rfl
  next hopc hz =>
    obtain ⟨count, rfl⟩ := decodeCount_eq_ok.mp h
    exact ⟨count, commandWord_of_opc hopc hz⟩
  next hopc hz =>
    exact encode_of_decodeBit hopc hz h (fun b => by rw [encode, Ack.toBit_ofBit]; rfl) fun _ => rfl
  next hopc hz => exact encode_of_decodePlain hopc hz h rfl rfl
  next hopc hz => exact encode_of_decodePlain hopc hz h rfl rfl
  all_goals cases h

end

end Sys2Proof
end

section
/-! The command word against the command table (30_encoding.md R92). -/

namespace Sys2Proof.Machine

/-! ### What a mask and a match say of the fields -/

/-- `(w & m) = c` holds of each field. -/
theorem fields_of_and_eq {w m c : Word} (h : w &&& m = c) :
    w.opc &&& m.opc = c.opc ∧ w.zeroBits &&& m.zeroBits = c.zeroBits ∧
    w.count &&& m.count = c.count ∧ w.operand &&& m.operand = c.operand := by
  subst h
  exact ⟨BitVec.extractLsb'_and.symm, BitVec.extractLsb'_and.symm, BitVec.extractLsb'_and.symm,
    BitVec.extractLsb'_and.symm⟩

/-- A value of which the mask leaves nothing but bit 0 is the operand bit (R91). -/
theorem eq_bitOperand_of_and_eq_zero {v : Half} (h : v &&& 0xFFFE = 0) :
    v = bitOperand (v.getLsbD 0) :=
  calc v = (v &&& 0xFFFE) ||| (v &&& 1) := by
        rw [← BitVec.and_or_distrib_left]
        exact BitVec.and_allOnes.symm
    _ = v &&& 1 := by rw [h]; exact BitVec.zero_or
    _ = (BitVec.ofBool (v.getLsbD 0)).setWidth 16 := BitVec.and_one_eq_setWidth_ofBool_getLsbD
    _ = bitOperand (v.getLsbD 0) := by cases v.getLsbD 0 <;> rfl

section
variable {w : Word} {r : CommandRow}

/-- A row whose mask holds all of bits 31:21, as every row's does, and whose match has bits 23:21 zero,
fixes the opcode of the words it selects and lets the mask decide the operands. -/
theorem CommandRow.selects.fields (h : r.selects w) (hopc : r.mask.opc = BitVec.allOnes 8)
    (hzero : r.mask.zeroBits = BitVec.allOnes 3) (hmatch : r.matchBits.zeroBits = 0) :
    commandWord r.matchBits.opc w.count w.operand = w ∧
    w.count &&& r.mask.count = r.matchBits.count ∧
    w.operand &&& r.mask.operand = r.matchBits.operand := by
  obtain ⟨bits, -⟩ := h
  obtain ⟨opc, zero, count, operand⟩ := fields_of_and_eq bits
  rw [hopc, BitVec.and_allOnes] at opc
  rw [hzero, BitVec.and_allOnes, hmatch] at zero
  exact ⟨opc ▸ commandWord_of_zeroBits zero, count, operand⟩

/-- A counted row selects only words with a legal count. -/
theorem CommandRow.selects.legalCount_of_counted (h : r.selects w) (hc : r.counted = true) :
    legalCount w.count = true := by
  obtain ⟨-, count⟩ := h
  rw [legalCount_iff, w.count_toNat]
  exact count hc

/-- A row that masks nothing out selects its match alone. -/
theorem CommandRow.selects.eq_match (h : r.selects w) (hmask : r.mask = BitVec.allOnes 32) :
    r.matchBits = w := by
  obtain ⟨bits, -⟩ := h
  rw [← bits, hmask, BitVec.and_allOnes]

/-- A row that masks bit 0 out selects its match with either operand bit. -/
theorem CommandRow.selects.eq_bit (h : r.selects w) (hmask : r.mask = 0xFFFFFFFE)
    (hmatch : r.matchBits = commandWord r.matchBits.opc 0 0) :
    ∃ b, commandWord r.matchBits.opc 0 (bitOperand b) = w := by
  obtain ⟨word, count, operand⟩ := h.fields (by rw [hmask]; rfl) (by rw [hmask]; rfl)
    (by rw [hmatch, commandWord_zeroBits])
  rw [hmask, hmatch, commandWord_count] at count
  rw [hmask, hmatch, commandWord_operand] at operand
  have count : w.count = 0 := BitVec.and_allOnes.symm.trans count
  rw [count, eq_bitOperand_of_and_eq_zero operand] at word
  exact ⟨_, word⟩

end

/-! ### The table and the encoder -/

/-- A word that a row selects is the command word of a well-formed operation with the row's
mnemonic. -/
theorem encode_of_selects {w : Word} {r : CommandRow} (hr : r ∈ commandTable) (h : r.selects w) :
    ∃ i, i.wf = true ∧ encode i = w ∧ mnemonicOf i = r.mnemonic := by
  simp only [commandTable, List.mem_cons, List.not_mem_nil, or_false] at hr
  obtain rfl | rfl | rfl | rfl | rfl | rfl | rfl | rfl | rfl | rfl | rfl | rfl | rfl | rfl := hr
  · exact ⟨.enable, rfl, h.eq_match rfl, rfl⟩
  · exact ⟨.disable, rfl, h.eq_match rfl, rfl⟩
  · exact ⟨.isen, rfl, h.eq_match rfl, rfl⟩
  · exact ⟨.busfree, rfl, h.eq_match rfl, rfl⟩
  · exact ⟨.rxstart, rfl, h.eq_match rfl, rfl⟩
  · exact ⟨.rxbit, rfl, h.eq_match rfl, rfl⟩
  · obtain ⟨word, -, operand⟩ := h.fields rfl rfl rfl
    have operand : w.operand = 0 := BitVec.and_allOnes.symm.trans operand
    exact ⟨.rxbits w.count, h.legalCount_of_counted rfl, by rwa [operand] at word, rfl⟩
  · exact ⟨.rxack, rfl, h.eq_match rfl, rfl⟩
  · exact ⟨.txstart, rfl, h.eq_match rfl, rfl⟩
  · obtain ⟨b, word⟩ := h.eq_bit rfl rfl
    exact ⟨.txbit b, rfl, word, rfl⟩
  · obtain ⟨word, -, -⟩ := h.fields rfl rfl rfl
    exact ⟨.txbits w.operand w.count, h.legalCount_of_counted rfl, word, rfl⟩
  · obtain ⟨b, word⟩ := h.eq_bit rfl rfl
    exact ⟨.txack (Ack.ofBit b), rfl, by rwa [encode, Ack.toBit_ofBit], rfl⟩
  · exact ⟨.readmsg, rfl, h.eq_match rfl, rfl⟩
  · exact ⟨.writemsg, rfl, h.eq_match rfl, rfl⟩

/-- The command word of a well-formed operation is selected by its row. -/
theorem exists_row_selects_encode {i : Instr} (hwf : i.wf = true) :
    ∃ r ∈ commandTable, r.mnemonic = mnemonicOf i ∧ r.selects (encode i) := by
  open Laws.EncodedByItsRow in
  have encoded : Statement i := by
    cases i with
    | enable => exact enable
    | disable => exact disable
    | isen => exact isen
    | busfree => exact busfree
    | rxstart => exact rxstart
    | rxbit => exact rxbit
    | rxbits n => exact rxbits n
    | rxack => exact rxack
    | txstart => exact txstart
    | txbit b => exact txbit b
    | txbits v n => exact txbits v n
    | txack a => exact txack a
    | readmsg => exact readmsg
    | writemsg => exact writemsg
  exact encoded hwf

/-- Settles O8: decoding and the table both say that the word is the command word of a well-formed
operation. -/
theorem commandTableSelects : Obligations.CommandTableSelects := by
  intro w
  constructor
  · intro i decoded
    obtain ⟨hwf, rfl⟩ := encode_of_decode decoded
    exact exists_row_selects_encode hwf
  · intro r hr selected
    obtain ⟨i, hwf, rfl, hname⟩ := encode_of_selects hr selected
    exact ⟨i, decode_encode hwf, hname⟩

end Sys2Proof.Machine
end

section
/-! A command word that selects no operation (30_encoding.md R93). -/

namespace Sys2Proof.Machine

variable {s : State} {w : Word} {h : List HostReq}

/-- A write of `CMD` while `BUSY` = 0 is a command (20_memory.md R71). -/
theorem State.fetch_of_write_cmd (hbusy : s.busy = false)
    (hhost : s.io.host = .write 0x000 4 w :: h) : s.fetch = some w := by
  simp [State.fetch, hbusy, hhost, regAt_cmd_iff]

/-- The accepting tick of a command: time passes and a log event ends (20_memory.md R71). -/
theorem State.tick_of_write_cmd (hbusy : s.busy = false)
    (hhost : s.io.host = .write 0x000 4 w :: h) :
    s.tick = { s with
      evt := none,
      io := { s.io with
        now := s.io.now + 1, rx := s.io.rx.next, host := h,
        pins := ⟨s.txd, s.en⟩ :: s.io.pins } } := by
  have notReset : s.resetNow = false := by simp [State.resetNow, hhost]
  have cmd : regAt 0x000 4 = some .cmd := (regAt_cmd_iff 0 4).mpr ⟨rfl, rfl⟩
  simp [State.tick, notReset, State.pass, State.serve, hhost, State.hostWrite_eq, cmd,
    Message.regWrite, Io.pass, hostAfter, hbusy]

/-- A word that no row selects does not decode. -/
theorem decode_error_of_not_selected (hnone : ∀ r ∈ commandTable, ¬ r.selects w) :
    ∃ e, decode w = .error e := by
  cases hdecode : decode w with
  | error e => exact ⟨e, rfl⟩
  | ok i =>
    obtain ⟨rows, -⟩ := commandTableSelects w
    obtain ⟨r, hr, -, selected⟩ := rows i hdecode
    exact absurd selected (hnone r hr)

/-- A read of `RESULT` (20_memory.md R70). -/
theorem State.hostRead_result (s : State) : s.hostRead 0x008 4 = s.result.setWidth 32 := rfl

/-- A read of `ERR` (20_memory.md R70). -/
theorem State.hostRead_err (s : State) : s.hostRead 0x00C 4 = s.err.toBits.setWidth 32 := rfl

/-- An illegal command word takes the error IllegalCommand, without a tick. -/
theorem rejectCommand_eq (s : State) :
    rejectCommand s = .next (s.accept.takeError ⟨.illegalCommand, .none, 0⟩) :=
  operate_of_raised (raise_apply s.accept _ _ _)

/-- The step that accepts a word which does not decode: the tick of the write, then the error. -/
theorem step_of_decode_error {e : DecodeError} (hwf : s.params.wf = true)
    (hfetch : s.fetch = some w) (hdecode : decode w = .error e) :
    step s = .next (s.tick.accept.takeError ⟨.illegalCommand, .none, 0⟩) := by
  simp [step, hwf, hfetch, hdecode, rejectCommand_eq]

/-- Settles O11: the word does not decode, so the step is the accepting tick and the error. -/
theorem illegalCommandWord : Obligations.IllegalCommandWord := by
  intro s w h hwf hbusy hhost hnone
  obtain ⟨e, hdecode⟩ := decode_error_of_not_selected hnone
  refine ⟨_, step_of_decode_error hwf (State.fetch_of_write_cmd hbusy hhost) hdecode,
    takeError_failed _ _ _ _, ?_, ?_, ?_, ?_⟩
  · rw [State.tick_of_write_cmd hbusy hhost]
    rfl
  · rw [State.takeError_io, State.accept_io, State.tick_of_write_cmd hbusy hhost]
  · rw [State.hostRead_result, State.takeError_result]
    rfl
  · rw [State.hostRead_err, State.takeError_err]
    rfl

end Sys2Proof.Machine
end

section
/-! The gate operations (40_gate_control.md R110 to R112). -/

namespace Sys2Proof.Machine

/-! ### What a completion shows the host -/

/-- A read of `STATUS` (20_memory.md R70). -/
theorem State.hostRead_status (s : State) : s.hostRead 0x004 4 = s.statusWord := rfl

/-- `STATUS` after a completion with `RES_OK` = 1: `RES_VALID`, `RES_OK` and the gate (10_state.md R31). -/
theorem State.statusWord_complete (s : State) (v : Half) :
    (s.complete true v).statusWord = if s.en then 0xD else 0xC := by
  rw [State.statusWord, State.complete_resOk, State.complete_resValid, State.complete_busy,
    State.complete_en]
  cases s.en <;> rfl

/-! ### The three operations -/

section
variable (s : State)

/-- `EN <- b` always succeeds, with the result 0. -/
theorem setGate_apply (b : Bool) : setGate b s = .ok (true, 0) { s with en := b } := rfl

/-- `EN <- b` between acceptance and completion is the completion of the machine with that gate. -/
theorem operate_setGate_eq (b : Bool) :
    operate (setGate b) s = .next (State.complete { s.accept with en := b } true 0) :=
  operate_of_ok (setGate_apply s.accept b)

theorem exec_enable_eq :
    exec .enable s = .next (State.complete { s.accept with en := true } true 0) :=
  operate_setGate_eq s true

theorem exec_disable_eq :
    exec .disable s = .next (State.complete { s.accept with en := false } true 0) :=
  operate_setGate_eq s false

theorem exec_isen_eq : exec .isen s = .next (s.accept.complete true (halfOfBit s.en)) :=
  operate_of_ok (r := (true, halfOfBit s.en)) (u := s.accept) rfl

end

/-! ### The statements -/

/-- Settles O14: the answer is the completion of the accepted machine with the gate open. -/
theorem enableOpensTheGate : Obligations.EnableOpensTheGate := by
  refine ⟨decode_encode (i := .enable) rfl, fun s => ⟨_, exec_enable_eq s, ?_, rfl⟩⟩
  rw [State.hostRead_status, State.statusWord_complete]
  rfl

/-- Settles O15: the answer is the completion of the accepted machine with the gate closed. -/
theorem disableClosesTheGate : Obligations.DisableClosesTheGate := by
  refine ⟨decode_encode (i := .disable) rfl, fun s => ⟨_, exec_disable_eq s, ?_, rfl⟩⟩
  rw [State.hostRead_status, State.statusWord_complete]
  rfl

/-- Settles O16: the answer is the completion of the accepted machine with the gate as its result, and
`STATUS` shows the gate of the completed machine. -/
theorem isenReportsTheGate : Obligations.IsenReportsTheGate := by
  refine ⟨decode_encode (i := .isen) rfl, fun s => ⟨_, exec_isen_eq s, ?_, ?_, rfl⟩⟩
  all_goals
    intro gate
    rw [State.hostRead_result, State.complete_result, State.hostRead_status,
      State.statusWord_complete, State.accept_en, gate]
    exact ⟨rfl, rfl⟩

end Sys2Proof.Machine
end

section
/-! How a Codec operation started alone ends: what its pseudocode's end makes of the accepted machine
(20_memory.md R71; 60_exceptions.md R220). -/

namespace Sys2Proof.Machine

variable {i j : Instr} {s t u : State} {w : List Level} {body : Engine (Bool × Half)}
  {ok : Bool} {v : Half} {c : ErrCode} {f : ErrField} {x : Byte}

/-- The pseudocode reached its end in `u`, without an error. -/
theorem completes_of_ok (hexec : exec i s = operate body s) (hbody : body s.accept = .ok (ok, v) u)
    (hst : Spent s.accept u w) (hevt : u.evt = none) : Completes i s (u.complete ok v) w ok v where
  answers := hexec.trans (operate_of_ok hbody)
  ran := ⟨hst.params, hst.en, hst.now, hst.rx, hst.pins⟩
  reports := complete_reports u ok v
  quiet := hevt

/-- The pseudocode raised an error in `u`. -/
theorem aborts_of_raised (hexec : exec i s = operate body s)
    (hbody : body s.accept = .error (.raised ⟨c, f, x⟩) u) (hst : Spent s.accept u w) :
    Aborts i s (u.takeError ⟨c, f, x⟩) w c f x where
  answers := hexec.trans (operate_of_raised hbody)
  ran := ⟨hst.params, hst.en, hst.now, hst.rx, hst.pins⟩
  failed := takeError_failed u c f x

theorem Completes.of_exec_eq (h : Completes j s t w ok v) (hexec : exec i s = exec j s) :
    Completes i s t w ok v :=
  { h with answers := hexec.trans h.answers }

theorem Aborts.of_exec_eq (h : Aborts j s t w c f x) (hexec : exec i s = exec j s) :
    Aborts i s t w c f x :=
  { h with answers := hexec.trans h.answers }

/-- A completion writes the result registers only, so it is in the frame of a pseudocode that changed
nothing itself. For one that wrote `T_S`, `T0` or `SHREG`, take `s` with these registers of `u`. -/
theorem onlyResults_complete (hf : u = { s.accept with evt := u.evt, io := u.io }) (ok : Bool)
    (v : Half) : s.OnlyResults (u.complete ok v) := by
  rw [hf]
  rfl

theorem onlyResults_takeError (hf : u = { s.accept with evt := u.evt, io := u.io }) (e : Err) :
    s.OnlyResults (u.takeError e) := by
  rw [hf]
  rfl

end Sys2Proof.Machine
end

section
/-! BUSFREE (41_codec_receive.md R123). -/

namespace Sys2Proof.Machine

/-- Settles O18: `BusFree`'s loop is spent in full on a line at rest, and left at the first active
sample. -/
theorem busfreeTestsOneBitPeriod : Obligations.BusfreeTestsOneBitPeriod := by
  refine ⟨decode_encode (i := .busfree) rfl,
    fun s hwf => ⟨fun hn hrest => ?_, fun k hk hn hrest hactive => ?_⟩⟩
  · obtain ⟨u, hu, hst, hf⟩ := busFreeLoop_free s.params.tBit (s := s.accept) rfl hn hrest
    have sampled : s.params.tBit ≠ 0 := Nat.ne_zero_of_lt (highOf_lt hwf false)
    have quiet : u.evt = none := by
      rw [hf]
      exact if_neg sampled
    exact ⟨_, completes_of_ok rfl (engine_bind_ok hu) hst quiet,
      onlyResults_complete (by rw [hf]) _ _⟩
  · obtain ⟨u, hu, hst, hf⟩ := busFreeLoop_taken k (s := s.accept) rfl hn hrest hactive hk
    have quiet : u.evt = none := by rw [hf]
    exact ⟨_, completes_of_ok rfl (engine_bind_ok hu) hst quiet,
      onlyResults_complete (by rw [hf]) _ _⟩

end Sys2Proof.Machine
end

section
/-! One pulse: its measurement, or the deadline it misses (41_codec_receive.md R120, R121), and the
operations that receive one pulse, RXSTART, RXBIT and RXACK (R124, R125, R127). -/

namespace Sys2Proof.Machine

/-! ### The deadline -/

/-- A deadline seen from a later start. -/
theorem TimeoutAt.shift {p : Params} {s t : State} {w : List Level} {o n : Nat}
    (h : TimeoutAt p s.rxAt o n) (hst : Spent s t w) (ho : w.length = o) :
    TimeoutAt p t.rxAt 0 n := by
  have same : ∀ k, t.rxAt (0 + k) = s.rxAt (o + k) := fun k => by rw [hst.rxAt, ho, Nat.zero_add]
  obtain ⟨m, hmax, hclock, ⟨hgap, hn⟩ | ⟨g, hg, hgap, hstuck, hn⟩⟩ := h
  · exact ⟨m, hmax, hclock, .inl ⟨fun k hk => by rw [same, hgap k hk], hn⟩⟩
  · refine ⟨m, hmax, hclock, .inr ⟨g, hg, fun k hk => by rw [same, hgap k hk], fun k hk => ?_, hn⟩⟩
    rw [Nat.add_assoc, same, ← Nat.add_assoc, hstuck k hk]

theorem ne_active_of_gap {rx : Nat → Level} {g : Nat} (h : ∀ k, k < g → rx (0 + k) = .inactive)
    (j : Nat) (hj : j < g) : rx j ≠ .active := by
  have rests := h j hj
  rw [Nat.zero_add] at rests
  rw [rests]
  exact nofun

/-- `RxPulse` raises Timeout in its first wait, where no pulse begins in time, or in its second, where
the pulse does not end in time (41_codec_receive.md R120, R121). -/
theorem rxPulse_timeout (pl : Place) {n : Nat} {s : State} (hb : s.busy = true)
    (h : TimeoutAt s.params s.rxAt 0 n) (hn : s.NoReset n) :
    ∃ t, rxPulse pl s = .error (.raised ⟨.timeout, pl.field, pl.index⟩) t ∧
      Spent s t (List.replicate n s.txd) ∧
      t = { s with t0 := t.t0, tS := t.tS, evt := t.evt, io := t.io } := by
  obtain ⟨m, hmax, hclock, ⟨hgap, rfl⟩ | ⟨g, hg, hgap, hstuck, rfl⟩⟩ := h
  · obtain ⟨t, ht, hst, hf⟩ :=
      waitLevel_timeout .active pl n hb hn (ne_active_of_gap hgap) hmax hclock
    exact ⟨t, engine_bind_error ht, hst, by rw [hf]⟩
  · have begins : s.rxAt g = .active := by simpa using hstuck 0 (Nat.zero_le m)
    have inTime : Within s.params.tWaitMax (g + 1) := fun k hk => by
      rw [hmax] at hk
      cases hk
      exact hg
    obtain ⟨a, ha, hsa, hfa⟩ := waitLevel_found .active pl g hb (hn.mono (Nat.le_add_right _ _))
      (ne_active_of_gap hgap) begins inTime
    have hsb : Spent s { a with t0 := s.io.now + .ofNat 64 g } (List.replicate (g + 1) s.txd) := by
      simpa using hsa.trans
        (Spent.of_io (s := a) (t := { a with t0 := s.io.now + .ofNat 64 g }) rfl rfl rfl rfl)
    have noEnd : ∀ j, j < m →
        ({ a with t0 := s.io.now + .ofNat 64 g } : State).rxAt j ≠ .inactive := fun j hj => by
      rw [hsb.rxAt, List.length_replicate, show g + 1 + j = 0 + g + (1 + j) by omega,
        hstuck _ (by omega)]
      simp
    obtain ⟨t, ht, hbt, hft⟩ := waitLevel_timeout .inactive pl m (hsb.busy.trans hb)
      (hsb.quiet m (by rwa [List.length_replicate])) noEnd (hsb.params ▸ hmax) hclock
    have txd : ({ a with t0 := s.io.now + .ofNat 64 g } : State).txd = s.txd := by rw [hfa]
    refine ⟨t, ?_, ?_, ?_⟩
    · rw [rxPulse, engine_bind_ok ha, engine_bind_ok (engine_modify a _)]
      exact engine_bind_error ht
    · have := hsb.trans hbt
      rwa [txd, List.replicate_append_replicate] at this
    · rw [hft, hfa]

/-! ### An operation that begins with the reception of a pulse -/

/-- Such an operation ends with the error of a pulse that does not come. -/
theorem aborts_of_timeout {i : Instr} {s : State} {body : Engine (Bool × Half)} {pl : Place}
    {n : Nat} (hexec : exec i s = operate body s)
    (hbody : ∀ {e u}, rxPulse pl s.accept = .error e u → body s.accept = .error e u)
    (h : TimeoutAt s.params s.rxAt 0 n) (hn : s.NoReset n) :
    ∃ t, Aborts i s t (List.replicate n s.txd) .timeout pl.field pl.index ∧ s.OnlyPulse t := by
  obtain ⟨u, hu, hst, hf⟩ := rxPulse_timeout pl (s := s.accept) rfl h hn
  exact ⟨_, aborts_of_raised hexec (hbody hu) hst,
    onlyResults_takeError (s := { s with tS := u.tS, t0 := u.t0 }) hf _⟩

/-! ### RXSTART -/

/-- `RxStart` decides whether a pulse lies in the start window (41_codec_receive.md R124). -/
theorem rxStart_spec {g H : Nat} {s : State} (hb : s.busy = true)
    (hp : PulseAt s.params s.rxAt 0 g H) (hn : s.NoReset (g + H + 1)) :
    ∃ t, rxStart s = .ok (isStart s.params H) t ∧
      Spent s t (List.replicate (g + H + 1) s.txd) ∧
      t = { s with t0 := t.t0, tS := t.tS, evt := none, io := t.io } := by
  obtain ⟨t, ht, hst, hf⟩ := rxPulse_spec ⟨.start, 0⟩ hb hp hn
  refine ⟨t, ?_, hst, by rw [hf]⟩
  rw [rxStart, engine_bind_ok ht, engine_bind_ok (engine_get t), engine_pure, hst.params]

/-- Settles O19: `RxStart` measures the pulse, and the window decides between the completion and
NotAStartBit. -/
theorem rxstartTestsTheStartWindow : Obligations.RxstartTestsTheStartWindow := by
  refine ⟨decode_encode (i := .rxstart) rfl, fun s hwf => ⟨fun g H hp hn => ?_, fun n h hn => ?_⟩⟩
  · obtain ⟨-, -, -, htol, -⟩ := (wf_iff s.params).mp hwf
    obtain ⟨u, hu, hst, hf⟩ := rxStart_spec (s := s.accept) rfl hp hn
    have quiet : u.evt = none := by rw [hf]
    have frame : u =
        { ({ s with tS := u.tS, t0 := u.t0 } : State).accept with evt := u.evt, io := u.io } := by
      rw [hf]
      rfl
    constructor
    · intro hin
      have isStart : isStart s.accept.params H = true := (isStart_iff _ _ htol).mpr hin
      rw [isStart] at hu
      exact ⟨_, completes_of_ok rfl (engine_bind_ok hu) hst quiet, onlyResults_complete frame _ _⟩
    · intro hout
      have isStart : isStart s.accept.params H = false :=
        Bool.eq_false_iff.mpr (mt (isStart_iff _ _ htol).mp hout)
      rw [isStart] at hu
      exact ⟨_, aborts_of_raised rfl (engine_bind_ok hu) hst, onlyResults_takeError frame _⟩
  · exact aborts_of_timeout (pl := ⟨.start, 0⟩) rfl
      (fun hu => engine_bind_error (engine_bind_error hu)) h hn

/-! ### RXBIT and RXACK -/

theorem halfOfBit_eq (b : Bool) : halfOfBit b = if b then 1 else 0 := by cases b <;> rfl

/-- To the host RXACK is RXBIT: the number of a handshake value is the symbol it is received as
(41_codec_receive.md R127). -/
theorem exec_rxack_eq_rxbit (s : State) : exec .rxack s = exec .rxbit s := by
  have numbered : (rxAck .alone >>= fun a => pure (true, halfOfBit (match a with
      | .acknowledged => false
      | .rejected => true))) =
      (rxBit .alone >>= fun b => pure (true, halfOfBit b) : Engine (Bool × Half)) := by
    rw [rxAck, bind_assoc]
    congr 1
    funext b
    cases b <;> rfl
  exact congrArg (operate · s) numbered

section
variable {i : Instr} {s : State}

/-- RXBIT, or what runs like it, on a pulse. -/
theorem completes_bit (hexec : exec i s = exec .rxbit s) {g H : Nat} {b : Bool}
    (hp : PulseAt s.params s.rxAt 0 g H) (hb : IsSymbol s.params H b)
    (hn : s.NoReset (g + H + 1)) :
    ∃ t, Completes i s t (List.replicate (g + H + 1) s.txd) true (if b then 1 else 0) ∧
      s.OnlyPulse t := by
  obtain ⟨u, hu, hst, hf⟩ :=
    rxBit_of_bitAt .alone (s := s.accept) rfl ⟨g, H, hp, hb, rfl⟩ hn
  have quiet : u.evt = none := by rw [hf]
  have completes := completes_of_ok (i := .rxbit) rfl (engine_bind_ok hu) hst quiet
  rw [halfOfBit_eq] at completes
  refine ⟨_, completes.of_exec_eq hexec, ?_⟩
  exact onlyResults_complete (s := { s with tS := u.tS, t0 := u.t0 }) (by rw [hf]; rfl) _ _

/-- RXBIT, or what runs like it, without one. -/
theorem aborts_bit (hexec : exec i s = exec .rxbit s) {n : Nat}
    (h : TimeoutAt s.params s.rxAt 0 n) (hn : s.NoReset n) :
    ∃ t, Aborts i s t (List.replicate n s.txd) .timeout .none 0 ∧ s.OnlyPulse t := by
  obtain ⟨t, aborts, frame⟩ := aborts_of_timeout (i := .rxbit) (pl := .alone) rfl
    (fun hu => engine_bind_error (engine_bind_error hu)) h hn
  exact ⟨t, aborts.of_exec_eq hexec, frame⟩

end

/-- Settles O20, by `RxBit` on a pulse and without one. -/
theorem rxbitReadsTheNearerSymbol : Obligations.RxbitReadsTheNearerSymbol :=
  ⟨decode_encode (i := .rxbit) rfl, fun _ _ =>
    ⟨fun _ _ _ hp hb hn => completes_bit rfl hp hb hn, fun _ h hn => aborts_bit rfl h hn⟩⟩

/-- Settles O22: RXACK runs as RXBIT. -/
theorem rxackReadsAHandshake : Obligations.RxackReadsAHandshake :=
  ⟨decode_encode (i := .rxack) rfl, fun s _ =>
    ⟨fun _ _ _ hp hb hn => completes_bit (exec_rxack_eq_rxbit s) hp hb hn,
      fun _ h hn => aborts_bit (exec_rxack_eq_rxbit s) h hn⟩⟩

end Sys2Proof.Machine
end

section
/-! RXBITS (41_codec_receive.md R126). -/

namespace Sys2Proof.Machine

/-- Outside a transaction `SEQ.bit` is not counted (10_state.md R27). -/
theorem setSeqBit_of_idle {s : State} (h : s.seq.state = .idle) (n : Nat) :
    setSeqBit n s = .ok () s := by
  simp [setSeqBit, h]

/-- The loop of `RxBits` outside a transaction, with bits on the line for its first turns: they are
shifted in, `SEQ` stays, and the loop goes on with the `k` turns left. -/
theorem rxBitsLoop_received (pl : Place) (k : Nat) (bs : List Bool) : ∀ {n : Nat} {s : State},
    s.busy = true → s.seq.state = .idle → BitsAt s.params s.rxAt bs 0 n → s.NoReset n →
    ∃ t, rxBitsLoop pl (k + bs.length) s = rxBitsLoop pl k t ∧
      Spent s t (List.replicate n s.txd) ∧
      t = { s with
        t0 := t.t0, tS := t.tS, shreg := shifted s.shreg bs,
        evt := if bs = [] then s.evt else none, io := t.io } := by
  induction bs with
  | nil =>
    intro n s _ _ h _
    cases h
    exact ⟨s, rfl, .refl s, rfl⟩
  | cons b bs ih =>
    intro n s hb hidle h hn
    obtain ⟨x, y, hbit, hbits, rfl⟩ := h
    obtain ⟨t, ht, hst, hf⟩ := rxBit_of_bitAt pl hb hbit (hn.mono (Nat.le_add_right _ _))
    have hsu : Spent s { t with shreg := shiftIn t.shreg b } (List.replicate x s.txd) := by
      simpa using hst.trans
        (Spent.of_io (s := t) (t := { t with shreg := shiftIn t.shreg b }) rfl rfl rfl rfl)
    have idle : ({ t with shreg := shiftIn t.shreg b } : State).seq.state = .idle := by
      rw [hf]
      exact hidle
    have rest : BitsAt t.params ({ t with shreg := shiftIn t.shreg b } : State).rxAt bs 0 y := by
      rw [hst.params]
      exact BitsAt.shift hsu bs (by simpa using hbits)
    obtain ⟨v, hv, huv, hg⟩ := ih (hsu.busy.trans hb) idle rest
      (hsu.quiet y (by rwa [List.length_replicate]))
    have txd : ({ t with shreg := shiftIn t.shreg b } : State).txd = s.txd := by rw [hf]
    refine ⟨v, ?_, ?_, ?_⟩
    · rw [List.length_cons, ← Nat.add_assoc, rxBitsLoop, engine_bind_ok ht,
        engine_bind_ok (engine_modify t _), engine_bind_ok (setSeqBit_of_idle idle _), hv]
    · have := hsu.trans huv
      rwa [txd, List.replicate_append_replicate] at this
    · rw [hg, hf]
      simp [shifted]

section
variable {pl : Place} {bs : List Bool} {s : State}

/-- `RxBits` outside a transaction is its loop from an empty `SHREG`, and then its value. -/
theorem rxBits_of_idle (hidle : s.seq.state = .idle) (n : Nat) :
    rxBits n pl s = (rxBitsLoop pl n >>= fun _ => get >>= fun u => pure (lowBits u.shreg n))
      { s with shreg := 0 } :=
  (engine_bind_ok (engine_modify s _)).trans
    (engine_bind_ok (setSeqBit_of_idle (s := { s with shreg := 0 }) hidle n))

theorem Spent.of_shreg {t : State} {w : List Level} {v : Half}
    (h : Spent { s with shreg := v } t w) : Spent s t w :=
  (Spent.of_io (s := s) (t := { s with shreg := v }) rfl rfl rfl rfl).trans h

/-- `RxBits` with its bits on the line: they are its value, and `SEQ` stays. -/
theorem rxBits_received (hb : s.busy = true) (hidle : s.seq.state = .idle) (hbs : bs ≠ []) {n : Nat}
    (hbits : BitsAt s.params s.rxAt bs 0 n) (hn : s.NoReset n) :
    ∃ t, rxBits bs.length pl s = .ok (lowBits (shifted 0 bs) bs.length) t ∧
      Spent s t (List.replicate n s.txd) ∧
      t = { s with t0 := t.t0, tS := t.tS, shreg := t.shreg, evt := none, io := t.io } := by
  obtain ⟨t, ht, hst, hf⟩ :=
    rxBitsLoop_received pl 0 bs (s := { s with shreg := 0 }) hb hidle hbits hn
  rw [Nat.zero_add] at ht
  have shreg : t.shreg = shifted 0 bs := by rw [hf]
  rw [if_neg hbs] at hf
  refine ⟨t, ?_, hst.of_shreg, by rw [hf]⟩
  rw [rxBits_of_idle hidle, engine_bind_ok ht, ← shreg]
  rfl

/-- `RxBits` with fewer bits on the line, and then no pulse in time. -/
theorem rxBits_timeout (hb : s.busy = true) (hidle : s.seq.state = .idle) {a c n : Nat}
    (hlen : bs.length < c) (hbits : BitsAt s.params s.rxAt bs 0 a)
    (htime : TimeoutAt s.params s.rxAt a n) (hn : s.NoReset (a + n)) :
    ∃ t, rxBits c pl s = .error (.raised ⟨.timeout, pl.field, pl.index⟩) t ∧
      Spent s t (List.replicate (a + n) s.txd) ∧
      t = { s with t0 := t.t0, tS := t.tS, shreg := t.shreg, evt := t.evt, io := t.io } := by
  obtain ⟨k, rfl⟩ : ∃ k, c = k + 1 + bs.length := ⟨c - bs.length - 1, by omega⟩
  obtain ⟨u, hu, hsu, hf⟩ := rxBitsLoop_received pl (k + 1) bs (s := { s with shreg := 0 }) hb hidle
    hbits (hn.mono (Nat.le_add_right _ _))
  have hsu : Spent s u (List.replicate a s.txd) := hsu.of_shreg
  have htime : TimeoutAt u.params u.rxAt 0 n := by
    rw [hsu.params]
    exact htime.shift hsu List.length_replicate
  obtain ⟨t, ht, hut, hg⟩ := rxPulse_timeout pl (hsu.busy.trans hb) htime
    (hsu.quiet n (by rwa [List.length_replicate]))
  have loop : rxBitsLoop pl (k + 1 + bs.length) { s with shreg := 0 } =
      .error (.raised ⟨.timeout, pl.field, pl.index⟩) t :=
    hu.trans (engine_bind_error (engine_bind_error ht))
  have txd : u.txd = s.txd := by rw [hf]
  refine ⟨t, (rxBits_of_idle hidle _).trans (engine_bind_error loop), ?_, by rw [hg, hf]⟩
  have := hsu.trans hut
  rwa [txd, List.replicate_append_replicate] at this

end

/-- RXBITS with a legal count is `RxBits` and the value it returns. -/
theorem exec_rxbits_of_legal {c : BitVec 5} (h : legalCount c = true) (s : State) :
    exec (.rxbits c) s = operate (rxBits c.toNat .alone >>= fun v => pure (true, v)) s := by
  rw [exec, execRxbits, if_pos h]

/-- The word of RXBITS as R126 writes it. -/
theorem rxbits_word (c : BitVec 5) :
    (0x12000000 ||| c.setWidth 32 <<< 16 : Word) = encode (.rxbits c) := by
  revert c
  decide

/-- Settles O21: `RxBits` receives as many bits as are counted, or fewer and then meets the deadline. -/
theorem rxbitsAssemblesTheValue : Obligations.RxbitsAssemblesTheValue := by
  intro s c _ hidle hc
  obtain ⟨hpos, h16⟩ := (legalCount_iff c).mp hc
  have runs := exec_rxbits_of_legal hc s
  refine ⟨?_, fun bs n hlen hbits hn => ?_, fun bs a n hlen hbits htime hn => ?_⟩
  · rw [rxbits_word]
    exact decode_encode (i := .rxbits c) hc
  · have hbs : bs ≠ [] := List.ne_nil_of_length_pos (by omega)
    obtain ⟨u, hu, hst, hf⟩ :=
      rxBits_received (pl := .alone) (s := s.accept) rfl hidle hbs hbits hn
    rw [hlen] at hu
    have quiet : u.evt = none := by rw [hf]
    refine ⟨_, completes_of_ok runs (engine_bind_ok hu) hst quiet, ?_, ?_⟩
    · rw [State.complete_result, ← hlen]
      exact lowBits_shifted bs (by omega)
    · exact onlyResults_complete (s := { s with shreg := u.shreg, tS := u.tS, t0 := u.t0 })
        (by rw [hf]; rfl) _ _
  · obtain ⟨u, hu, hst, hf⟩ :=
      rxBits_timeout (pl := .alone) (s := s.accept) rfl hidle hlen hbits htime hn
    exact ⟨_, aborts_of_raised runs (engine_bind_error hu) hst,
      onlyResults_takeError (s := { s with shreg := u.shreg, tS := u.tS, t0 := u.t0 }) hf _⟩

end Sys2Proof.Machine
end

section
/-! The transmit operations of the Codec started alone (42_codec_transmit.md R141 to R144). -/

namespace Sys2Proof.Machine

variable {i : Instr} {s : State}

/-- A transmit operation completes where its pseudocode does. `r` is the machine it leaves, but for the
result registers, time and the host: `s` with the registers that the pseudocode wrote. -/
theorem completes_transmit {body : Engine Unit} {r : State} {w : List Level}
    (hexec : exec i s = operate (transmit body) s)
    (hbody : ∃ u, body s.accept = .ok () u ∧ Spent s.accept u w ∧
      u = { r.accept with evt := none, io := u.io }) :
    ∃ t, Completes i s t w true 0 ∧ r.OnlyResults t := by
  obtain ⟨u, hu, hst, hf⟩ := hbody
  have quiet : u.evt = none := by rw [hf]
  exact ⟨_, completes_of_ok hexec (engine_bind_ok hu) hst quiet,
    onlyResults_complete (by rw [hf]) _ _⟩

/-! ### TXSTART -/

/-- Settles O24, by `TxStart`. -/
theorem txstartDrivesAStartBit : Obligations.TxstartDrivesAStartBit :=
  ⟨decode_encode (i := .txstart) rfl, fun s hwf hn =>
    completes_transmit (r := { s with txd := .inactive }) rfl
      (txStart_spec (s := s.accept) hwf rfl hn)⟩

/-! ### TXBIT and TXACK -/

/-- TXBIT, or what runs like it. -/
theorem completes_txbit {b : Bool} (hexec : exec i s = exec (.txbit b) s)
    (hwf : s.params.wf = true) (hn : s.NoReset s.params.tBit) :
    ∃ t, Completes i s t (bitWave s.params b) true 0 ∧
      State.OnlyResults { s with txd := .inactive } t :=
  completes_transmit hexec (txBit_spec b (s := s.accept) hwf rfl hn)

/-- The words of TXBIT as R142 writes them. -/
theorem txbit_word (b : Bool) : (if b then 0x21000001 else 0x21000000) = encode (.txbit b) := by
  cases b <;> rfl

/-- Settles O25, by `TxBit`. -/
theorem txbitDrivesADataBit : Obligations.TxbitDrivesADataBit := by
  refine ⟨fun b => ?_, fun s b hwf hn => completes_txbit rfl hwf hn⟩
  rw [txbit_word]
  exact decode_encode (i := .txbit b) rfl

/-- TXACK is TXBIT with the number of the handshake value as its bit (42_codec_transmit.md R144). -/
theorem exec_txack_eq_txbit (a : Ack) (s : State) : exec (.txack a) s = exec (.txbit a.toBit) s := by
  cases a <;> rfl

/-- Settles O27: TXACK runs as TXBIT. -/
theorem txackDrivesAHandshake : Obligations.TxackDrivesAHandshake :=
  ⟨decode_encode (i := .txack .acknowledged) rfl, decode_encode (i := .txack .rejected) rfl,
    fun s hwf hn => ⟨completes_txbit (exec_txack_eq_txbit .acknowledged s) hwf hn,
      completes_txbit (exec_txack_eq_txbit .rejected s) hwf hn⟩⟩

/-! ### TXBITS -/

/-- The loop of `TxBits` outside a transaction: as `txBitsLoop_spec`, from any level of `TXD` and with
any log event, and `SEQ` stays, its bit count too. -/
theorem txBitsLoop_of_idle (n : Nat) : ∀ {s : State}, s.params.wf = true → s.busy = true →
    s.seq.state = .idle → s.NoReset (n * s.params.tBit) →
    ∃ t, txBitsLoop n s = .ok () t ∧ Spent s t (bitsWave s.params (bitsOf s.shreg n)) ∧
      t = { s with
        txd := if n = 0 then s.txd else .inactive, evt := if n = 0 then s.evt else none,
        io := t.io } := by
  induction n with
  | zero => exact fun {s} _ _ _ _ => ⟨s, rfl, .refl s, rfl⟩
  | succ n ih =>
    intro s hwf hb hidle hn
    rw [Nat.succ_mul, Nat.add_comm] at hn
    obtain ⟨t, ht, hst, hf⟩ :=
      txBit_spec (s.shreg.getLsbD n) hwf hb (hn.mono (Nat.le_add_right _ _))
    have params : t.params = s.params := hst.params
    have shreg : t.shreg = s.shreg := by rw [hf]
    have idle : t.seq.state = .idle := by
      rw [hf]
      exact hidle
    have noReset : t.NoReset (n * t.params.tBit) := by
      rw [params]
      exact hst.quiet _ (by rwa [bitWave_length hwf])
    obtain ⟨u, hu, htu, hg⟩ := ih (params ▸ hwf) (hst.busy.trans hb) idle noReset
    rw [params, shreg] at htu
    refine ⟨u, ?_, ?_, ?_⟩
    · rw [txBitsLoop, engine_bind_ok (engine_get s), engine_bind_ok ht,
        engine_bind_ok (setSeqBit_of_idle idle n), hu]
    · rw [bitsOf_succ]
      exact hst.trans htu
    · rw [hg, hf]
      simp

/-- `TxBits` outside a transaction is its loop on a `SHREG` that holds the value. -/
theorem txBits_of_idle (hidle : s.seq.state = .idle) (v : Half) (n : Nat) :
    txBits v n s = txBitsLoop n { s with shreg := v } :=
  (engine_bind_ok (engine_modify s _)).trans
    (engine_bind_ok (setSeqBit_of_idle (s := { s with shreg := v }) hidle n))

/-- TXBITS with a legal count is `TxBits`. -/
theorem exec_txbits_of_legal {n : BitVec 5} (h : legalCount n = true) (v : Half) (s : State) :
    exec (.txbits v n) s = operate (transmit (txBits v n.toNat)) s := by
  rw [exec, execTxbits, if_pos h]

/-- The or of two command words is the command word of the or of their fields. -/
theorem commandWord_or (opc opc' : BitVec 8) (n n' : BitVec 5) (v v' : Half) :
    commandWord opc n v ||| commandWord opc' n' v' =
      commandWord (opc ||| opc') (n ||| n') (v ||| v') := by
  have high : opc ++ (0 : BitVec 3) ++ n ||| opc' ++ (0 : BitVec 3) ++ n' =
      (opc ||| opc') ++ (0 : BitVec 3) ++ (n ||| n') := by
    rw [BitVec.or_append, BitVec.or_append, BitVec.or_self]
  exact BitVec.or_append.trans (congrArg (· ++ (v ||| v')) high)

/-- The word of TXBITS as R143 writes it. -/
theorem txbits_word (v : Half) (n : BitVec 5) :
    (0x22000000 ||| n.setWidth 32 <<< 16 ||| v.setWidth 32 : Word) = encode (.txbits v n) := by
  have opcode : ((0x22000000 : Nat) : Word) = commandWord 0x22 0 0 := rfl
  have count : (n.setWidth 32 <<< 16 : Word) = commandWord 0 n 0 := by
    revert n
    decide
  have operand : (v.setWidth 32 : Word) = commandWord 0 0 v :=
    BitVec.setWidth_eq_append (by decide)
  rw [opcode, count, operand, commandWord_or, commandWord_or]
  simp [encode]

/-- Settles O26: `TxBits` sends the bits below the count, the most significant first. -/
theorem txbitsDrivesTheLowBits : Obligations.TxbitsDrivesTheLowBits := by
  intro s v n hwf hidle hlegal hn
  obtain ⟨hpos, -⟩ := (legalCount_iff n).mp hlegal
  have counted : n.toNat ≠ 0 := Nat.one_le_iff_ne_zero.mp hpos
  have wave : ((List.range n.toNat).reverse.flatMap fun k => bitWave s.params (v.getLsbD k)) =
      bitsWave s.params (bitsOf v n.toNat) := (List.flatMap_map _ _ _).symm
  rw [txbits_word, wave]
  refine ⟨decode_encode (i := .txbits v n) hlegal,
    completes_transmit (exec_txbits_of_legal hlegal v s) ?_⟩
  obtain ⟨u, hu, hst, hf⟩ :=
    txBitsLoop_of_idle n.toNat (s := { s.accept with shreg := v }) hwf rfl hidle hn
  rw [if_neg counted, if_neg counted] at hf
  exact ⟨u, (txBits_of_idle (s := s.accept) hidle v n.toNat).trans hu, hst.of_shreg, hf⟩

end Sys2Proof.Machine
end

section
/-! The parity of a value's low bits under flipped bits (43_framer_common.md R155, R161). -/

namespace Sys2Proof.Machine

/-- The parity of an exclusive-or is the exclusive-or of the parities. -/
theorem parity_xor (v w : Half) (n : Nat) :
    parity (v ^^^ w) n = Bool.xor (parity v n) (parity w n) := by
  induction n with
  | zero => rfl
  | succ n ih =>
    rw [parity, parity, parity, ih, BitVec.getLsbD_xor]
    simp only [Bool.xor_assoc, Bool.xor_left_comm]

/-- No bit of 0 is set, so its parity is 0 at every width. -/
theorem parity_zero_value (n : Nat) : parity 0 n = false := by
  induction n with
  | zero => rfl
  | succ n ih =>
    rw [parity, ih, Bool.xor_false]
    exact BitVec.getLsbD_zero

/-- A single set bit counts exactly when it stands below the width. -/
theorem parity_single {i : Nat} (hi : i < 16) (n : Nat) :
    parity ((1 : Half) <<< i) n = decide (i < n) := by
  induction n with
  | zero => rfl
  | succ n ih =>
    have bit : ((1 : Half) <<< i).getLsbD n = decide (i = n) := by
      have power : (1 : Half) <<< i = BitVec.twoPow 16 i := (BitVec.twoPow_eq 16 i).symm
      rw [power, BitVec.getLsbD_twoPow, decide_eq_true hi, Bool.true_and]
    rw [parity, ih, bit]
    obtain below | rfl | above := Nat.lt_trichotomy i n
    · simp [below, below.ne, Nat.lt_succ_of_lt below]
    · simp
    · simp [above.ne', above.not_gt, Nat.not_lt.mpr (Nat.succ_le_of_lt above)]

/-- A value with all of its low `n` bits set has the parity of `n` itself. -/
theorem parity_of_all_set {v : Half} {n : Nat} (h : ∀ k < n, v.getLsbD k = true) :
    parity v n = n.bodd := by
  induction n with
  | zero => rfl
  | succ n ih =>
    rw [parity, h n n.lt_succ_self, ih fun k hk => h k (Nat.lt_succ_of_lt hk), Nat.bodd_succ,
      Bool.true_xor]

/-- A flipped bit below the width complements the parity. -/
theorem parity_flip {i n : Nat} (hi : i < n) (hn : n ≤ 16) (v : Half) :
    parity (v ^^^ ((1 : Half) <<< i)) n = !parity v n := by
  rw [parity_xor, parity_single (Nat.lt_of_lt_of_le hi hn), decide_eq_true hi, Bool.xor_true]

/-- The all-ones value of a width has as many bits set as the width counts. -/
theorem parity_allOnes {n : Nat} (hn : n ≤ 16) :
    parity (BitVec.ofNat 16 (2 ^ n - 1)) n = n.bodd :=
  parity_of_all_set fun k hk => by
    rw [BitVec.getLsbD_ofNat, Nat.testBit_two_pow_sub_one, decide_eq_true hk,
      decide_eq_true (Nat.lt_of_lt_of_le hk hn)]
    rfl

/-- Settles O32: each flip of a bit complements one side of the check, and the widths are even. -/
theorem parityDetectsSingleFlips : Obligations.ParityDetectsSingleFlips := by
  intro n width
  have hn : n ≤ 16 := by revert n; decide
  have even : n.bodd = false := by revert n; decide
  refine ⟨fun v i hi => parity_flip hi hn v, ?flippedParityBit, ?twoValueBits, ?valueAndParityBit,
    parity_zero_value n, (parity_allOnes hn).trans even⟩
  case flippedParityBit =>
    rintro v _ rfl
    exact Bool.not_ne_self _
  case twoValueBits =>
    intro v i j hi hj _
    rw [parity_flip hj hn, parity_flip hi hn, Bool.not_not]
  case valueAndParityBit =>
    rintro v _ i hi rfl
    exact (parity_flip hi hn v).symm

end Sys2Proof.Machine
end

section
/-! The entry tests of READMSG and WRITEMSG: an error before the first tick (60_exceptions.md R211,
R218). -/

namespace Sys2Proof.Machine

/-! ### What fails an entry test -/

theorem legalLen_eq_false {len : BitVec 9} (h : len.toNat = 0 ∨ 256 < len.toNat) :
    legalLen len = false := by
  rw [legalLen, Bool.and_eq_false_iff, decide_eq_false_iff_not, decide_eq_false_iff_not]
  omega

section
variable {s : State}

/-- READMSG with the gate closed clears `OWED` and raises ControllerDisabled (44_framer_read.md R170). -/
theorem readMsg_of_disabled (hen : s.en = false) :
    readMsg s = .error (.raised ⟨.controllerDisabled, .none, 0⟩) { s with owed := false } := by
  rw [readMsg, engine_bind_ok (engine_modify s _), engine_bind_ok (engine_get _),
    if_neg (ne_true_of_eq_false hen), raise_apply]

/-- WRITEMSG with the gate closed clears `HSWAIT` and raises ControllerDisabled
(45_framer_write.md R190). -/
theorem writeMsg_of_disabled (hen : s.en = false) :
    writeMsg s = .error (.raised ⟨.controllerDisabled, .none, 0⟩) { s with hswait := false } := by
  rw [writeMsg, engine_bind_ok (engine_modify s _), engine_bind_ok (engine_get _),
    if_neg (ne_true_of_eq_false hen), raise_apply]

/-- WRITEMSG of an illegal length clears `HSWAIT` and raises InvalidMessage (45_framer_write.md R190,
R192). -/
theorem writeMsg_of_illegal_length (hen : s.en = true) (hlen : legalLen s.msg.len = false) :
    writeMsg s = .error (.raised ⟨.invalidMessage, .length, 0⟩) { s with hswait := false } := by
  rw [writeMsg, engine_bind_ok (engine_modify s _), engine_bind_ok (engine_get _), if_pos hen,
    if_neg (ne_true_of_eq_false hlen), raise_apply]

end

/-! ### The statements -/

/-- An operation ended by its entry test took no tick. `r` is the machine with the hidden flag that was
cleared before the test (10_state.md R28; log 13). -/
theorem aborts_at_entry {i : Instr} {s r : State} {body : Engine (Bool × Half)} {c : ErrCode}
    {f : ErrField} {x : Byte} (hexec : exec i s = operate body s)
    (hbody : body s.accept = .error (.raised ⟨c, f, x⟩) r.accept)
    (hparams : r.params = s.params) (hen : r.en = s.en) (hio : r.io = s.io) :
    Aborts i s (r.accept.takeError ⟨c, f, x⟩) [] c f x ∧
      (r.accept.takeError ⟨c, f, x⟩).io = s.io ∧ r.OnlyResults (r.accept.takeError ⟨c, f, x⟩) :=
  ⟨aborts_of_raised hexec hbody (.of_io hparams hen rfl hio), hio, onlyResults_takeError rfl _⟩

/-- Settles O34: either transaction fails its test of the gate. -/
theorem disabledTransaction : Obligations.DisabledTransaction := by
  rintro s i hen (rfl | rfl)
  · exact ⟨_, aborts_at_entry (r := { s with owed := false }) rfl
      (readMsg_of_disabled (s := s.accept) hen) rfl rfl rfl⟩
  · exact ⟨_, aborts_at_entry (r := { s with hswait := false }) rfl
      (writeMsg_of_disabled (s := s.accept) hen) rfl rfl rfl⟩

/-- Settles O42: WRITEMSG passes its test of the gate and fails that of the length. -/
theorem writeRefusesAnIllegalLength : Obligations.WriteRefusesAnIllegalLength := fun s hen hlen =>
  ⟨_, aborts_at_entry (r := { s with hswait := false }) rfl
    (writeMsg_of_illegal_length (s := s.accept) hen (legalLen_eq_false hlen)) rfl rfl rfl⟩

end Sys2Proof.Machine
end

section
/-! The command word, with its operands (30_encoding.md R90 to R93). -/

namespace Sys2Proof

/-- Settles O10: the decoder undoes the encoder. -/
theorem decodeEncode : Obligations.DecodeEncode := fun _ hwf => decode_encode hwf

/-- The operand bit is bit 0 of the word (R91). -/
theorem commandWord_bit (opc : BitVec 8) (b : Bool) :
    (commandWord opc 0 (bitOperand b)).toNat % 2 = b.toNat := by
  rw [commandWord_toNat, show BitVec.toNat (0 : BitVec 5) = 0 from rfl]
  have operand : (bitOperand b).toNat = b.toNat := by cases b <;> rfl
  have bound : b.toNat < 2 := Bool.toNat_lt b
  omega

/-- Settles O9: a word that decodes is the command word of the operation, whose fields are known. -/
theorem operandsReadFromTheWord : Obligations.OperandsReadFromTheWord := by
  intro w
  refine ⟨fun n h => ?rxbits, fun v n h => ?txbits, fun b h => ?txbit, fun a h => ?txack⟩
  all_goals obtain ⟨-, rfl⟩ := encode_of_decode h
  case rxbits => rw [← Word.count_toNat, encode, commandWord_count]
  case txbits =>
    rw [← Word.count_toNat, ← Word.operand_toNat, encode, commandWord_count, commandWord_operand]
    exact ⟨rfl, rfl⟩
  case txbit =>
    rw [encode, commandWord_bit]
    cases b <;> simp
  case txack =>
    rw [encode, commandWord_bit]
    cases a <;> simp [Ack.toBit]

/-- Settles O12: each word is the command word of its operation. -/
theorem decodeSampleWords : Obligations.DecodeSampleWords :=
  ⟨decode_encode (i := .enable) rfl, decode_encode (i := .busfree) rfl,
    decode_encode (i := .rxbits 12) rfl, decode_encode (i := .txbit true) rfl,
    decode_encode (i := .txbits 0xB 4) rfl, decode_encode (i := .txack .acknowledged) rfl,
    decode_encode (i := .readmsg) rfl, decode_encode (i := .writemsg) rfl⟩

end Sys2Proof
end

section
/-! The values of a frame: parity, length, type and handshakes (30_encoding.md R88; 43_framer_common.md
R155 to R159; 60_exceptions.md R229). -/

namespace Sys2Proof.Machine

/-- Settles O31, by induction on the width: each bit toggles both sides if it is set. -/
theorem parityCountsOnes : Obligations.ParityCountsOnes := by
  intro v n
  induction n with
  | zero => simp [parity]
  | succ n ih =>
    rw [parity, List.range_succ, List.filter_append, List.length_append]
    cases bit : v.getLsbD n with
    | false => simpa [bit] using ih
    | true =>
      simp only [bit, Bool.true_xor, Bool.not_eq_true', List.filter_cons_of_pos, List.filter_nil,
        List.length_singleton]
      rw [← Bool.not_eq_true, ih]
      omega

/-- The eight bits sent for a length (30_encoding.md R88). -/
theorem wireOfLen_toNat (len : BitVec 9) : (wireOfLen len).toNat = len.toNat % 256 := by
  simp only [wireOfLen, BitVec.toNat_setWidth]
  omega

/-- The length that eight received bits stand for (30_encoding.md R88). -/
theorem lenOfWire_toNat {raw : Half} (h : raw.toNat < 256) :
    (lenOfWire raw).toNat = if raw.toNat = 0 then 256 else raw.toNat := by
  have zero : raw = 0 ↔ raw.toNat = 0 := BitVec.toNat_inj.symm
  simp only [lenOfWire, zero]
  split
  · rfl
  · rw [BitVec.toNat_setWidth]
    omega

section
variable (p : Params) (bt : BType)

theorem owedFor_iff (slave : BitVec 12) :
    owedFor p bt slave = true ↔ bt = .forDevice ∧ slave = p.localAddr := by
  simp [owedFor]

theorem hsWaitFor_iff : hsWaitFor bt = true ↔ bt = .forDevice := by simp [hsWaitFor]

theorem symbolOfBType_eq_fdSymbol_iff : symbolOfBType p bt = p.fdSymbol ↔ bt = .forDevice := by
  cases bt <;> simp [symbolOfBType]

theorem bTypeOfSymbol_eq_forDevice_iff (b : Bool) :
    bTypeOfSymbol p b = .forDevice ↔ b = p.fdSymbol := by
  simp [bTypeOfSymbol]

/-- The symbol sent for a type is received as that type. -/
theorem bTypeOfSymbol_symbolOfBType : bTypeOfSymbol p (symbolOfBType p bt) = bt := by
  cases bt <;> simp [symbolOfBType, bTypeOfSymbol]

end

/-- Settles O33, from the statement about each of these values. -/
theorem frameFieldCodes : Obligations.FrameFieldCodes :=
  ⟨wireOfLen_toNat, fun _ => lenOfWire_toNat, fun p bt slave =>
    ⟨owedFor_iff p bt slave, hsWaitFor_iff bt, symbolOfBType_eq_fdSymbol_iff p bt,
      bTypeOfSymbol_eq_forDevice_iff p⟩⟩

theorem wiredOr_eq_active_iff (ls : List Level) : wiredOr ls = .active ↔ .active ∈ ls := by
  simp [wiredOr]

/-- Settles O60: the line is the or of what the nodes drive. -/
theorem lineIsWiredOr : Obligations.LineIsWiredOr := fun nodes k => by
  rw [lineLevel, wiredOr_eq_active_iff, List.mem_map]

end Sys2Proof.Machine
end

section
/-! The register map (20_memory.md R70; 10_state.md R31 to R34). -/

namespace Sys2Proof.Machine

/-! ### The words of the registers, as numbers -/

theorem State.statusWord_toNat (s : State) : s.statusWord.toNat =
    s.en.toNat + 2 * s.busy.toNat + 4 * s.resValid.toNat + 8 * s.resOk.toNat := by
  rw [State.statusWord]
  cases s.en <;> cases s.busy <;> cases s.resValid <;> cases s.resOk <;> rfl

theorem Err.toBits_toNat (e : Err) :
    e.toBits.toNat = e.code.toBits.toNat + 16 * e.field.toBits.toNat + 256 * e.index.toNat := by
  have code := e.code.toBits.isLt
  have field := e.field.toBits.isLt
  simp only [Err.toBits, BitVec.toNat_append]
  rw [← Nat.shiftLeft_add_eq_or_of_lt code, ← Nat.shiftLeft_add_eq_or_of_lt field,
    ← Nat.shiftLeft_add_eq_or_of_lt (show BitVec.toNat (0 : BitVec 1) < 2 ^ 1 by decide)]
  simp only [Nat.shiftLeft_eq, show BitVec.toNat (0 : BitVec 1) = 0 from rfl]
  omega

theorem Message.addrWord_toNat (m : Message) :
    m.addrWord.toNat = m.master.toNat + 2 ^ 16 * m.slave.toNat := by
  have master := m.master.isLt
  simp only [Message.addrWord, BitVec.toNat_append]
  rw [← Nat.shiftLeft_add_eq_or_of_lt master,
    ← Nat.shiftLeft_add_eq_or_of_lt (show BitVec.toNat (0 : BitVec 4) < 2 ^ 4 by decide),
    ← Nat.shiftLeft_add_eq_or_of_lt m.slave.isLt]
  simp only [Nat.shiftLeft_eq, show BitVec.toNat (0 : BitVec 4) = 0 from rfl]
  omega

theorem Message.ctlWord_toNat (m : Message) :
    m.ctlWord.toNat = m.ctrl.toNat + 256 * m.bt.toBit.toNat + 2 ^ 16 * m.len.toNat := by
  have ctrl := m.ctrl.isLt
  simp only [Message.ctlWord, BitVec.toNat_append]
  rw [← Nat.shiftLeft_add_eq_or_of_lt ctrl,
    ← Nat.shiftLeft_add_eq_or_of_lt (show BitVec.toNat (0 : BitVec 4) < 2 ^ 4 by decide),
    ← Nat.shiftLeft_add_eq_or_of_lt m.bt.toBit.isLt,
    ← Nat.shiftLeft_add_eq_or_of_lt (show BitVec.toNat (0 : BitVec 7) < 2 ^ 7 by decide),
    ← Nat.shiftLeft_add_eq_or_of_lt m.len.isLt]
  simp only [Nat.shiftLeft_eq, show BitVec.toNat (0 : BitVec 7) = 0 from rfl,
    show BitVec.toNat (0 : BitVec 4) = 0 from rfl]
  omega

/-! ### Which register an access reaches -/

/-- Offsets 0x01C to 0x3FF are reserved (20_memory.md R70). -/
theorem regAt_of_reserved {a : Nat} (low : 0x01C ≤ a) (high : a < 0x400) : regAt a 4 = none := by
  unfold regAt
  by_cases aligned : a % 4 = 0
  · rw [if_neg (by omega), if_neg (by omega)]
    split <;> first | rfl | omega
  · rw [if_pos (by omega)]

/-- The offset of a register (20_memory.md R70). -/
def Reg.offset : Reg → Nat
  | .cmd => 0x000
  | .status => 0x004
  | .result => 0x008
  | .err => 0x00C
  | .local => 0x010
  | .msgAddr => 0x014
  | .msgCtl => 0x018
  | .payload i => 0x400 + 4 * i

/-- A register is reached by whole-word accesses at its own offset only. -/
theorem offset_of_regAt {a n : Nat} {r : Reg} (h : regAt a n = some r) : a = r.offset ∧ n = 4 := by
  unfold regAt at h
  split at h
  · cases h
  · rename_i whole
    split at h
    · cases h
      simp only [Reg.offset]
      omega
    · split at h <;> cases h <;> exact ⟨rfl, by omega⟩

/-- There are 256 payload registers. -/
theorem lt_of_regAt_payload {a n i : Nat} (h : regAt a n = some (.payload i)) : i < 256 := by
  obtain ⟨rfl, rfl⟩ := offset_of_regAt h
  by_contra big
  rw [regAt_of_bad (by simp only [Reg.offset]; omega)] at h
  cases h

/-- Settles O51: every register reads as its word, which is a sum of its fields. -/
theorem registerMapReads : Obligations.RegisterMapReads := by
  intro s
  refine ⟨rfl, s.statusWord_toNat, ?result, ?err, ?localAddr, s.msg.addrWord_toNat, ?ctl, ?payload,
    fun a low high => s.hostRead_of_no_reg (regAt_of_reserved low high)⟩
  case result =>
    rw [s.hostRead_result, BitVec.toNat_setWidth]
    omega
  case err =>
    intro code hcode field hfield isCode isField
    have codeBits : code.1.toBits.toNat = code.2 := by clear isCode; revert code; decide
    have fieldBits : field.1.toBits.toNat = field.2 := by clear isField; revert field; decide
    rw [s.hostRead_err, BitVec.toNat_setWidth, Nat.mod_eq_of_lt (by omega), Err.toBits_toNat, isCode,
      isField, codeBits, fieldBits]
  case localAddr =>
    rw [show s.hostRead 0x010 4 = s.params.localAddr.setWidth 32 from rfl, BitVec.toNat_setWidth]
    omega
  case ctl =>
    rw [show s.hostRead 0x018 4 = s.msg.ctlWord from rfl, Message.ctlWord_toNat]
    cases s.msg.bt <;> rfl
  case payload =>
    intro i hi
    rw [State.hostRead, regAt_payload i hi]
    change ((s.msg.byteAt i).setWidth 32).toNat = _
    rw [BitVec.toNat_setWidth]
    omega

end Sys2Proof.Machine
end

section
/-! One tick in which no operation runs: what the host, an event and the reset input do in it
(20_memory.md R69, R71; 60_exceptions.md R223; 70_reset_and_hazards.md R240, R242). -/

namespace Sys2Proof.Machine

/-! ### The step of such a tick -/

theorem hostAfter_false (h : List HostReq) : hostAfter false h = h.tail := by
  cases h with
  | nil => rfl
  | cons r h => cases r <;> rfl

section
variable {s : State}

theorem State.fetch_of_busy (hbusy : s.busy = true) : s.fetch = none := by
  simp [State.fetch, hbusy]

theorem State.resetNow_of_head (h : s.io.host.head? ≠ some .reset) : s.resetNow = false := by
  simpa [State.resetNow] using h

/-- Only a write reaches the message registers. -/
theorem State.serve_msg (h : ∀ a n v, s.io.host.head? ≠ some (.write a n v)) :
    s.serve.msg = s.msg := by
  unfold State.serve
  split <;> first | rfl | exact absurd ‹_› (h _ _ _)

/-- Only a read is recorded. -/
theorem State.serve_reads (h : ∀ a n, s.io.host.head? ≠ some (.read a n)) :
    s.serve.io.reads = s.io.reads := by
  unfold State.serve
  split
  next read => exact absurd read (h _ _)
  next => rw [State.hostWrite_eq]
  all_goals rfl

/-- A tick outside an operation: time passes, and the host's access reaches the message registers and the
record of reads. -/
theorem State.pass_of_idle (hbusy : s.busy = false) :
    s.pass = { s with
      msg := s.serve.msg, evt := none,
      io := { s.io with
        now := s.io.now + 1, rx := s.io.rx.next, host := s.io.host.tail,
        pins := ⟨s.txd, s.en⟩ :: s.io.pins, reads := s.serve.io.reads } } := by
  unfold State.pass
  rw [s.serve_eq]
  simp [Io.pass, hostAfter_false, hbusy]

end

/-! ### Reset -/

theorem State.applyReset_atReset (s : State) : s.applyReset.AtReset where
  en := s.applyReset_en
  txd := s.applyReset_txd
  busy := s.applyReset_busy
  resValid := s.applyReset_resValid
  resOk := s.applyReset_resOk
  result := s.applyReset_result
  err := s.applyReset_err
  idle := congrArg Seq.state s.applyReset_seq
  evt := s.applyReset_evt

/-- Settles O2: a reset is no command, so the step is the tick of reset. -/
theorem resetInputRestoresResetValues : Obligations.ResetInputRestoresResetValues := by
  intro s h hwf hhost
  have noCommand : s.fetch = none := by simp [State.fetch, hhost]
  have reset : s.resetNow = true := by simp [State.resetNow, hhost]
  refine ⟨s.applyReset, ?_, s.applyReset_params, s.applyReset_atReset, ?_⟩
  · simp [step, hwf, noCommand, State.tick, reset]
  · simp [Io.pass, hhost, hostAfter]

/-! ### Commands -/

/-- Settles O4: the accepting tick, and then the operation the word decodes to. -/
theorem stepRunsDecodedCommand : Obligations.StepRunsDecodedCommand := by
  have accepted : ∀ (s : State) (w : Word) (i : Instr) (h : List HostReq), s.params.wf = true →
      s.busy = false → s.io.host = .write 0x000 4 w :: h → decode w = .ok i →
      step s = exec i s.tick := by
    intro s w i h hwf hbusy hhost hdecode
    simp [step, hwf, State.fetch_of_write_cmd hbusy hhost, hdecode]
  constructor
  · intro s w i h hwf hbusy hhost hdecode
    obtain ⟨wf, -⟩ := encode_of_decode hdecode
    rw [accepted s w i h hwf hbusy hhost hdecode, State.tick_of_write_cmd hbusy hhost]
    exact ⟨wf, rfl⟩
  · intro s nbits w i hwf htable
    have hdecode : decode (BitVec.ofNat 32 (w % 2 ^ nbits)) = .ok i := by
      unfold decodeTableWord at htable
      split at htable
      · split at htable
        · rename_i hok
          cases htable
          exact hok
        · cases htable
      · cases htable
    have run := accepted (s.withFetchWord nbits w) _ i s.io.host hwf rfl rfl hdecode
    rwa [State.tick_of_write_cmd (s := s.withFetchWord nbits w) rfl rfl] at run

/-- Settles O5: the step is one passing tick. -/
theorem idleTickDoesNothing : Obligations.IdleTickDoesNothing := by
  intro s hwf hbusy hfetch hreset
  have tick := s.pass_of_idle hbusy
  have msg : s.pass.msg = s.serve.msg := by rw [tick]
  have reads : s.pass.io.reads = s.serve.io.reads := by rw [tick]
  refine ⟨s.pass, step_of_not_accepted hwf hfetch (State.resetNow_of_head hreset), ?_,
    fun h => msg.trans (State.serve_msg h), fun h => reads.trans (State.serve_reads h)⟩
  rw [msg, reads]
  exact tick

/-- Settles O6: while `BUSY` = 1 no command is accepted, and the passing tick writes no register. -/
theorem busyIgnoresTheHost : Obligations.BusyIgnoresTheHost := by
  intro s hwf hbusy hreset
  have tick := s.pass_of_busy hbusy
  have host : s.pass.io.host = hostAfter true s.io.host := by rw [tick]
  have reads : s.pass.io.reads = s.serve.io.reads := by rw [tick]
  refine ⟨s.pass,
    step_of_not_accepted hwf (State.fetch_of_busy hbusy) (State.resetNow_of_head hreset), ?_, ?_⟩
  · rw [host, reads]
    exact tick
  · intro a n v h hhost
    rw [host, reads, hhost]
    exact ⟨rfl, State.serve_reads (by simp [hhost])⟩

/-- Settles O13: such a count is an illegal command, at once. -/
theorem illegalCountIsIllegalCommand : Obligations.IllegalCountIsIllegalCommand := by
  intro s v n i hcount hi
  have runs : exec i s = operate illegalCommand s := by
    obtain rfl | rfl := hi
    · simp [exec, execRxbits, hcount]
    · simp [exec, execTxbits, hcount]
  refine ⟨_, aborts_of_raised runs (raise_apply _ _ _ _) (.of_io rfl rfl rfl rfl), ?_, rfl⟩
  exact onlyResults_takeError rfl _

/-! ### Reads and writes -/

/-- Settles O52: the step of a read. -/
theorem hostReadSeesTheStartOfTheTick : Obligations.HostReadSeesTheStartOfTheTick :=
  fun _ _ _ _ hwf hhost => step_read hwf hhost

/-- A write that leaves the message registers is a tick in which nothing else happens. -/
theorem step_write_without_effect {s : State} {a n : Nat} {v : Word} {h : List HostReq}
    (hwf : s.params.wf = true) (hhost : s.io.host = .write a n v :: h)
    (hcmd : regAt a n ≠ some .cmd) (hmsg : (s.hostWrite a n v).msg = s.msg) :
    step s = .next { s with
      evt := none,
      io := { s.io with
        now := s.io.now + 1, rx := s.io.rx.next, host := h,
        pins := ⟨s.txd, s.en⟩ :: s.io.pins } } := by
  rw [step_write_of_ne_cmd hwf hhost hcmd, hmsg]

/-- The read-only registers and the reserved offsets keep no write (20_memory.md R70). -/
theorem hostWrite_readOnly (s : State) {a : Nat} (v : Word)
    (h : a ∈ [0x004, 0x008, 0x00C, 0x010] ∨ 0x01C ≤ a ∧ a < 0x400) :
    regAt a 4 ≠ some .cmd ∧ (s.hostWrite a 4 v).msg = s.msg := by
  obtain register | ⟨low, high⟩ := h
  · have unwritten : ∃ r, regAt a 4 = some r ∧ r ≠ .cmd ∧ s.msg.regWrite v r = s.msg := by
      simp only [List.mem_cons, List.not_mem_nil, or_false] at register
      obtain rfl | rfl | rfl | rfl := register
      · exact ⟨.status, rfl, nofun, rfl⟩
      · exact ⟨.result, rfl, nofun, rfl⟩
      · exact ⟨.err, rfl, nofun, rfl⟩
      · exact ⟨.local, rfl, nofun, rfl⟩
    obtain ⟨r, hr, notCmd, unwritten⟩ := unwritten
    refine ⟨by simpa [hr] using notCmd, ?_⟩
    rw [State.hostWrite_eq, hr]
    simp [unwritten]
  · have none := regAt_of_reserved low high
    exact ⟨by simp [none], by rw [s.hostWrite_of_no_reg v none]⟩

/-- Settles O55: such a write leaves every register, and an access over 4 bytes reaches none. -/
theorem readOnlyRegistersIgnoreWrites : Obligations.ReadOnlyRegistersIgnoreWrites := by
  intro s a n v h hwf
  refine ⟨fun hhost cases => ?_, fun hhost wide => ?_⟩
  · obtain ⟨rfl, readOnly⟩ | wide := cases
    · obtain ⟨notCmd, unchanged⟩ := hostWrite_readOnly s v readOnly
      exact step_write_without_effect hwf hhost notCmd unchanged
    · have none : regAt a n = none := regAt_of_bad (by omega)
      exact step_write_without_effect hwf hhost (by simp [none]) (by rw [s.hostWrite_of_no_reg v none])
  · rw [step_read hwf hhost, s.hostRead_of_no_reg (regAt_of_bad (by omega))]

/-- The writable bits of a register (20_memory.md R70). -/
def Reg.writable : Reg → Option Word
  | .msgAddr => some 0x0FFF0FFF
  | .msgCtl => some 0x01FF010F
  | .payload _ => some 0x000000FF
  | .cmd | .status | .result | .err | .local => none

/-- An offset with writable bits is that of a register with the same. -/
theorem regAt_of_writableBits {a : Nat} {mask : Word} (h : writableBits a = some mask) :
    ∃ r, regAt a 4 = some r ∧ r.writable = some mask := by
  unfold writableBits at h
  split_ifs at h with addr ctl payload
  · exact ⟨.msgAddr, by rw [addr]; rfl, h⟩
  · exact ⟨.msgCtl, by rw [ctl]; rfl, h⟩
  · obtain ⟨low, high, aligned⟩ := payload
    obtain ⟨i, rfl⟩ : ∃ i, a = 0x400 + 4 * i := ⟨(a - 0x400) / 4, by omega⟩
    exact ⟨.payload i, regAt_payload i (by omega), h⟩

/-- What is read after a write: the writable bits (20_memory.md R69, R70). -/
theorem regValue_regWrite_same {s t : State} {r : Reg} {v mask : Word}
    (hmask : r.writable = some mask) (hr : ∀ i, r = .payload i → i < 256)
    (hmsg : t.msg = s.msg.regWrite v r) : t.regValue r = v &&& mask := by
  cases r with
  | msgAddr =>
    cases hmask
    rw [State.regValue, hmsg, Message.regWrite, Message.writeAddr, Message.addrWord]
    refine BitVec.eq_of_getLsbD_eq fun i hi => ?_
    simp only [BitVec.getLsbD_append, BitVec.getLsbD_and, BitVec.getLsbD_extractLsb']
    interval_cases i <;> simp
  | msgCtl =>
    cases hmask
    have type (b : BitVec 1) : (BType.ofBit b).toBit = b := by revert b; decide
    rw [State.regValue, hmsg, Message.regWrite, Message.writeCtl, Message.ctlWord]
    refine BitVec.eq_of_getLsbD_eq fun i hi => ?_
    simp only [type, BitVec.getLsbD_append, BitVec.getLsbD_and, BitVec.getLsbD_extractLsb']
    interval_cases i <;> simp
  | payload i =>
    cases hmask
    rw [State.regValue, hmsg, Message.regWrite, Message.byteAt_setByte, if_pos ⟨rfl, hr i rfl⟩]
    ext i hi
    interval_cases i <;> simp
  | _ => cases hmask

/-- A write leaves the other registers. -/
theorem regValue_regWrite_other {s t : State} {r q : Reg} {v : Word} (hne : q ≠ r)
    (hmsg : t.msg = s.msg.regWrite v r) (hflags : t.statusWord = s.statusWord)
    (hresult : t.result = s.result) (herr : t.err = s.err) (hparams : t.params = s.params) :
    t.regValue q = s.regValue q := by
  match q with
  | .cmd => rfl
  | .status => exact hflags
  | .result => rw [State.regValue, State.regValue, hresult]
  | .err => rw [State.regValue, State.regValue, herr]
  | .local => rw [State.regValue, State.regValue, hparams]
  | .msgAddr =>
    rw [State.regValue, State.regValue, hmsg]
    cases r <;> first | rfl | exact absurd rfl hne
  | .msgCtl =>
    rw [State.regValue, State.regValue, hmsg]
    cases r <;> first | rfl | exact absurd rfl hne
  | .payload i =>
    rw [State.regValue, State.regValue, hmsg]
    cases r with
    | payload j =>
      have other : ¬ (j = i ∧ i < 256) := fun h => hne (by rw [h.1])
      rw [Message.regWrite, Message.byteAt_setByte, if_neg other]
    | _ => rfl

/-- Settles O53: the write reaches one register, and no other access reaches it. -/
theorem hostWriteReadsBack : Obligations.HostWriteReadsBack := by
  intro s a v mask h hwf hbusy hhost hmask
  obtain ⟨r, hreg, writable⟩ := regAt_of_writableBits hmask
  have notCmd : regAt a 4 ≠ some .cmd := by
    rw [hreg]
    rintro ⟨⟩
    cases writable
  have written : (s.hostWrite a 4 v).msg = s.msg.regWrite v r := by
    rw [State.hostWrite_eq, hreg]
    simp [hbusy]
  refine ⟨_, (step_write_of_ne_cmd hwf hhost notCmd).trans (by rw [written]), ?_, fun b n hb => ?_, rfl⟩
  · rw [State.hostRead, hreg]
    refine regValue_regWrite_same (s := s) writable ?_ rfl
    rintro i rfl
    exact lt_of_regAt_payload hreg
  · rw [State.hostRead, State.hostRead]
    cases hother : regAt b n with
    | none => rfl
    | some q =>
      have other : q ≠ r := by
        rintro rfl
        obtain ⟨ha, -⟩ := offset_of_regAt hreg
        obtain ⟨hb', -⟩ := offset_of_regAt hother
        exact hb (hb'.trans ha.symm)
      exact regValue_regWrite_other (s := s) other rfl rfl rfl rfl rfl

/-! ### The invariant at reset -/

/-- Settles O59: a machine at reset with a legal profile has the invariant. -/
theorem resetMeetsInvariant : Obligations.ResetMeetsInvariant := by
  have meets : ∀ p : Params, p.wf = true → (State.resetOf p).Inv := fun p hp =>
    { profile := hp
      txd := rfl
      idle := fun _ => rfl
      hung := nofun
      ok := nofun
      index := fun _ => rfl }
  exact ⟨meets Params.ref (by decide), meets⟩

end Sys2Proof.Machine
end

section
/-! The pseudocode of every operation, and READMSG and WRITEMSG as a head and a loop over the fields a
handshake may follow (30_encoding.md R83; 44_framer_read.md R170; 45_framer_write.md R190). -/

namespace Sys2Proof.Machine

/-! ### The pseudocode of an operation -/

/-- The pseudocode an operation runs. -/
def pseudocode : Instr → Engine (Bool × Half)
  | .enable => setGate true
  | .disable => setGate false
  | .isen => get >>= fun s => pure (true, halfOfBit s.en)
  | .busfree => busFree >>= fun free => pure (free, halfOfBit free)
  | .rxstart => rxStart >>= fun ok =>
      if ok then pure (true, halfOfBit true) else raise .notAStartBit .start 0
  | .rxbit => rxBit .alone >>= fun b => pure (true, halfOfBit b)
  | .rxbits n =>
    if legalCount n then rxBits n.toNat .alone >>= fun v => pure (true, v) else illegalCommand
  | .rxack => rxAck .alone >>= fun a => pure (true, halfOfBit (match a with
      | .acknowledged => false
      | .rejected => true))
  | .txstart => transmit txStart
  | .txbit b => transmit (txBit b)
  | .txbits v n => if legalCount n then transmit (txBits v n.toNat) else illegalCommand
  | .txack a => transmit (txAck a)
  | .readmsg => readMsg
  | .writemsg => writeMsg

theorem exec_eq_operate (i : Instr) (s : State) : exec i s = operate (pseudocode i) s := by
  cases i <;> rfl

/-- Every operation answers. -/
theorem exec_ends (i : Instr) (s : State) : ∃ t, exec i s = .next t := by
  rw [exec_eq_operate]
  exact operate_answers s _

/-! ### The fields a handshake may follow -/

/-- The width of the `k`-th of these fields (30_encoding.md R83). -/
def eligibleWidth : Nat → Nat
  | 0 => 12
  | 1 => 4
  | 2 => 8
  | _ + 3 => 8

/-- The value of the `k`-th of these fields of a Message. -/
def eligibleValue (m : Message) : Nat → Half
  | 0 => m.slave.setWidth 16
  | 1 => m.ctrl.setWidth 16
  | 2 => wireOfLen m.len
  | i + 3 => (m.byteAt i).setWidth 16

/-- `SEQ` at the `k`-th of these fields. -/
def seqEligible : Nat → Engine Unit
  | 0 => setSeq .slaveField
  | 1 => setSeq .controlField
  | 2 => setSeq .lengthField
  | i + 3 => setSeqData (BitVec.ofNat 8 i)

/-- The working Message with the received value of the `k`-th of these fields. -/
def storeEligible (v : Half) : Nat → Message → Message
  | 0, w => { w with slave := v.setWidth 12 }
  | 1, w => { w with ctrl := v.setWidth 4 }
  | 2, w => { w with len := lenOfWire v }
  | i + 3, w => w.setByte i (v.setWidth 8)

theorem eligibleFields_length (m : Message) : (eligibleFields m).length = 3 + m.len.toNat := by
  simp [eligibleFields]
  omega

/-- The list of these fields, by position. -/
theorem eligibleFields_getElem? (m : Message) {k : Nat} (hk : k < 3 + m.len.toNat) :
    (eligibleFields m)[k]? = some (eligibleValue m k, eligibleWidth k) := by
  match k with
  | 0 => rfl
  | 1 => rfl
  | 2 => rfl
  | i + 3 =>
    have inside : i < m.len.toNat := by omega
    simp [eligibleFields, inside, eligibleValue, eligibleWidth]

/-- The `k`-th of these fields is there, and what it is. -/
theorem eligibleFields_at {m : Message} {k width : Nat} {v : Half}
    (h : (eligibleFields m)[k]? = some (v, width)) :
    k < 3 + m.len.toNat ∧ v = eligibleValue m k ∧ width = eligibleWidth k := by
  have hk : k < 3 + m.len.toNat := by
    rw [← eligibleFields_length]
    exact (List.getElem?_eq_some_iff.mp h).1
  rw [eligibleFields_getElem? m hk] at h
  cases h
  exact ⟨hk, rfl, rfl⟩

/-- These fields from the `k`-th on begin with the `k`-th. -/
theorem eligibleFields_drop (m : Message) {k : Nat} (hk : k < 3 + m.len.toNat) :
    (eligibleFields m).drop k =
      (eligibleValue m k, eligibleWidth k) :: (eligibleFields m).drop (k + 1) := by
  rw [← eligibleFields_length] at hk
  have value := eligibleFields_getElem? m (k := k) (by rwa [eligibleFields_length] at hk)
  rw [List.getElem?_eq_getElem hk] at value
  rw [List.drop_eq_getElem_cons hk, Option.some.inj value]

theorem one_le_eligibleWidth (k : Nat) : 1 ≤ eligibleWidth k := by
  match k with
  | 0 | 1 | 2 | _ + 3 => simp [eligibleWidth]

theorem eligibleWidth_le (k : Nat) : eligibleWidth k ≤ 16 := by
  match k with
  | 0 | 1 | 2 | _ + 3 => simp [eligibleWidth]

theorem eligibleValue_lt (m : Message) (k : Nat) :
    (eligibleValue m k).toNat < 2 ^ eligibleWidth k := by
  match k with
  | 0 | 1 | 2 | _ + 3 =>
    simp only [eligibleValue, eligibleWidth, wireOfLen, BitVec.toNat_setWidth]
    omega

/-- The master field is not one of them. -/
theorem eligiblePlace_ne_master (k : Nat) : (eligiblePlace k).1 ≠ .master := by
  match k with
  | 0 | 1 | 2 | _ + 3 => nofun

/-- The slave field is the first of them. -/
theorem eligiblePlace_eq_slave_iff (k : Nat) : (eligiblePlace k).1 = .slave ↔ k = 0 := by
  match k with
  | 0 | 1 | 2 | _ + 3 => simp [eligiblePlace]

/-- Only a payload byte is reported with an index (10_state.md R33). -/
theorem eligiblePlace_index (k : Nat) (h : (eligiblePlace k).1 ≠ .data) : (eligiblePlace k).2 = 0 := by
  match k with
  | 0 | 1 | 2 => rfl
  | _ + 3 => exact absurd rfl h

/-! ### READMSG -/

/-- The start bit, the broadcast-type bit and the master field (44_framer_read.md R173 to R175). -/
def readHead : Engine Unit := do
  readStart
  readType
  setSeq .masterField
  let v ← rxField 12 .master 0
  setWork fun w => { w with master := v.setWidth 12 }

/-- The reception of the `k`-th field a handshake may follow (44_framer_read.md R176 to R178). -/
def readEligible (k : Nat) : Engine Unit := do
  seqEligible k
  let v ← rxField (eligibleWidth k) (eligiblePlace k).1 (eligiblePlace k).2
  setWork (storeEligible v k)

/-- The reception of `n` of these fields from the `k`-th on. -/
def readFields : Nat → Nat → Engine Unit
  | 0, _ => pure ()
  | n + 1, k => do
    readEligible k
    readFields n (k + 1)

/-- The reception of all these fields; the payload is as long as the length field said. -/
def readRest : Engine Unit := do
  readFields 3 0
  let s ← get
  readFields s.work.len.toNat 3

/-- The reception of a frame, up to its commit. -/
def readFrame : Engine Unit := do
  readHead
  readRest

theorem readData_eq_readFields (n : Nat) : ∀ i, readData n i = readFields n (i + 3) := by
  induction n with
  | zero => exact fun _ => rfl
  | succ n ih =>
    intro i
    rw [readData, readFields, readEligible]
    simp only [bind_assoc, ih]
    rfl

theorem readFields_add (a b : Nat) : ∀ k,
    readFields (a + b) k = readFields a k >>= fun _ => readFields b (k + a) := by
  induction a with
  | zero => intro k; simp [readFields]
  | succ a ih =>
    intro k
    rw [Nat.add_right_comm, readFields, readFields, ih]
    simp only [bind_assoc]
    rw [Nat.add_right_comm, Nat.add_assoc]

/-- READMSG receives a frame and commits it (44_framer_read.md R170). -/
theorem readMsg_eq : readMsg = (do
    modify fun s => { s with owed := false }
    let s ← get
    if s.en then do
      readFrame
      commitMessage
      pure (true, 0)
    else raise .controllerDisabled .none 0) := by
  simp only [readMsg, readFrame, readHead, readRest, readAddress, readLength, readData_eq_readFields,
    readFields, readEligible, bind_assoc, pure_bind]
  rfl

/-! ### WRITEMSG -/

/-- The wait for the bus, the start bit, the broadcast-type bit and the master field
(45_framer_write.md R190, R193, R194). -/
def writeHead : Engine Unit := do
  writeStart
  setSeq .masterField
  let s ← get
  txField (s.msg.master.setWidth 16) 12 .master 0

/-- The `k`-th field a handshake may follow is sent (45_framer_write.md R195). -/
def writeEligible (k : Nat) : Engine Unit := do
  seqEligible k
  let s ← get
  txField (eligibleValue s.msg k) (eligibleWidth k) (eligiblePlace k).1 (eligiblePlace k).2

/-- `n` of these fields are sent, from the `k`-th on. -/
def writeFields : Nat → Nat → Engine Unit
  | 0, _ => pure ()
  | n + 1, k => do
    writeEligible k
    writeFields n (k + 1)

/-- All these fields are sent. -/
def writeRest : Engine Unit := do
  writeFields 3 0
  let s ← get
  writeFields s.msg.len.toNat 3

/-- A frame is sent. -/
def writeFrame : Engine Unit := do
  writeHead
  writeRest

theorem writeData_eq_writeFields (n : Nat) : ∀ i, writeData n i = writeFields n (i + 3) := by
  induction n with
  | zero => exact fun _ => rfl
  | succ n ih =>
    intro i
    rw [writeData, writeFields, writeEligible]
    simp only [bind_assoc, ih]
    rfl

theorem writeFields_add (a b : Nat) : ∀ k,
    writeFields (a + b) k = writeFields a k >>= fun _ => writeFields b (k + a) := by
  induction a with
  | zero => intro k; simp [writeFields]
  | succ a ih =>
    intro k
    rw [Nat.add_right_comm, writeFields, writeFields, ih]
    simp only [bind_assoc]
    rw [Nat.add_right_comm, Nat.add_assoc]

/-- WRITEMSG tests its Message and sends it (45_framer_write.md R190). -/
theorem writeMsg_eq : writeMsg = (do
    modify fun s => { s with hswait := false }
    let s ← get
    if s.en then
      if legalLen s.msg.len then do
        modify fun s => { s with hswait := hsWaitFor s.msg.bt }
        writeFrame
        setSeq .complete
        pure (true, 0)
      else raise .invalidMessage .length 0
    else raise .controllerDisabled .none 0) := by
  simp only [writeMsg, writeFrame, writeHead, writeRest, writeHeader, writeData_eq_writeFields,
    writeFields, writeEligible, bind_assoc, pure_bind]
  rfl

end Sys2Proof.Machine
end

section
/-! One walk over the pseudocode, for every property that its pieces have one by one. `Rules T` says that
the judgement `T` holds of each register write and each sub-step of the Codec and is closed under
composition; `Rules.pseudocode` concludes that it holds of every operation. A judgement about two runs has
to know in what the two machines agree where a register decides how the run goes on: `Known` tracks that.
A judgement about one run ignores it. -/

namespace Sys2Proof.Machine

/-! ### What two machines are known to agree in -/

/-- The items, beside those of `Known.Agree` itself, in which two machines agree: the gate, the hidden
registers one by one, and the working Message up to a stage of its reception; and `W_LEN`, where it is
known. -/
structure Known where
  en : Bool
  tS : Bool
  t0 : Bool
  shreg : Bool
  owed : Bool
  hswait : Bool
  stage : Nat
  len : Option Nat

/-- Two working Messages agree in what is received up to a stage: the type, the master, slave, control and
length fields, and then byte by byte. -/
structure SameUpTo (stage : Nat) (w w' : Message) : Prop where
  bt : 1 ≤ stage → w.bt = w'.bt
  master : 2 ≤ stage → w.master = w'.master
  slave : 3 ≤ stage → w.slave = w'.slave
  ctrl : 4 ≤ stage → w.ctrl = w'.ctrl
  len : 5 ≤ stage → w.len = w'.len
  bytes : ∀ i, i + 6 ≤ stage → w.byteAt i = w'.byteAt i

theorem SameUpTo.refl (n : Nat) (w : Message) : SameUpTo n w w :=
  ⟨fun _ => rfl, fun _ => rfl, fun _ => rfl, fun _ => rfl, fun _ => rfl, fun _ _ => rfl⟩

/-- Before any reception nothing is asked. -/
theorem SameUpTo.zero (w w' : Message) : SameUpTo 0 w w' :=
  ⟨by omega, by omega, by omega, by omega, by omega, by omega⟩

/-- Two machines agree in the parameters, the Message, `SEQ.state`, the clock and the line, and in the
items of `k`. -/
structure Known.Agree (k : Known) (s s' : State) : Prop where
  params : s.params = s'.params
  msg : s.msg = s'.msg
  seq : s.seq.state = s'.seq.state
  now : s.io.now = s'.io.now
  rx : s.io.rx = s'.io.rx
  en : k.en = true → s.en = s'.en
  tS : k.tS = true → s.tS = s'.tS
  t0 : k.t0 = true → s.t0 = s'.t0
  shreg : k.shreg = true → s.shreg = s'.shreg
  owed : k.owed = true → s.owed = s'.owed
  hswait : k.hswait = true → s.hswait = s'.hswait
  work : SameUpTo k.stage s.work s'.work

section
variable {k : Known}

/-- A deadline is decided by what is known once `T_S` is. -/
theorem Known.Agree.expired {s s' : State} (a : k.Agree s s')
    (hk : k.tS = true) (m : Option Nat) : s.expired m = s'.expired m := by
  cases m with
  | none => rfl
  | some m => simp only [State.expired, a.tS hk, a.now]

/-- `SHREG` may be forgotten again. -/
theorem Known.Agree.of_shreg {s s' : State}
    (a : Known.Agree { k with shreg := true } s s') : k.Agree s s' :=
  { a with shreg := fun _ => a.shreg rfl }

end

/-- A field's value takes the working Message to the next stage. -/
theorem SameUpTo.store (v : Half) (i : Nat) {w w' : Message}
    (hw : SameUpTo (i + 2) w w') : SameUpTo (i + 3) (storeEligible v i w) (storeEligible v i w') := by
  match i with
  | 0 => exact ⟨fun _ => hw.bt (by omega), fun _ => hw.master (by omega), fun _ => rfl, by omega,
      by omega, by omega⟩
  | 1 => exact ⟨fun _ => hw.bt (by omega), fun _ => hw.master (by omega),
      fun _ => hw.slave (by omega), fun _ => rfl, by omega, by omega⟩
  | 2 => exact ⟨fun _ => hw.bt (by omega), fun _ => hw.master (by omega),
      fun _ => hw.slave (by omega), fun _ => hw.ctrl (by omega), fun _ => rfl, by omega⟩
  | i + 3 =>
    refine ⟨fun _ => hw.bt (by omega), fun _ => hw.master (by omega), fun _ => hw.slave (by omega),
      fun _ => hw.ctrl (by omega), fun _ => hw.len (by omega), fun j hj => ?_⟩
    simp only [storeEligible, Message.byteAt_setByte]
    split
    · rfl
    · by_cases last : j = i
      · subst last
        rename_i outside
        have beyond : ∀ m : Message, m.byteAt j = 0 := fun m => by
          simp [Message.byteAt, show ¬ j < 256 by simpa using outside]
        rw [beyond, beyond]
      · exact hw.bytes j (by omega)

/-- The commit takes what is received of a Message, as many bytes as its length says. -/
theorem SameUpTo.commit {w w' : Message} (n : Nat) (m : Message)
    (h : SameUpTo (n + 5) w w') (hn : w.len.toNat ≤ n) : m.commit w = m.commit w' := by
  have copied : ∀ j ≤ n, m.copyBytes w j = m.copyBytes w' j := by
    intro j hj
    induction j with
    | zero => rfl
    | succ j ih =>
      rw [Message.copyBytes, Message.copyBytes, ih (by omega), h.bytes j (by omega)]
  rw [Message.commit, Message.commit, h.bt (by omega), h.master (by omega), h.slave (by omega),
    h.ctrl (by omega), ← h.len (by omega), copied _ hn]

/-- A judgement about a piece of pseudocode: what is known before it and after it. -/
abbrev Judgement := Known → Known → (α : Type) → Engine α → Prop

/-! ### The rules -/

/-- The judgement is closed under composition and under every write of a register but `TXD`, which only
the Codec's sub-steps drive. -/
structure Writes (T : Judgement) : Prop where
  pure : ∀ {α : Type} (k : Known) (a : α), T k k α (pure a)
  bind : ∀ {α β : Type} {k l m : Known} {x : Engine α} {f : α → Engine β},
    T k l α x → (∀ a, T l m β (f a)) → T k m β (x >>= f)
  /-- A piece that decides by the state decides by what is known of it. -/
  reads : ∀ {β : Type} {k l : Known} {f : State → Engine β},
    (∀ s s', k.Agree s s' → f s = f s') → (∀ s, T k l β (f s)) → T k l β (get >>= f)
  /-- A received length is known. -/
  getLen : ∀ {β : Type} {k l : Known} {f : Nat → Engine β}, 5 ≤ k.stage →
    (∀ n, T { k with len := some n } l β (f n)) → T k l β (get >>= fun s => f s.work.len.toNat)
  /-- What is known may be forgotten. -/
  forget : ∀ {α : Type} {k l m : Known} {x : Engine α}, T k l α x →
    (∀ s s', l.Agree s s' → m.Agree s s') → m.len = none ∨ m.len = l.len → T k m α x
  /-- An error outside the payload has no index (10_state.md R33). -/
  raise : ∀ {α : Type} (k l : Known) (code : ErrCode) (field : ErrField) (index : Byte),
    (field ≠ .data → index = 0) → T k l α (raise code field index)
  tS : ∀ k : Known, T k { k with tS := true } Unit markWait
  t0 : ∀ (k : Known) (a : Tick),
    T k { k with t0 := true } Unit (modify fun s => { s with t0 := a })
  shreg : ∀ (k : Known) (v : Half),
    T k { k with shreg := true } Unit (modify fun s => { s with shreg := v })
  shiftIn : ∀ (k : Known) (b : Bool), k.shreg = true →
    T k k Unit (modify fun s => { s with shreg := shiftIn s.shreg b })
  seqBit : ∀ (k : Known) (n : Nat), T k k Unit (setSeqBit n)
  seq : ∀ (k : Known) (st : SeqState), T k k Unit (setSeq st)
  seqData : ∀ (k : Known) (i : Byte), T k k Unit (setSeqData i)
  work : ∀ (k : Known) (n : Nat) (f : Message → Message),
    (∀ w w', SameUpTo k.stage w w' → SameUpTo n (f w) (f w')) →
    k.len = none ∨ (∀ w, (f w).len = w.len) → T k { k with stage := n } Unit (setWork f)
  latch : ∀ (k : Known) (v : Half), 1 ≤ k.stage → k.owed = true → T k k Unit (latchSlave v)
  clearOwed : ∀ k : Known, T k { k with owed := true } Unit (modify fun s => { s with owed := false })
  clearHswait : ∀ k : Known,
    T k { k with hswait := true } Unit (modify fun s => { s with hswait := false })
  setHswait : ∀ k : Known,
    T k { k with hswait := true } Unit (modify fun s => { s with hswait := hsWaitFor s.msg.bt })
  commit : ∀ (k : Known) (n : Nat), k.len = some n → k.stage = n + 5 →
    T k k Unit (modify fun s => { s with msg := s.msg.commit s.work })

/-- The judgement holds besides of the sub-steps that take time. -/
structure Rules (T : Judgement) : Prop extends Writes T where
  of_waitLevel : ∀ (k : Known) (l : Level) (pl : Place), (pl.field ≠ .data → pl.index = 0) →
    T k { k with tS := true } Tick (waitLevel l pl)
  of_busFree : ∀ k : Known, T k k Bool busFree
  of_waitBusFree : ∀ k : Known, T k { k with tS := true } Unit waitBusFree
  of_rest : ∀ (k : Known) (n : Nat), T k k Unit (drive .inactive n)
  of_txBit : ∀ (k : Known) (b : Bool), T k k Unit (txBit b)
  of_txStart : ∀ k : Known, T k k Unit txStart

/-- The judgement holds besides of a single tick, of a write of `TXD` and of a wait without end. -/
structure TickRules (T : Judgement) : Prop extends Writes T where
  of_elapse : ∀ k : Known, T k k Unit elapse
  of_hang : ∀ {α : Type} (k l : Known), T k l α hang
  of_txd : ∀ (k : Known) (l : Level), T k k Unit (modify fun s => { s with txd := l })

section
variable {T : Judgement} {α : Type} {k l : Known}

theorem judged_ite {c : Prop} [Decidable c] {x y : Engine α} (hx : T k l α x) (hy : T k l α y) :
    T k l α (if c then x else y) := by
  split
  · exact hx
  · exact hy

theorem Writes.of_onlyIf (h : Writes T) (c : Bool) {x : Engine Unit} (hx : T k k Unit x) :
    T k k Unit (onlyIf c x) := judged_ite hx (h.pure k _)

/-! ### The sub-steps that take time, tick by tick -/

namespace TickRules

theorem of_sample (h : TickRules T) (k : Known) : T k k Level sample :=
  h.reads (fun s s' a => by rw [State.rxNow, State.rxNow, a.rx]) fun _ =>
    h.bind (h.of_elapse k) fun _ => h.pure k _

theorem of_delay (h : TickRules T) (k : Known) (n : Nat) : T k k Unit (delay n) := by
  induction n with
  | zero => exact h.pure k _
  | succ n ih => exact h.bind (h.of_elapse k) fun _ => ih

theorem of_drive (h : TickRules T) (k : Known) (l : Level) (n : Nat) : T k k Unit (drive l n) :=
  judged_ite (h.pure k _) (h.bind (h.of_txd k l) fun _ => h.of_delay k n)

theorem of_txBit (h : TickRules T) (k : Known) (b : Bool) : T k k Unit (txBit b) :=
  h.reads (fun s s' a => by rw [a.params]) fun _ =>
    h.bind (h.of_drive k _ _) fun _ => h.of_drive k _ _

theorem of_txStart (h : TickRules T) (k : Known) : T k k Unit txStart :=
  h.reads (fun s s' a => by rw [a.params]) fun _ =>
    h.bind (h.of_drive k _ _) fun _ => h.of_drive k _ _

theorem of_busFreeLoop (h : TickRules T) (k : Known) (n : Nat) : T k k Bool (busFreeLoop n) := by
  induction n with
  | zero => exact h.pure k _
  | succ n ih => exact h.bind (h.of_sample k) fun _ => judged_ite (h.pure k _) ih

theorem of_busFree (h : TickRules T) (k : Known) : T k k Bool busFree :=
  h.reads (fun s s' a => by rw [a.params]) fun _ => h.of_busFreeLoop k _

theorem of_waitLoop (h : TickRules T) (hk : k.tS = true) (x : Level) (pl : Place)
    (hpl : pl.field ≠ .data → pl.index = 0) (n : Nat) : T k k Tick (waitLoop x pl n) := by
  induction n with
  | zero => exact h.of_hang k k
  | succ n ih =>
    refine h.reads (fun s s' a => by rw [a.expired hk, a.params, a.now]) fun s => ?_
    exact judged_ite (h.raise k k _ _ _ hpl) <|
      h.bind (h.of_sample k) fun _ => judged_ite (h.pure k _) ih

theorem of_waitLevel (h : TickRules T) (k : Known) (x : Level) (pl : Place)
    (hpl : pl.field ≠ .data → pl.index = 0) : T k { k with tS := true } Tick (waitLevel x pl) :=
  h.bind (h.tS k) fun _ =>
    h.reads (fun s s' a => by rw [State.turns, State.turns, a.rx, a.params]) fun _ =>
      h.of_waitLoop rfl x pl hpl _

theorem of_waitBusFreeLoop (h : TickRules T) (hk : k.tS = true) (n : Nat) :
    T k k Unit (waitBusFreeLoop n) := by
  induction n with
  | zero => exact h.of_hang k k
  | succ n ih =>
    exact h.bind (h.of_busFree k) fun _ => judged_ite (h.pure k _) <|
      h.reads (fun s s' a => by rw [a.expired hk, a.params]) fun _ =>
        judged_ite (h.raise k k _ _ _ fun _ => rfl) ih

theorem of_waitBusFree (h : TickRules T) (k : Known) : T k { k with tS := true } Unit waitBusFree :=
  h.bind (h.tS k) fun _ =>
    h.reads (fun s s' a => by rw [State.turns, State.turns, a.rx, a.params]) fun _ =>
      h.of_waitBusFreeLoop rfl _

theorem toRules (h : TickRules T) : Rules T :=
  { h.toWrites with
    of_waitLevel := h.of_waitLevel
    of_busFree := h.of_busFree
    of_waitBusFree := h.of_waitBusFree
    of_rest := fun k n => h.of_drive k .inactive n
    of_txBit := h.of_txBit
    of_txStart := h.of_txStart }

end TickRules

/-! ### The Codec -/

namespace Rules

theorem of_rxPulse (h : Rules T) (k : Known) (pl : Place) (hpl : pl.field ≠ .data → pl.index = 0) :
    T k k Nat (rxPulse pl) := by
  refine h.bind (h.of_waitLevel k _ pl hpl) fun a => h.bind (h.t0 _ a) fun _ =>
    h.bind (h.of_waitLevel _ _ pl hpl) fun _ =>
      h.forget (l := { k with tS := true, t0 := true }) ?_ ?_ (.inr rfl)
  · exact h.reads (fun s s' a => by rw [a.t0 rfl]) fun _ => h.pure _ _
  · exact fun s s' a => { a with tS := fun _ => a.tS rfl, t0 := fun _ => a.t0 rfl }

theorem of_rxStart (h : Rules T) (k : Known) : T k k Bool rxStart :=
  h.bind (h.of_rxPulse k _ fun _ => rfl) fun _ =>
    h.reads (fun s s' a => by rw [a.params]) fun _ => h.pure k _

theorem of_rxBit (h : Rules T) (k : Known) (pl : Place) (hpl : pl.field ≠ .data → pl.index = 0) :
    T k k Bool (rxBit pl) :=
  h.bind (h.of_rxPulse k pl hpl) fun _ => h.reads (fun s s' a => by rw [a.params]) fun _ => h.pure k _

theorem of_rxBitsLoop (h : Rules T) (hk : k.shreg = true) (pl : Place)
    (hpl : pl.field ≠ .data → pl.index = 0) (n : Nat) : T k k Unit (rxBitsLoop pl n) := by
  induction n with
  | zero => exact h.pure k _
  | succ n ih =>
    exact h.bind (h.of_rxBit k pl hpl) fun b => h.bind (h.shiftIn k b hk) fun _ =>
      h.bind (h.seqBit k n) fun _ => ih

theorem of_rxBits (h : Rules T) (k : Known) (n : Nat) (pl : Place)
    (hpl : pl.field ≠ .data → pl.index = 0) : T k k Half (rxBits n pl) := by
  refine h.forget ?_ (fun s s' a => a.of_shreg) (.inr rfl)
  exact h.bind (h.shreg k 0) fun _ => h.bind (h.seqBit _ n) fun _ =>
    h.bind (h.of_rxBitsLoop rfl pl hpl n) fun _ =>
      h.reads (fun s s' a => by rw [a.shreg rfl]) fun _ => h.pure _ _

theorem of_rxAck (h : Rules T) (k : Known) (pl : Place) (hpl : pl.field ≠ .data → pl.index = 0) :
    T k k Ack (rxAck pl) :=
  h.bind (h.of_rxBit k pl hpl) fun _ => h.pure k _

theorem of_txBitsLoop (h : Rules T) (hk : k.shreg = true) (n : Nat) : T k k Unit (txBitsLoop n) := by
  induction n with
  | zero => exact h.pure k _
  | succ n ih =>
    exact h.reads (fun s s' a => by rw [a.shreg hk]) fun _ => h.bind (h.of_txBit k _) fun _ =>
      h.bind (h.seqBit k n) fun _ => ih

theorem of_txBits (h : Rules T) (k : Known) (v : Half) (n : Nat) : T k k Unit (txBits v n) := by
  refine h.forget ?_ (fun s s' a => a.of_shreg) (.inr rfl)
  exact h.bind (h.shreg k v) fun _ => h.bind (h.seqBit _ n) fun _ => h.of_txBitsLoop rfl n

theorem of_transmit (h : Rules T) {body : Engine Unit} (hb : T k k Unit body) :
    T k k (Bool × Half) (transmit body) := h.bind hb fun _ => h.pure k _

theorem of_illegalCommand (h : Rules T) (k : Known) : T k k (Bool × Half) illegalCommand :=
  h.raise k k _ _ _ fun _ => rfl

/-- The Codec operations, whatever is known. -/
theorem of_codec (h : Rules T) (k : Known) {i : Instr} (hi : isCodecOp i = true) :
    T k k (Bool × Half) (pseudocode i) := by
  have place : Place.alone.field ≠ .data → Place.alone.index = 0 := fun _ => rfl
  cases i with
  | enable | disable | isen | readmsg | writemsg => cases hi
  | busfree => exact h.bind (h.of_busFree k) fun _ => h.pure k _
  | rxstart =>
    exact h.bind (h.of_rxStart k) fun _ => judged_ite (h.pure k _) (h.raise k k _ _ _ fun _ => rfl)
  | rxbit => exact h.bind (h.of_rxBit k _ place) fun _ => h.pure k _
  | rxbits n =>
    exact judged_ite (h.bind (h.of_rxBits k _ _ place) fun _ => h.pure k _) (h.of_illegalCommand k)
  | rxack => exact h.bind (h.of_rxAck k _ place) fun _ => h.pure k _
  | txstart => exact h.of_transmit (h.of_txStart k)
  | txbit b => exact h.of_transmit (h.of_txBit k b)
  | txbits v n => exact judged_ite (h.of_transmit (h.of_txBits k v _)) (h.of_illegalCommand k)
  | txack a => exact h.of_transmit (h.of_txBit k _)

/-! ### READMSG -/

theorem of_answer (h : Rules T) (k : Known) (a : Ack) : T k k Unit (answer a) :=
  h.reads (fun s s' a => by rw [a.params]) fun _ => h.bind (h.of_rest k _) fun _ => h.of_txBit k _

/-- The exchange of a field, where `OWED` is known; the slave field computes it from the type. -/
theorem of_rxField (h : Rules T) (n : Nat) (field : ErrField) (index : Byte)
    (hpl : field ≠ .data → index = 0) (howed : k.owed = true) (htype : field = .slave → 1 ≤ k.stage) :
    T k k Half (rxField n field index) := by
  refine h.bind (h.of_rxBits k n _ hpl) fun v => h.bind (h.of_rxBit k _ hpl) fun p => h.bind ?_ fun _ =>
    h.reads (fun s s' a => by rw [a.owed howed]) fun s => judged_ite ?_ ?_
  · by_cases slave : field = .slave
    · exact h.of_onlyIf _ (h.latch k v (htype slave) howed)
    · have unlatched : onlyIf (decide (field = .slave)) (latchSlave v) = pure () := by
        simp [onlyIf, slave]
      rw [unlatched]
      exact h.pure k _
  · exact h.bind (h.of_onlyIf _ (h.of_answer k _)) fun _ => h.pure k _
  · exact h.bind (h.of_onlyIf _ (h.of_answer k _)) fun _ => h.raise k k _ _ _ hpl

theorem of_seqEligible (h : Rules T) (k : Known) (i : Nat) : T k k Unit (seqEligible i) := by
  match i with
  | 0 | 1 | 2 => exact h.seq k _
  | _ + 3 => exact h.seqData k _

/-- Only the length field writes `W_LEN`. -/
theorem storeEligible_len {i : Nat} (hi : i ≠ 2) (v : Half) (w : Message) :
    (storeEligible v i w).len = w.len := by
  match i with
  | 0 | 1 | _ + 3 => rfl
  | 2 => exact absurd rfl hi

theorem of_readEligible (h : Rules T) (i : Nat) (howed : k.owed = true) (hstage : k.stage = i + 2)
    (hlen : k.len = none ∨ 3 ≤ i) : T k { k with stage := i + 3 } Unit (readEligible i) :=
  h.bind (h.of_seqEligible k i) fun _ =>
    h.bind (h.of_rxField _ _ _ (eligiblePlace_index i) howed fun _ => by omega) fun v =>
      h.work k (i + 3) _ (fun w w' hw => SameUpTo.store v i (hstage ▸ hw))
        (hlen.imp_right fun _ => storeEligible_len (by omega) v)

theorem of_readFields (h : Rules T) (n : Nat) : ∀ {k : Known} (i : Nat), k.owed = true →
    k.stage = i + 2 → k.len = none ∨ 3 ≤ i →
    T k { k with stage := n + i + 2 } Unit (readFields n i) := by
  induction n with
  | zero =>
    intro k i _ hstage _
    have same : ({ k with stage := 0 + i + 2 } : Known) = k := by rw [Nat.zero_add, ← hstage]
    rw [same]
    exact h.pure k _
  | succ n ih =>
    intro k i howed hstage hlen
    have rest := ih (k := { k with stage := i + 3 }) (i + 1) howed rfl (hlen.imp_right fun _ => by omega)
    rw [show n + (i + 1) + 2 = n + 1 + i + 2 by omega] at rest
    exact h.bind (h.of_readEligible i howed hstage hlen) fun _ => rest

theorem of_readHead (h : Rules T) (howed : k.owed = true) (hlen : k.len = none) :
    T k { k with stage := 2 } Unit readHead := by
  have type : T k { k with stage := 1 } Unit readType :=
    h.bind (h.seq k _) fun _ => h.bind (h.of_rxBit k _ fun _ => rfl) fun b =>
      h.reads (fun s s' a => by rw [a.params]) fun _ =>
        h.work k 1 _ (fun w w' _ => ⟨fun _ => rfl, by omega, by omega, by omega, by omega, by omega⟩)
          (.inl hlen)
  have start : T k k Unit readStart :=
    h.bind (h.seq k _) fun _ => h.bind (h.of_rxStart k) fun _ =>
      judged_ite (h.pure k _) (h.raise k k _ _ _ fun _ => rfl)
  exact h.bind start fun _ => h.bind type fun _ => h.bind (h.seq _ _) fun _ =>
    h.bind (h.of_rxField _ _ _ (fun _ => rfl) howed nofun) fun v =>
      h.work _ 2 _ (fun w w' hw =>
        ⟨fun _ => hw.bt le_rfl, fun _ => rfl, by omega, by omega, by omega, by omega⟩) (.inl hlen)

/-- What is known of the working Message may be forgotten. -/
theorem forgetWork (h : Rules T) {n : Nat} {c : Option Nat} {x : Engine α}
    (hx : T k { l with stage := n, len := c } α x) : T k { l with stage := 0, len := none } α x :=
  h.forget hx (fun _ _ a => { a with work := .zero _ _ }) (.inl rfl)

/-- A frame is received in full and then committed. -/
theorem of_readCommit (h : Rules T) (howed : k.owed = true) (hlen : k.len = none) :
    T k { k with stage := 0, len := none } Unit (readFrame >>= fun _ => commitMessage) := by
  have rest : T { k with stage := 2 } { k with stage := 0, len := none } Unit
      (readRest >>= fun _ => commitMessage) := by
    rw [readRest, bind_assoc]
    simp only [bind_assoc]
    refine h.bind (h.of_readFields 3 0 howed rfl (.inl hlen)) fun _ =>
      h.getLen (f := fun n => readFields n 3 >>= fun _ => commitMessage) le_rfl fun n => ?_
    refine h.forgetWork (h.bind (h.of_readFields n 3 howed rfl (.inr le_rfl)) fun _ =>
      h.bind (h.seq _ _) fun _ => h.commit _ n rfl rfl)
  rw [readFrame, bind_assoc]
  exact h.bind (h.of_readHead howed hlen) fun _ => rest

theorem of_readMsg (h : Rules T) (hen : k.en = true) (hlen : k.len = none) :
    T k { k with owed := true, stage := 0, len := none } (Bool × Half) readMsg := by
  rw [readMsg_eq]
  refine h.bind (h.clearOwed k) fun _ => h.reads (fun s s' a => by rw [a.en hen]) fun s => ?_
  refine judged_ite ?_ (h.raise _ _ _ _ _ fun _ => rfl)
  have run := h.bind (h.of_readCommit (k := { k with owed := true }) rfl hlen) fun _ =>
    h.pure _ (true, (0 : Half))
  rwa [bind_assoc] at run

/-! ### WRITEMSG -/

theorem of_txField (h : Rules T) (hhs : k.hswait = true) (v : Half) (n : Nat) (field : ErrField)
    (index : Byte) (hpl : field ≠ .data → index = 0) : T k k Unit (txField v n field index) :=
  h.bind (h.of_txBits k v n) fun _ => h.bind (h.of_txBit k _) fun _ =>
    h.reads (fun s s' a => by rw [a.hswait hhs]) fun _ =>
      judged_ite
        (h.bind (h.of_rxAck k _ hpl) fun a => by
          cases a with
          | acknowledged => exact h.pure k _
          | rejected => exact h.raise k k _ _ _ hpl)
        (h.pure k _)

theorem of_writeEligible (h : Rules T) (hhs : k.hswait = true) (i : Nat) :
    T k k Unit (writeEligible i) :=
  h.bind (h.of_seqEligible k i) fun _ => h.reads (fun s s' a => by rw [a.msg]) fun _ =>
    h.of_txField hhs _ _ _ _ (eligiblePlace_index i)

theorem of_writeFields (h : Rules T) (hhs : k.hswait = true) (n : Nat) : ∀ i,
    T k k Unit (writeFields n i) := by
  induction n with
  | zero => exact fun _ => h.pure k _
  | succ n ih => exact fun i => h.bind (h.of_writeEligible hhs i) fun _ => ih (i + 1)

theorem of_writeFrame (h : Rules T) (hhs : k.hswait = true) : T k k Unit writeFrame := by
  have start : T k k Unit writeStart := by
    refine h.bind (h.seq k _) fun _ => h.bind (l := k) ?_ fun _ => h.bind (h.seq k _) fun _ =>
      h.bind (h.of_txStart k) fun _ => h.bind (h.seq k _) fun _ =>
        h.reads (fun s s' a => by rw [a.params, a.msg]) fun _ => h.of_txBit k _
    exact h.forget (h.of_waitBusFree k) (fun s s' a => { a with tS := fun _ => a.tS rfl }) (.inr rfl)
  have head : T k k Unit writeHead :=
    h.bind start fun _ => h.bind (h.seq k _) fun _ => h.reads (fun s s' a => by rw [a.msg]) fun _ =>
      h.of_txField hhs _ _ _ _ fun _ => rfl
  exact h.bind head fun _ => h.bind (h.of_writeFields hhs 3 0) fun _ =>
    h.reads (fun s s' a => by rw [a.msg]) fun _ => h.of_writeFields hhs _ _

theorem of_writeMsg (h : Rules T) (hen : k.en = true) :
    T k { k with hswait := true } (Bool × Half) writeMsg := by
  rw [writeMsg_eq]
  refine h.bind (h.clearHswait k) fun _ =>
    h.reads (fun s s' a => by rw [a.en hen, a.msg]) fun s => ?_
  refine judged_ite (judged_ite ?_ (h.raise _ _ _ _ _ fun _ => rfl)) (h.raise _ _ _ _ _ fun _ => rfl)
  exact h.bind (h.setHswait _) fun _ => h.bind (h.of_writeFrame rfl) fun _ =>
    h.bind (h.seq _ _) fun _ => h.pure _ _

/-! ### Every operation -/

/-- The judgement holds of every operation but the two writes of the gate. -/
theorem of_pseudocode (h : Rules T) (hen : k.en = true) (hlen : k.len = none) {i : Instr}
    (henable : i ≠ .enable) (hdisable : i ≠ .disable) :
    ∃ l, T k l (Bool × Half) (pseudocode i) := by
  cases i with
  | enable => exact absurd rfl henable
  | disable => exact absurd rfl hdisable
  | isen => exact ⟨k, h.reads (fun s s' a => by rw [a.en hen]) fun _ => h.pure k _⟩
  | readmsg => exact ⟨_, h.of_readMsg hen hlen⟩
  | writemsg => exact ⟨_, h.of_writeMsg hen⟩
  | busfree | rxstart | rxbit | rxbits _ | rxack | txstart | txbit _ | txbits _ _ | txack _ =>
    exact ⟨k, h.of_codec k rfl⟩

end Rules

end

end Sys2Proof.Machine
end

section
/-! Two machines that an operation cannot tell apart: the relation between them is kept along its
pseudocode, tick by tick (10_state.md R40; 40_gate_control.md R113). -/

namespace Sys2Proof.Machine

/-! ### The judgement -/

/-- A relation between machines that agree in `BUSY` and in the reset input, kept by ticks and by writing
the same value on both sides. -/
structure Alike (B : State → State → Prop) : Prop where
  busy : ∀ {s s'}, B s s' → s.busy = s'.busy
  resetNow : ∀ {s s'}, B s s' → s.resetNow = s'.resetNow
  pass : ∀ {s s'}, s.busy = true → B s s' → B s.pass s'.pass
  applyReset : ∀ {s s'}, B s s' → B s.applyReset s'.applyReset
  accept : ∀ {s s'}, B s s' → B s.accept s'.accept
  complete : ∀ {s s'} (ok : Bool) (v : Half), B s s' → B (s.complete ok v) (s'.complete ok v)
  takeError : ∀ {s s'} (e : Err), B s s' → B (s.takeError e) (s'.takeError e)
  tS : ∀ {s s'} (a : Tick), B s s' → B { s with tS := a } { s' with tS := a }
  t0 : ∀ {s s'} (a : Tick), B s s' → B { s with t0 := a } { s' with t0 := a }
  shreg : ∀ {s s'} (v : Half), B s s' → B { s with shreg := v } { s' with shreg := v }
  owed : ∀ {s s'} (b : Bool), B s s' → B { s with owed := b } { s' with owed := b }
  hswait : ∀ {s s'} (b : Bool), B s s' → B { s with hswait := b } { s' with hswait := b }
  txd : ∀ {s s'} (l : Level), B s s' → B { s with txd := l } { s' with txd := l }
  msg : ∀ {s s'} (m : Message), B s s' → B { s with msg := m } { s' with msg := m }
  seq : ∀ {s s'} (q q' : Seq), q.state = q'.state → (s.seq = s'.seq → q = q') → B s s' →
    B { s with seq := q } { s' with seq := q' }
  work : ∀ {s s'} (f : Message → Message), B s s' →
    B { s with work := f s.work } { s' with work := f s'.work }

/-- Two such machines in the middle of an operation, and what is known of them. -/
structure Twins (B : State → State → Prop) (k : Known) (s s' : State) : Prop where
  alike : B s s'
  busy : s.busy = true
  agree : k.Agree s s'
  len : ∀ n, k.len = some n → s.work.len.toNat = n

/-- A piece of pseudocode runs alike on two such machines: it ends in the same way, in such machines. -/
def RunsAlike (B : State → State → Prop) : Judgement := fun k l _ m =>
  ∀ s s', Twins B k s s' →
    (∀ a t, m s = .ok a t → ∃ t', m s' = .ok a t' ∧ Twins B l t t') ∧
    ∀ e t, m s = .error e t → ∃ t', m s' = .error e t' ∧ B t t'

section
variable {B : State → State → Prop} {α : Type} {k l : Known}

theorem runsAlike_of_ok {m : Engine α} {a : α} {f : State → State} (hm : ∀ s, m s = .ok a (f s))
    (hf : ∀ s s', Twins B k s s' → Twins B l (f s) (f s')) : RunsAlike B k l α m := by
  intro s s' h
  refine ⟨fun b t ht => ?_, fun e t ht => ?_⟩ <;> rw [hm] at ht <;> cases ht
  exact ⟨f s', hm s', hf s s' h⟩

/-- A write of a register, of which `agree` says what is known of it afterwards. -/
theorem runsAlike_modify {f : State → State} (hbusy : ∀ s, (f s).busy = s.busy)
    (hlen : ∀ s, (f s).work.len = s.work.len) (hk : l.len = k.len)
    (hB : ∀ s s', k.Agree s s' → B s s' → B (f s) (f s'))
    (hagree : ∀ s s', k.Agree s s' → l.Agree (f s) (f s')) :
    RunsAlike B k l Unit (modify f) :=
  runsAlike_of_ok (fun _ => rfl) fun s s' h =>
    ⟨hB s s' h.agree h.alike, (hbusy s).trans h.busy, hagree s s' h.agree,
      fun n hn => by rw [hlen]; exact h.len n (hk ▸ hn)⟩

theorem runsAlike_setSeqBit (hB : Alike B) (k : Known) (n : Nat) :
    RunsAlike B k k Unit (setSeqBit n) := by
  refine runsAlike_modify (fun s => ?_) (fun s => ?_) rfl (fun s s' a h => ?_) fun s s' a => ?_
  · split <;> rfl
  · split <;> rfl
  · rw [← a.seq]
    split
    · exact h
    · exact hB.seq _ _ a.seq (fun e => by rw [e]) h
  · rw [← a.seq]
    split
    · exact a
    · exact { a with }

theorem runsAlike_writes (hB : Alike B) : Writes (RunsAlike B) where
  pure k a := runsAlike_of_ok (fun _ => rfl) fun _ _ h => h
  bind := by
    intro α β k l m x f hx hf s s' h
    obtain ⟨hok, herror⟩ := hx s s' h
    cases hs : x s with
    | ok a t =>
      obtain ⟨t', ht', htwins⟩ := hok a t hs
      rw [engine_bind_ok hs, engine_bind_ok ht']
      exact hf a t t' htwins
    | error e t =>
      obtain ⟨t', ht', halike⟩ := herror e t hs
      rw [engine_bind_error hs, engine_bind_error ht']
      refine ⟨fun a u hu => (by cases hu), fun e' u hu => ?_⟩
      cases hu
      exact ⟨t', rfl, halike⟩
  reads := by
    intro β k l f hread hf s s' h
    have same : (get >>= f) s' = f s s' := by
      rw [engine_bind_ok (engine_get s'), hread s s' h.agree]
    rw [engine_bind_ok (engine_get s), same]
    exact hf s s s' h
  getLen := by
    intro β k l f hstage hf s s' h
    have same : s'.work.len = s.work.len := (h.agree.work.len hstage).symm
    rw [engine_bind_ok (engine_get s), engine_bind_ok (engine_get s'), same]
    exact hf _ s s' ⟨h.alike, h.busy, { h.agree with }, fun n hn => Option.some.inj hn⟩
  forget := by
    intro α k l m x hx hforget hlen s s' h
    obtain ⟨hok, herror⟩ := hx s s' h
    refine ⟨fun a t ht => ?_, herror⟩
    obtain ⟨t', ht', twins⟩ := hok a t ht
    refine ⟨t', ht', twins.alike, twins.busy, hforget t t' twins.agree, fun n hn => ?_⟩
    obtain unknown | same := hlen
    · rw [unknown] at hn
      cases hn
    · exact twins.len n (same ▸ hn)
  raise := by
    intro α k l code field index _ s s' h
    refine ⟨fun a t ht => (by cases ht), fun e t ht => ?_⟩
    cases ht
    exact ⟨s', rfl, h.alike⟩
  tS k := runsAlike_modify (fun _ => rfl) (fun _ => rfl) rfl
    (fun s s' a h => a.now ▸ hB.tS _ h) fun s s' a => { a with tS := fun _ => a.now }
  t0 k v := runsAlike_modify (fun _ => rfl) (fun _ => rfl) rfl (fun _ _ _ h => hB.t0 v h)
    fun s s' a => { a with t0 := fun _ => rfl }
  shreg k v := runsAlike_modify (fun _ => rfl) (fun _ => rfl) rfl (fun _ _ _ h => hB.shreg v h)
    fun s s' a => { a with shreg := fun _ => rfl }
  shiftIn k b hk := runsAlike_modify (fun _ => rfl) (fun _ => rfl) rfl
    (fun s s' a h => a.shreg hk ▸ hB.shreg _ h)
    fun s s' a => { a with shreg := fun _ => by rw [a.shreg hk] }
  seqBit := runsAlike_setSeqBit hB
  seq k st := runsAlike_modify (fun _ => rfl) (fun _ => rfl) rfl
    (fun s s' _ h => hB.seq _ _ rfl (fun e => by rw [e]) h) fun s s' a => { a with seq := rfl }
  seqData k i := runsAlike_modify (fun _ => rfl) (fun _ => rfl) rfl
    (fun s s' _ h => hB.seq _ _ rfl (fun e => by rw [e]) h) fun s s' a => { a with seq := rfl }
  work := by
    intro k n f hf hlen
    refine runsAlike_of_ok (fun _ => rfl) fun s s' h =>
      ⟨hB.work f h.alike, h.busy, { h.agree with work := hf _ _ h.agree.work }, fun c hc => ?_⟩
    obtain unknown | keeps := hlen
    · rw [show k.len = some c from hc] at unknown
      cases unknown
    · exact (congrArg BitVec.toNat (keeps _)).trans (h.len c hc)
  latch := by
    intro k v hstage howed
    refine runsAlike_modify (fun _ => rfl) (fun _ => rfl) rfl (fun s s' a h => ?_) fun s s' a => ?_
    · have same : owedFor s.params s.work.bt (v.setWidth 12) =
          owedFor s'.params s'.work.bt (v.setWidth 12) := by rw [a.params, a.work.bt hstage]
      rw [← same]
      exact hB.owed _ (hB.work (fun w => { w with slave := v.setWidth 12 }) h)
    · exact { a with
        owed := fun _ => by rw [a.params, a.work.bt hstage]
        work := { a.work with slave := fun _ => rfl } }
  clearOwed k := runsAlike_modify (fun _ => rfl) (fun _ => rfl) rfl (fun _ _ _ h => hB.owed _ h)
    fun s s' a => { a with owed := fun _ => rfl }
  clearHswait k := runsAlike_modify (fun _ => rfl) (fun _ => rfl) rfl (fun _ _ _ h => hB.hswait _ h)
    fun s s' a => { a with hswait := fun _ => rfl }
  setHswait := by
    intro k
    have same : ∀ {s s'}, k.Agree s s' → hsWaitFor s'.msg.bt = hsWaitFor s.msg.bt :=
      fun a => by rw [a.msg]
    exact runsAlike_modify (fun _ => rfl) (fun _ => rfl) rfl
      (fun s s' a h => by rw [same a]; exact hB.hswait _ h)
      fun s s' a => { a with hswait := fun _ => (same a).symm }
  commit := by
    intro k n hlen hstage
    refine runsAlike_of_ok (fun _ => rfl) fun s s' h => ?_
    have work := h.agree.work
    rw [hstage] at work
    have same : s.msg.commit s.work = s'.msg.commit s'.work := by
      rw [h.agree.msg]
      exact work.commit n s'.msg (h.len n hlen).le
    exact ⟨same ▸ hB.msg _ h.alike, h.busy, { h.agree with msg := same }, h.len⟩

theorem agree_pass {s s' : State} (hs : s.busy = true) (hs' : s'.busy = true) (a : k.Agree s s') :
    k.Agree s.pass s'.pass := by
  rw [s.pass_of_busy hs, s'.pass_of_busy hs']
  exact { a with now := by rw [a.now], rx := by rw [a.rx] }

theorem runsAlike_tickRules (hB : Alike B) : TickRules (RunsAlike B) :=
  { runsAlike_writes hB with
    of_elapse := by
      intro k s s' h
      have busy' : s'.busy = true := (hB.busy h.alike).symm.trans h.busy
      cases hr : s.resetNow with
      | true =>
        rw [elapse_of_reset s hr, elapse_of_reset s' ((hB.resetNow h.alike).symm.trans hr)]
        refine ⟨fun a t ht => (by cases ht), fun e t ht => ?_⟩
        cases ht
        exact ⟨_, rfl, hB.applyReset h.alike⟩
      | false =>
        rw [elapse_of_not_reset s hr, elapse_of_not_reset s' ((hB.resetNow h.alike).symm.trans hr)]
        refine ⟨fun a t ht => ?_, fun e t ht => (by cases ht)⟩
        cases ht
        exact ⟨_, rfl, hB.pass h.busy h.alike, by rw [State.pass_busy, h.busy],
          agree_pass h.busy busy' h.agree, fun n hn => by rw [State.pass_work]; exact h.len n hn⟩
    of_hang := by
      intro α k l s s' h
      refine ⟨fun a t ht => (by cases ht), fun e t ht => ?_⟩
      cases ht
      exact ⟨s', rfl, h.alike⟩
    of_txd := fun k l => runsAlike_modify (fun _ => rfl) (fun _ => rfl) rfl
      (fun _ _ _ h => hB.txd l h) fun s s' a => { a with } }

/-- An operation runs alike from acceptance to its end. -/
theorem operate_alike (hB : Alike B) {body : Engine (Bool × Half)}
    (hbody : RunsAlike B k l (Bool × Half) body) (hk : k.len = none) {s s' t : State}
    (h : B s s') (agree : k.Agree s.accept s'.accept) (ht : operate body s = .next t) :
    ∃ t', operate body s' = .next t' ∧ B t t' := by
  obtain ⟨hok, herror⟩ := hbody s.accept s'.accept
    ⟨hB.accept h, rfl, agree, fun n hn => by rw [hk] at hn; cases hn⟩
  obtain ⟨r, u, hb, rfl⟩ | ⟨e, u, hb, rfl⟩ | hb | hb := operate_cases s body ht
  · obtain ⟨u', hb', twins⟩ := hok r u hb
    exact ⟨_, operate_of_ok hb', hB.complete _ _ twins.alike⟩
  · obtain ⟨u', hb', alike⟩ := herror _ u hb
    exact ⟨_, operate_of_raised hb', hB.takeError e alike⟩
  · obtain ⟨u', hb', alike⟩ := herror _ t hb
    exact ⟨_, operate_of_reset hb', alike⟩
  · obtain ⟨u', hb', alike⟩ := herror _ t hb
    exact ⟨_, operate_of_hung hb', alike⟩

end

/-! ### What a tick of an operation records -/

/-- The record of reads after a tick: only a read request is answered (20_memory.md R69). -/
theorem State.serve_io_reads (s : State) : s.serve.io.reads =
    match s.io.host.head? with
    | some (.read a n) => ⟨s.io.now, s.hostRead a n⟩ :: s.io.reads
    | _ => s.io.reads := by
  unfold State.serve
  split
  next h => simp [h]
  next h => simp [h, State.hostWrite_eq]
  all_goals simp [*]

/-! ### Machines that differ in hidden registers only -/

/-- What a host reads does not depend on the hidden registers. -/
theorem State.hostRead_visible (s : State) (a n : Nat) : s.visible.hostRead a n = s.hostRead a n := by
  unfold State.hostRead
  cases regAt a n with
  | none => rfl
  | some r => cases r <;> rfl

/-- In the middle of an operation, a tick and hiding commute. -/
theorem State.visible_pass {s : State} (h : s.busy = true) : s.pass.visible = s.visible.pass := by
  have reads : s.visible.serve.io.reads = s.serve.io.reads := by
    simp only [State.serve_io_reads, State.hostRead_visible]
    rfl
  rw [s.pass_of_busy h, s.visible.pass_of_busy h, reads]
  rfl

theorem visible_alike : Alike fun s s' => s.visible = s'.visible where
  busy h := (congrArg State.busy h :)
  resetNow h := (congrArg State.resetNow h :)
  pass {s s'} hb h := by
    have hb' : s'.busy = true := (congrArg State.busy h).symm.trans hb
    rw [State.visible_pass hb, State.visible_pass hb', h]
  applyReset h := congrArg State.applyReset h
  accept h := congrArg State.accept h
  complete ok v h := congrArg (State.complete · ok v) h
  takeError e h := congrArg (State.takeError · e) h
  tS _ h := h
  t0 _ h := h
  shreg _ h := h
  owed _ h := h
  hswait _ h := h
  txd l h := congrArg (fun s : State => { s with txd := l }) h
  msg m h := congrArg (fun s : State => { s with msg := m }) h
  seq {s s'} q q' hq _ h := by
    have := congrArg (fun s : State => { s with seq := ⟨q.state, 0, 0⟩ }) h
    exact this.trans (by rw [hq]; rfl)
  work _ h := h

/-- What is known of machines that differ in hidden registers only. -/
def Known.visible : Known := ⟨true, false, false, false, false, false, 0, none⟩

theorem agree_of_visible {s s' : State} (h : s.visible = s'.visible) : Known.visible.Agree s s' where
  params := (congrArg State.params h :)
  msg := (congrArg State.msg h :)
  seq := congrArg (fun s => s.seq.state) h
  now := congrArg (fun s => s.io.now) h
  rx := congrArg (fun s => s.io.rx) h
  en _ := (congrArg State.en h :)
  tS := nofun
  t0 := nofun
  shreg := nofun
  owed := nofun
  hswait := nofun
  work := .zero _ _

/-- Settles O50: the hidden registers are written before they are read, so the runs cannot differ. -/
theorem hiddenStateIsNeverObserved : Obligations.HiddenStateIsNeverObserved := by
  intro i s s' t h ht
  by_cases henable : i = .enable
  · subst henable
    rw [exec_enable_eq] at ht ⊢
    cases ht
    exact ⟨_, rfl, congrArg (fun s : State => State.complete { s.accept with en := true } true 0) h⟩
  by_cases hdisable : i = .disable
  · subst hdisable
    rw [exec_disable_eq] at ht ⊢
    cases ht
    exact ⟨_, rfl, congrArg (fun s : State => State.complete { s.accept with en := false } true 0) h⟩
  obtain ⟨l, runs⟩ := (runsAlike_tickRules visible_alike).toRules.of_pseudocode
    (k := Known.visible) rfl rfl henable hdisable
  rw [exec_eq_operate] at ht ⊢
  exact operate_alike visible_alike runs rfl h (agree_of_visible (visible_alike.accept h)) ht

/-! ### Machines that differ in the gate only -/

/-- `SameButGate` with the items that may differ named. -/
theorem sameButGate_iff {s s' : State} : s.SameButGate s' ↔ ∃ b p r,
    s' = { s with en := b, io := { s.io with pins := p, reads := r } } ∧
    p.map Pins.tx = s.io.pins.map Pins.tx ∧ r.map ReadData.tick = s.io.reads.map ReadData.tick := by
  constructor
  · exact fun h => ⟨_, _, _, h.same, h.tx, h.reads⟩
  · rintro ⟨b, p, r, rfl, tx, reads⟩
    exact ⟨rfl, tx, reads⟩

theorem sameButGate_pass {s s' : State} (hb : s.busy = true) (h : s.SameButGate s') :
    s.pass.SameButGate s'.pass := by
  obtain ⟨b, p, r, rfl, tx, reads⟩ := sameButGate_iff.mp h
  have hb' : ({ s with en := b, io := { s.io with pins := p, reads := r } } : State).busy = true := hb
  rw [s.pass_of_busy hb, State.pass_of_busy _ hb']
  refine ⟨rfl, ?_, ?_⟩
  · simp [tx]
  · simp only [State.serve_io_reads]
    split <;> simp [reads]

theorem sameButGate_alike : Alike State.SameButGate where
  busy h := by rw [h.same]
  resetNow h := by rw [h.same]; rfl
  pass := sameButGate_pass
  applyReset h := by
    obtain ⟨b, p, r, rfl, tx, reads⟩ := sameButGate_iff.mp h
    exact ⟨rfl, by simp [tx], by simpa using reads⟩
  accept h := by obtain ⟨b, p, r, rfl, tx, reads⟩ := sameButGate_iff.mp h; exact ⟨rfl, tx, reads⟩
  complete _ _ h := by
    obtain ⟨b, p, r, rfl, tx, reads⟩ := sameButGate_iff.mp h; exact ⟨rfl, tx, reads⟩
  takeError _ h := by
    obtain ⟨b, p, r, rfl, tx, reads⟩ := sameButGate_iff.mp h; exact ⟨rfl, tx, reads⟩
  tS _ h := by obtain ⟨b, p, r, rfl, tx, reads⟩ := sameButGate_iff.mp h; exact ⟨rfl, tx, reads⟩
  t0 _ h := by obtain ⟨b, p, r, rfl, tx, reads⟩ := sameButGate_iff.mp h; exact ⟨rfl, tx, reads⟩
  shreg _ h := by obtain ⟨b, p, r, rfl, tx, reads⟩ := sameButGate_iff.mp h; exact ⟨rfl, tx, reads⟩
  owed _ h := by obtain ⟨b, p, r, rfl, tx, reads⟩ := sameButGate_iff.mp h; exact ⟨rfl, tx, reads⟩
  hswait _ h := by obtain ⟨b, p, r, rfl, tx, reads⟩ := sameButGate_iff.mp h; exact ⟨rfl, tx, reads⟩
  txd _ h := by obtain ⟨b, p, r, rfl, tx, reads⟩ := sameButGate_iff.mp h; exact ⟨rfl, tx, reads⟩
  msg _ h := by obtain ⟨b, p, r, rfl, tx, reads⟩ := sameButGate_iff.mp h; exact ⟨rfl, tx, reads⟩
  seq _ _ _ hq h := by
    obtain ⟨b, p, r, rfl, tx, reads⟩ := sameButGate_iff.mp h
    rw [hq rfl]
    exact ⟨rfl, tx, reads⟩
  work _ h := by obtain ⟨b, p, r, rfl, tx, reads⟩ := sameButGate_iff.mp h; exact ⟨rfl, tx, reads⟩

/-- What is known of machines that differ in the gate only. -/
def Known.ungated : Known := ⟨false, true, true, true, true, true, 0, none⟩

theorem agree_of_sameButGate {s s' : State} (h : s.SameButGate s') : Known.ungated.Agree s s' := by
  obtain ⟨b, p, r, rfl, -, -⟩ := sameButGate_iff.mp h
  exact ⟨rfl, rfl, rfl, rfl, rfl, nofun, fun _ => rfl, fun _ => rfl, fun _ => rfl, fun _ => rfl,
    fun _ => rfl, .refl _ _⟩

/-- Settles O17: no Codec operation decides by the gate, so the runs differ in what shows it only. -/
theorem codecDoesNotReadTheGate : Obligations.CodecDoesNotReadTheGate := by
  intro i s s' t hi h ht
  have runs := (runsAlike_tickRules sameButGate_alike).toRules.of_codec Known.ungated hi
  rw [exec_eq_operate] at ht ⊢
  exact operate_alike sameButGate_alike runs rfl h
    (agree_of_sameButGate (sameButGate_alike.accept h)) ht

end Sys2Proof.Machine
end

section
/-! Judgements about one run, and the first of them: time passes tick by tick until the end, the reset
input or a wait that never ends (00_scope.md R11; 70_reset_and_hazards.md R240). -/

namespace Sys2Proof.Machine

/-! ### Judgements about one run -/

/-- The machine with the requests `h` to come. -/
def State.onHost (s : State) (h : List HostReq) : State := { s with io := { s.io with host := h } }

/-- A write of registers that shows neither on the pins nor to the host, and does not look at the host's
requests. -/
structure RegisterWrite (f : State → State) : Prop where
  only : ∀ s, f s = { s with
    msg := (f s).msg, work := (f s).work, seq := (f s).seq, owed := (f s).owed,
    hswait := (f s).hswait, tS := (f s).tS, t0 := (f s).t0, shreg := (f s).shreg }
  host : ∀ s h, f (s.onHost h) = (f s).onHost h

/-- A property of pieces of pseudocode that composes and holds of every such write. -/
structure OneRun (P : (α : Type) → Engine α → Prop) : Prop where
  pure : ∀ {α : Type} (a : α), P α (pure a)
  bind : ∀ {α β : Type} {x : Engine α} {f : α → Engine β}, P α x → (∀ a, P β (f a)) → P β (x >>= f)
  reads : ∀ {β : Type} {f : State → Engine β},
    (∀ s h, f s = f (s.onHost h)) → (∀ s, P β (f s)) → P β (get >>= f)
  raise : ∀ {α : Type} (code : ErrCode) (field : ErrField) (index : Byte),
    (field ≠ .data → index = 0) → P α (raise code field index)
  modify : ∀ {f : State → State}, RegisterWrite f → P Unit (modify f)

theorem registerWrite_setSeqBit (n : Nat) : RegisterWrite fun s =>
    if s.seq.state = .idle then s else { s with seq := { s.seq with bit := n } } where
  only s := by split <;> rfl
  host s h := by
    change (if s.seq.state = .idle then _ else _) = _
    split <;> rfl

/-- Two machines with other requests to come agree in everything a piece decides by. -/
theorem agree_onHost (k : Known) (s : State) (h : List HostReq) : k.Agree s (s.onHost h) :=
  ⟨rfl, rfl, rfl, rfl, rfl, fun _ => rfl, fun _ => rfl, fun _ => rfl, fun _ => rfl, fun _ => rfl,
    fun _ => rfl, .refl _ _⟩

/-- Such a property is a judgement that asks for no knowledge. -/
theorem OneRun.toWrites {P : (α : Type) → Engine α → Prop} (h : OneRun P) :
    Writes fun _ _ α m => P α m where
  pure _ a := h.pure a
  bind := h.bind
  reads hread hf := h.reads (fun s r => hread s _ (agree_onHost _ s r)) hf
  getLen _ hf := h.reads (fun _ _ => rfl) fun _ => hf _
  forget hx _ _ := hx
  raise _ _ := h.raise
  tS _ := h.modify ⟨fun _ => rfl, fun _ _ => rfl⟩
  t0 _ _ := h.modify ⟨fun _ => rfl, fun _ _ => rfl⟩
  shreg _ _ := h.modify ⟨fun _ => rfl, fun _ _ => rfl⟩
  shiftIn _ _ _ := h.modify ⟨fun _ => rfl, fun _ _ => rfl⟩
  seqBit _ n := h.modify (registerWrite_setSeqBit n)
  seq _ _ := h.modify ⟨fun _ => rfl, fun _ _ => rfl⟩
  seqData _ _ := h.modify ⟨fun _ => rfl, fun _ _ => rfl⟩
  work _ _ _ _ _ := h.modify ⟨fun _ => rfl, fun _ _ => rfl⟩
  latch _ _ _ _ := h.modify ⟨fun _ => rfl, fun _ _ => rfl⟩
  clearOwed _ := h.modify ⟨fun _ => rfl, fun _ _ => rfl⟩
  clearHswait _ := h.modify ⟨fun _ => rfl, fun _ _ => rfl⟩
  setHswait _ := h.modify ⟨fun _ => rfl, fun _ _ => rfl⟩
  commit _ _ _ _ := h.modify ⟨fun _ => rfl, fun _ _ => rfl⟩

/-- A property of one run that every rule keeps holds of every operation but the writes of the gate. -/
theorem Rules.pseudocode_of_oneRun {P : (α : Type) → Engine α → Prop}
    (h : Rules fun _ _ α m => P α m) {i : Instr} (henable : i ≠ .enable) (hdisable : i ≠ .disable) :
    P (Bool × Half) (pseudocode i) := by
  obtain ⟨-, run⟩ := h.of_pseudocode (k := Known.visible) rfl rfl henable hdisable
  exact run

/-! ### How time passes -/

/-- The result registers. -/
def State.report (s : State) : Bool × Bool × Half × Err := (s.resValid, s.resOk, s.result, s.err)

/-- From `s` to `t` an operation in progress took the ticks of `w`, as `Spent` says; a host that does not
wait made one request a tick, and no result was written. -/
structure Lapse (s t : State) (w : List Level) : Prop extends Spent s t w where
  host : .wait ∉ s.io.host.take w.length → t.io.host = s.io.host.drop w.length
  report : t.report = s.report

theorem Lapse.refl (s : State) : Lapse s s [] :=
  { Spent.refl s with host := fun _ => rfl, report := rfl }

theorem Lapse.of_registerWrite {f : State → State} (hf : RegisterWrite f) (s : State) :
    Lapse s (f s) [] :=
  { Spent.of_io (by rw [hf.only]) (by rw [hf.only]) (by rw [hf.only]) (by rw [hf.only]) with
    host := fun _ => by rw [hf.only]; rfl
    report := by rw [hf.only]; rfl }

theorem mem_take_add_left {α : Type} {x : α} {l : List α} {m n : Nat} (h : x ∈ l.take m) :
    x ∈ l.take (m + n) := (List.take_prefix_take_left (Nat.le_add_right m n)).subset h

theorem mem_take_add_right {α : Type} {x : α} {l : List α} {m n : Nat} (h : x ∈ (l.drop m).take n) :
    x ∈ l.take (m + n) := by
  rw [List.take_add]
  exact List.mem_append_right _ h

theorem Lapse.trans {s t u : State} {w w' : List Level} (h : Lapse s t w) (h' : Lapse t u w') :
    Lapse s u (w ++ w') :=
  { h.toSpent.trans h'.toSpent with
    host := by
      intro hw
      rw [List.length_append] at hw ⊢
      have first := h.host fun hm => hw (mem_take_add_left hm)
      rw [h'.host fun hm => hw (mem_take_add_right (first ▸ hm)), first, List.drop_drop]
    report := h'.report.trans h.report }

theorem Lapse.pass {s : State} (hb : s.busy = true) : Lapse s s.pass [s.txd] :=
  { pass_spent hb with
    host := by
      intro hw
      rw [s.pass_of_busy hb]
      cases hh : s.io.host with
      | nil => rfl
      | cons r h =>
        cases r with
        | wait => simp [hh] at hw
        | idle | read _ _ | write _ _ _ | reset => rfl
    report := by rw [s.pass_of_busy hb]; rfl }

/-- The pins of the later state begin with as many records as ticks lie between. -/
theorem Spent.drop_pins {s t : State} {w : List Level} (h : Spent s t w) :
    t.io.pins.drop w.length = s.io.pins := by
  rw [h.pins]
  exact List.drop_left' (by simp)

theorem Spent.pins_length {s t : State} {w : List Level} (h : Spent s t w) :
    t.io.pins.length = s.io.pins.length + w.length := by
  rw [h.pins]
  simp [Nat.add_comm]

/-- How a piece of pseudocode can end: after a lapse of time, or in the tick of a reset that comes after
one (70_reset_and_hazards.md R240). -/
def Lapses (α : Type) (m : Engine α) : Prop := ∀ s : State, s.busy = true →
  (∀ a t, m s = .ok a t → ∃ w, Lapse s t w) ∧
  (∀ e t, m s = .error e t → e ≠ .reset → ∃ w, Lapse s t w) ∧
  ∀ t, m s = .error .reset t → ∃ w u, Lapse s u w ∧ u.resetNow = true ∧ t = u.applyReset

theorem lapses_oneRun : OneRun Lapses where
  pure a s _ := by
    refine ⟨fun b t h => ?_, fun e t h => (by cases h), fun t h => (by cases h)⟩
    cases h
    exact ⟨[], .refl s⟩
  bind := by
    intro α β x f hx hf s hb
    obtain ⟨hok, herror, hreset⟩ := hx s hb
    cases hs : x s with
    | ok a t =>
      obtain ⟨w, hw⟩ := hok a t hs
      obtain ⟨gok, gerror, greset⟩ := hf a t (hw.busy.trans hb)
      rw [engine_bind_ok hs]
      refine ⟨fun b u h => ?_, fun e u h he => ?_, fun u h => ?_⟩
      · obtain ⟨w', hw'⟩ := gok b u h
        exact ⟨_, hw.trans hw'⟩
      · obtain ⟨w', hw'⟩ := gerror e u h he
        exact ⟨_, hw.trans hw'⟩
      · obtain ⟨w', v, hw', hr, hv⟩ := greset u h
        exact ⟨_, v, hw.trans hw', hr, hv⟩
    | error e t =>
      rw [engine_bind_error hs]
      refine ⟨fun b u h => (by cases h), fun e' u h he => ?_, fun u h => ?_⟩
      · cases h
        exact herror e t hs he
      · cases h
        exact hreset t hs
  reads _ hf s hb := hf s s hb
  raise code field index _ s hb := by
    refine ⟨fun b t h => (by cases h), fun e t h _ => ?_, fun t h => (by cases h)⟩
    cases h
    exact ⟨[], .refl s⟩
  modify hf s hb := by
    refine ⟨fun b t h => ?_, fun e t h => (by cases h), fun t h => (by cases h)⟩
    cases h
    exact ⟨[], .of_registerWrite hf s⟩

theorem lapses_tickRules : TickRules fun _ _ α m => Lapses α m :=
  { lapses_oneRun.toWrites with
    of_elapse := by
      intro _ s hb
      cases hr : s.resetNow with
      | true =>
        rw [elapse_of_reset s hr]
        refine ⟨fun a t h => (by cases h), fun e t h he => ?_, fun t h => ?_⟩
        · cases h
          exact absurd rfl he
        · cases h
          exact ⟨[], s, .refl s, hr, rfl⟩
      | false =>
        rw [elapse_of_not_reset s hr]
        refine ⟨fun a t h => ?_, fun e t h => (by cases h), fun t h => (by cases h)⟩
        cases h
        exact ⟨_, .pass hb⟩
    of_hang := by
      intro α _ _ s hb
      refine ⟨fun b t h => (by cases h), fun e t h _ => ?_, fun t h => (by cases h)⟩
      cases h
      exact ⟨[], .refl s⟩
    of_txd := by
      intro _ l s hb
      refine ⟨fun b t h => ?_, fun e t h => (by cases h), fun t h => (by cases h)⟩
      cases h
      exact ⟨[], { Spent.of_io rfl rfl rfl rfl with host := fun _ => rfl, report := rfl }⟩ }

/-- How the pseudocode of an operation can end. -/
theorem pseudocode_lapses {i : Instr} (henable : i ≠ .enable) (hdisable : i ≠ .disable) :
    Lapses (Bool × Half) (pseudocode i) :=
  lapses_tickRules.toRules.pseudocode_of_oneRun henable hdisable

/-! ### Without the reset input -/

theorem State.NoReset.of_not_mem {s : State} (h : .reset ∉ s.io.host) (n : Nat) : s.NoReset n :=
  fun hm => h (List.mem_of_mem_take hm)

/-- A machine whose reset input is asserted is no later state of one that sees no reset. -/
theorem Spent.not_resetNow {s u : State} {w : List Level} (h : Spent s u w)
    (hn : s.NoReset (w.length + 1)) : u.resetNow = false := (h.quiet 1 hn).now

/-- Without the reset input no piece ends by it. -/
theorem Lapses.not_reset {α : Type} {m : Engine α} (hm : Lapses α m) {s t : State} (hb : s.busy = true)
    (h : .reset ∉ s.io.host) : m s ≠ .error .reset t := by
  intro ht
  obtain ⟨-, -, hreset⟩ := hm s hb
  obtain ⟨w, u, hw, hr, -⟩ := hreset t ht
  rw [hw.not_resetNow (.of_not_mem h _)] at hr
  cases hr

end Sys2Proof.Machine
end

section
/-! The reset input in the middle of an operation (70_reset_and_hazards.md R240; log 7): the run up to it
is the run of a host that makes no further request. -/

namespace Sys2Proof.Machine

@[simp] theorem State.onHost_busy (s : State) (h : List HostReq) : (s.onHost h).busy = s.busy := rfl
@[simp] theorem State.onHost_host (s : State) (h : List HostReq) : (s.onHost h).io.host = h := rfl

/-- The state in which a piece ends, however it ends. -/
def endOf {α : Type} : EStateM.Result Stop State α → State
  | .ok _ t => t
  | .error _ t => t

/-- The same end with another state. -/
def onEnd {α : Type} (f : State → State) : EStateM.Result Stop State α → EStateM.Result Stop State α
  | .ok a t => .ok a (f t)
  | .error e t => .error e (f t)

/-- The machine whose host, after the requests it has, resets the block and then makes the requests
`rest`. -/
def State.thenReset (rest : List HostReq) (s : State) : State :=
  s.onHost (s.io.host ++ .reset :: rest)

/-- A host that neither waits nor resets. -/
def State.Plain (s : State) : Prop := .reset ∉ s.io.host ∧ .wait ∉ s.io.host

/-- A piece that takes no more ticks than the host of `s` has requests runs on before a reset as it runs
without; one that takes more ends by the reset, in a state `u` that the run without it passed through. -/
def ResetCuts (α : Type) (m : Engine α) : Prop := ∀ (s : State) (rest : List HostReq),
  s.busy = true → s.Plain → ∃ w, Lapse s (endOf (m s)) w ∧
    (w.length ≤ s.io.host.length → m (s.thenReset rest) = onEnd (State.thenReset rest) (m s)) ∧
    (s.io.host.length < w.length → ∃ u w₁ w₂, Lapse s u w₁ ∧ w₁.length = s.io.host.length ∧
      Lapse u (endOf (m s)) w₂ ∧ m (s.thenReset rest) = .error .reset (u.thenReset rest).applyReset)

theorem Lapse.plain {s t : State} {w : List Level} (h : Lapse s t w) (hs : s.Plain) :
    t.io.host = s.io.host.drop w.length ∧ t.Plain := by
  obtain ⟨noReset, noWait⟩ := hs
  have host := h.host fun hm => noWait (List.mem_of_mem_take hm)
  exact ⟨host, fun hm => noReset (List.mem_of_mem_drop (host ▸ hm)),
    fun hm => noWait (List.mem_of_mem_drop (host ▸ hm))⟩

/-- A piece without a tick runs on. -/
theorem resetCuts_of_noTick {α : Type} {m : Engine α} (h : ∀ s, Lapse s (endOf (m s)) [])
    (hrun : ∀ s rest, m (s.thenReset rest) = onEnd (State.thenReset rest) (m s)) :
    ResetCuts α m := fun s rest _ _ =>
  ⟨[], h s, fun _ => hrun s rest, fun hlt => absurd hlt (Nat.not_lt_zero _)⟩

theorem resetCuts_bind {α β : Type} {x : Engine α} {f : α → Engine β} (hx : ResetCuts α x)
    (hf : ∀ a, ResetCuts β (f a)) : ResetCuts β (x >>= f) := by
  intro s rest hb hs
  obtain ⟨w, hw, hbefore, hafter⟩ := hx s rest hb hs
  cases hr : x s with
  | error e t =>
    rw [hr] at hw hbefore hafter
    refine ⟨w, by rw [engine_bind_error hr]; exact hw, fun hle => ?_, fun hlt => ?_⟩
    · rw [engine_bind_error hr, engine_bind_error (hbefore hle)]
      rfl
    · obtain ⟨u, w₁, w₂, h₁, hlen, h₂, hcut⟩ := hafter hlt
      exact ⟨u, w₁, w₂, h₁, hlen, by rw [engine_bind_error hr]; exact h₂, engine_bind_error hcut⟩
  | ok a t =>
    rw [hr] at hw hbefore hafter
    obtain ⟨host, plain⟩ : t.io.host = s.io.host.drop w.length ∧ t.Plain := hw.plain hs
    obtain ⟨w', hw', gbefore, gafter⟩ := hf a t rest (hw.busy.trans hb) plain
    have left : t.io.host.length = s.io.host.length - w.length := by rw [host, List.length_drop]
    rw [engine_bind_ok hr]
    refine ⟨w ++ w', hw.trans hw', fun hle => ?_, fun hlt => ?_⟩
    · rw [List.length_append] at hle
      rw [engine_bind_ok (hbefore (by omega)), gbefore (by omega)]
    · rw [List.length_append] at hlt
      by_cases first : s.io.host.length < w.length
      · obtain ⟨u, w₁, w₂, h₁, hlen, h₂, hcut⟩ := hafter first
        exact ⟨u, w₁, w₂ ++ w', h₁, hlen, h₂.trans hw', engine_bind_error hcut⟩
      · obtain ⟨u, w₁, w₂, h₁, hlen, h₂, hcut⟩ := gafter (by omega)
        refine ⟨u, w ++ w₁, w₂, hw.trans h₁, by rw [List.length_append]; omega, h₂, ?_⟩
        rw [engine_bind_ok (hbefore (by omega)), hcut]

theorem resetCuts_oneRun : OneRun ResetCuts where
  pure a := resetCuts_of_noTick .refl fun _ _ => rfl
  bind := resetCuts_bind
  reads hread hf s rest hb hs := by
    obtain ⟨w, run⟩ := hf s s rest hb hs
    rw [engine_bind_ok (engine_get s), engine_bind_ok (engine_get _), State.thenReset,
      ← hread s _]
    exact ⟨w, run⟩
  raise _ _ _ _ := resetCuts_of_noTick .refl fun _ _ => rfl
  modify {f} hf := resetCuts_of_noTick (Lapse.of_registerWrite hf) fun s rest => by
    have host : (f s).io.host = s.io.host := by rw [hf.only]
    change EStateM.Result.ok () (f (s.thenReset rest)) = .ok () ((f s).thenReset rest)
    rw [State.thenReset, hf.host, State.thenReset, host]

/-- While an operation runs, what the host will do later does not show in a tick. -/
theorem pass_thenReset {s : State} (hb : s.busy = true) {rest : List HostReq} (hs : s.io.host ≠ []) :
    (s.thenReset rest).resetNow = s.resetNow ∧
      (.wait ∉ s.io.host → (s.thenReset rest).pass = s.pass.thenReset rest) := by
  obtain ⟨r, h, host⟩ := List.exists_cons_of_ne_nil hs
  have head : (s.thenReset rest).io.host.head? = s.io.host.head? := by
    simp [State.thenReset, host]
  refine ⟨by rw [State.resetNow, State.resetNow, head], fun noWait => ?_⟩
  have reads : (s.thenReset rest).serve.io.reads = s.serve.io.reads := by
    rw [State.serve_io_reads, State.serve_io_reads, head]
    rfl
  have next : hostAfter true (s.thenReset rest).io.host =
      hostAfter true s.io.host ++ .reset :: rest := by
    rw [State.thenReset, State.onHost_host, host]
    cases r with
    | wait => simp [host] at noWait
    | idle | read _ _ | write _ _ _ | reset => rfl
  rw [(s.thenReset rest).pass_of_busy hb, s.pass_of_busy hb, reads, next]
  rfl

theorem resetCuts_tickRules : TickRules fun _ _ α m => ResetCuts α m :=
  { resetCuts_oneRun.toWrites with
    of_elapse := by
      intro _ s rest hb hs
      have plain := hs
      obtain ⟨noReset, noWait⟩ := hs
      have quiet : s.resetNow = false := (State.NoReset.of_not_mem noReset 1).now
      have run := elapse_of_not_reset s quiet
      rw [run]
      refine ⟨[s.txd], .pass hb, fun hle => ?_, fun hlt => ?_⟩
      · obtain ⟨resetNow, pass⟩ := pass_thenReset hb (rest := rest) (List.ne_nil_of_length_pos hle)
        rw [elapse_of_not_reset _ (resetNow.trans quiet), pass noWait]
        rfl
      · have host : s.io.host = [] := List.length_eq_zero_iff.mp (Nat.lt_one_iff.mp hlt)
        refine ⟨s, [], [s.txd], .refl s, by simp [host], .pass hb, elapse_of_reset _ ?_⟩
        simp [State.resetNow, State.thenReset, host]
    of_hang := fun _ _ => resetCuts_of_noTick .refl fun _ _ => rfl
    of_txd := fun _ l => resetCuts_of_noTick
      (fun s => { Spent.of_io rfl rfl rfl rfl with host := fun _ => rfl, report := rfl }) fun _ _ => rfl }

/-- The end of an operation's pseudocode has the inputs and outputs of the operation's end. -/
theorem io_of_operate {body : Engine (Bool × Half)} {s t : State} (h : operate body s = .next t) :
    t.io = (endOf (body s.accept)).io := by
  obtain ⟨r, u, hb, rfl⟩ | ⟨e, u, hb, rfl⟩ | hb | hb := operate_cases s body h
  all_goals rw [hb]; rfl

/-- A reset in tick `k` ends an operation that would have run on. -/
theorem exec_cut_by_reset {i : Instr} {s u : State} {k n : Nat} (hn : s.NoReset k)
    (hw : .wait ∉ s.io.host.take k) (hreset : s.io.host[k]? = some .reset)
    (hrun : exec i (s.onHost (s.io.host.take k)) = .next u)
    (hlen : u.io.pins.length = s.io.pins.length + n) (hk : k < n) :
    ∃ t, exec i s = .next t ∧ t.params = s.params ∧ t.AtReset ∧
      t.io.now = s.io.now + .ofNat 64 (k + 1) ∧ t.io.rx = s.io.rx.after (k + 1) ∧
      t.io.host = s.io.host.drop (k + 1) ∧
      t.io.pins = ⟨.inactive, false⟩ :: u.io.pins.drop (n - k) := by
  have noGate : i ≠ .enable ∧ i ≠ .disable := by
    constructor
    · rintro rfl
      rw [exec_enable_eq] at hrun
      cases hrun
      change s.io.pins.length = _ at hlen
      omega
    · rintro rfl
      rw [exec_disable_eq] at hrun
      cases hrun
      change s.io.pins.length = _ at hlen
      omega
  have cuts : ResetCuts (Bool × Half) (pseudocode i) :=
    resetCuts_tickRules.toRules.pseudocode_of_oneRun noGate.1 noGate.2
  have inside : k < s.io.host.length := (List.getElem?_eq_some_iff.mp hreset).1
  have host : s.io.host = s.io.host.take k ++ .reset :: s.io.host.drop (k + 1) := by
    have at_k : s.io.host[k] = .reset := (List.getElem?_eq_some_iff.mp hreset).2
    conv_lhs => rw [← List.take_append_drop k s.io.host, List.drop_eq_getElem_cons inside, at_k]
  have taken : (s.io.host.take k).length = k := List.length_take_of_le inside.le
  have full : (s.onHost (s.io.host.take k)).accept.thenReset (s.io.host.drop (k + 1)) = s.accept := by
    change s.accept.onHost (s.io.host.take k ++ .reset :: s.io.host.drop (k + 1)) = s.accept
    rw [← host]
    rfl
  obtain ⟨w, hlapse, -, hcut⟩ := cuts (s.onHost (s.io.host.take k)).accept (s.io.host.drop (k + 1)) rfl
    ⟨hn, hw⟩
  rw [exec_eq_operate] at hrun
  have io := io_of_operate hrun
  have ticks : w.length = n := by
    have := hlapse.pins_length
    rw [← io, hlen] at this
    change s.io.pins.length + n = s.io.pins.length + w.length at this
    omega
  have cutLength : (s.onHost (s.io.host.take k)).accept.io.host.length = k := taken
  obtain ⟨v, w₁, w₂, h₁, hlen₁, h₂, hv⟩ := hcut (by rw [cutLength, ticks]; exact hk)
  rw [cutLength] at hlen₁
  rw [full] at hv
  have later : w₂.length = n - k := by
    have p₁ := h₁.pins_length
    have p₂ := h₂.pins_length
    have p := hlapse.pins_length
    omega
  have emptied : v.io.host = [] := by
    rw [h₁.host fun hm => hw (List.mem_of_mem_take hm), hlen₁]
    exact List.drop_eq_nil_of_le taken.le
  refine ⟨_, (exec_eq_operate i s).trans (operate_of_reset hv), h₁.params,
    State.applyReset_atReset _, ?_, ?_, ?_, ?_⟩
  · rw [State.applyReset_io, Io.pass_now]
    change v.io.now + 1 = _
    rw [h₁.now, hlen₁, BitVec.add_assoc, BitVec.ofNat_add]
    rfl
  · rw [State.applyReset_io, Io.pass_rx]
    change v.io.rx.next = _
    rw [h₁.rx, hlen₁]
    exact Line.after_add k 1 s.io.rx
  · rw [State.applyReset_io, Io.pass_host, State.thenReset, State.onHost_host, emptied]
    rfl
  · rw [State.applyReset_io, Io.pass_pins, io, ← later, h₂.drop_pins]
    rfl

/-- Every transmission without the reset input takes the ticks of its waveform. -/
theorem completes_of_transmitWave {i : Instr} {s : State} {w : List Level} (hwf : s.params.wf = true)
    (hi : transmitWave s.params i = some w) (hn : s.NoReset w.length) :
    ∃ t, Completes i s t w true 0 ∧ t.txd = .inactive := by
  have ends : ∀ {body : Engine Unit}, exec i s = operate (transmit body) s →
      (∃ u, body s.accept = .ok () u ∧ Spent s.accept u w ∧ u.txd = .inactive ∧ u.evt = none) →
      ∃ t, Completes i s t w true 0 ∧ t.txd = .inactive := by
    rintro body hexec ⟨u, hu, hst, txd, quiet⟩
    exact ⟨_, completes_of_ok hexec (engine_bind_ok hu) hst quiet, txd⟩
  cases i with
  | txstart =>
    cases hi
    rw [startWave_length hwf] at hn
    obtain ⟨u, hu, hst, hf⟩ := txStart_spec (s := s.accept) hwf rfl hn
    exact ends rfl ⟨u, hu, hst, by rw [hf], by rw [hf]⟩
  | txbit b =>
    cases hi
    rw [bitWave_length hwf] at hn
    obtain ⟨u, hu, hst, hf⟩ := txBit_spec b (s := s.accept) hwf rfl hn
    exact ends rfl ⟨u, hu, hst, by rw [hf], by rw [hf]⟩
  | txbits v n =>
    rw [transmitWave] at hi
    split at hi
    · rename_i legal
      cases hi
      rw [bitsWave_length hwf, bitsOf_length] at hn
      obtain ⟨pos, -⟩ := (legalCount_iff n).mp legal
      obtain ⟨u, hu, hst, hf, -⟩ := txBits_spec v n.toNat pos (s := s.accept) hwf rfl hn
      exact ends (exec_txbits_of_legal legal v s) ⟨u, hu, hst, by rw [hf], by rw [hf]⟩
    · cases hi
  | txack a =>
    cases hi
    rw [bitWave_length hwf] at hn
    obtain ⟨u, hu, hst, hf⟩ := txBit_spec a.toBit (s := s.accept) hwf rfl hn
    exact ends (exec_txack_eq_txbit a s) ⟨u, hu, hst, by rw [hf], by rw [hf]⟩
  | enable | disable | isen | busfree | rxstart | rxbit | rxbits _ | rxack | readmsg | writemsg =>
    cases hi

/-- Settles O3: the second clause is the cut itself, and a transmission runs for its waveform. -/
theorem resetCutsTransmission : Obligations.ResetCutsTransmission := by
  refine ⟨fun i s w k hwf hi hk hbefore hreset => ?_, fun i s u k n _ hn hw hreset hrun hlen hk =>
    exec_cut_by_reset hn hw hreset hrun hlen hk⟩
  have free : ∀ r, r ∈ s.io.host.take k → r ≠ .reset ∧ r ≠ .wait := by
    intro r hr
    obtain ⟨j, hj, rfl⟩ := List.getElem_of_mem hr
    rw [List.length_take] at hj
    have := hbefore j (by omega)
    rw [List.getElem?_eq_getElem (by omega)] at this
    rw [List.getElem_take]
    exact ⟨fun e => this.1 (congrArg some e), fun e => this.2 (congrArg some e)⟩
  have noReset : s.NoReset k := fun hm => (free _ hm).1 rfl
  have noWait : .wait ∉ s.io.host.take k := fun hm => (free _ hm).2 rfl
  obtain ⟨u, completes, -⟩ := completes_of_transmitWave (s := s.onHost (s.io.host.take k)) hwf hi
    (.of_not_mem (s := s.onHost (s.io.host.take k)) noReset _)
  have pins : u.io.pins = (w.map fun l => Pins.mk l s.en).reverse ++ s.io.pins := completes.ran.pins
  obtain ⟨t, ht, params, atReset, now, -, -, hpins⟩ := exec_cut_by_reset (n := w.length) noReset noWait
    hreset completes.answers (by rw [pins]; simp [Nat.add_comm]) hk
  refine ⟨t, ht, params, atReset, now, ?_⟩
  rw [hpins, pins, List.drop_append_of_le_length (by simp), List.map_take, List.reverse_take,
    List.length_map]

end Sys2Proof.Machine
end

section
/-! Time over a whole operation and over a step, and that a step depends on no later level of the line
(00_scope.md R11; 10_state.md R30). -/

namespace Sys2Proof.Machine

/-! ### Time -/

/-- From `s` to `t` `n` ticks passed, in each of which the inputs moved on and the pins were recorded. -/
structure TimePasses (s t : State) (n : Nat) : Prop where
  params : t.params = s.params
  now : t.io.now = s.io.now + .ofNat 64 n
  rx : t.io.rx = s.io.rx.after n
  pins : ∃ ps, ps.length = n ∧ t.io.pins = ps ++ s.io.pins
  host : .wait ∉ s.io.host → t.io.host = s.io.host.drop n

theorem TimePasses.of_io {s t : State} (hp : t.params = s.params) (hi : t.io = s.io) :
    TimePasses s t 0 where
  params := hp
  now := by simp [hi]
  rx := by simp [hi]
  pins := ⟨[], rfl, by rw [hi]; rfl⟩
  host _ := by rw [hi]; rfl

theorem TimePasses.trans {s t u : State} {m n : Nat} (h : TimePasses s t m) (h' : TimePasses t u n) :
    TimePasses s u (m + n) where
  params := h'.params.trans h.params
  now := by rw [h'.now, h.now, BitVec.ofNat_add, BitVec.add_assoc]
  rx := by rw [h'.rx, h.rx, Line.after_add]
  pins := by
    obtain ⟨ps, hps, hpins⟩ := h.pins
    obtain ⟨ps', hps', hpins'⟩ := h'.pins
    exact ⟨ps' ++ ps, by simp [hps, hps', Nat.add_comm], by rw [hpins', hpins, List.append_assoc]⟩
  host hw := by
    have first := h.host hw
    rw [h'.host fun hm => hw (List.mem_of_mem_drop (first ▸ hm)), first, List.drop_drop]

theorem TimePasses.pins_length {s t : State} {n : Nat} (h : TimePasses s t n) :
    t.io.pins.length = s.io.pins.length + n := by
  obtain ⟨ps, rfl, hpins⟩ := h.pins
  rw [hpins, List.length_append, Nat.add_comm]

/-- The pins say how many ticks passed. -/
theorem TimePasses.ticks_eq {s t : State} {n m : Nat} (h : TimePasses s t n)
    (hm : t.io.pins.length = s.io.pins.length + m) : n = m := by
  have := h.pins_length
  omega

theorem Lapse.timePasses {s t : State} {w : List Level} (h : Lapse s t w) :
    TimePasses s t w.length where
  params := h.params
  now := h.now
  rx := h.rx
  pins := ⟨_, by simp, h.pins⟩
  host hw := h.host fun hm => hw (List.mem_of_mem_take hm)

/-- A host that does not wait makes one request a tick. -/
theorem hostAfter_of_not_wait (b : Bool) {h : List HostReq} (hw : .wait ∉ h) :
    hostAfter b h = h.drop 1 := by
  cases h with
  | nil => rfl
  | cons r h =>
    cases r with
    | wait => simp at hw
    | idle | read _ _ | write _ _ _ | reset => rfl

theorem timePasses_pass (s : State) : TimePasses s s.pass 1 where
  params := s.pass_params
  now := by rw [s.pass_io, s.serve_eq]; rfl
  rx := by rw [s.pass_io, s.serve_eq]; rfl
  pins := ⟨[⟨s.txd, s.en⟩], rfl, by rw [s.pass_io, s.serve_eq]; rfl⟩
  host hw := by
    rw [s.pass_io, s.serve_eq]
    exact hostAfter_of_not_wait _ hw

theorem timePasses_applyReset (s : State) : TimePasses s s.applyReset 1 where
  params := s.applyReset_params
  now := rfl
  rx := rfl
  pins := ⟨[⟨.inactive, false⟩], rfl, rfl⟩
  host hw := hostAfter_of_not_wait _ hw

/-- How an operation's pseudocode ends: at some time, in a reset only if one came by then, and with `BUSY`
still 1 if by a wait that never ends. -/
theorem pseudocode_ends (i : Instr) {s : State} (hb : s.busy = true) :
    ∃ n, TimePasses s (endOf (pseudocode i s)) n ∧
      (∀ t, pseudocode i s = .error .reset t → ¬ s.NoReset n) ∧
      ∀ t, pseudocode i s = .error .hung t → t.busy = true := by
  by_cases gate : i = .enable ∨ i = .disable
  · obtain rfl | rfl := gate
    all_goals exact ⟨0, .of_io rfl rfl, fun t h => (by cases h), fun t h => (by cases h)⟩
  · obtain ⟨henable, hdisable⟩ := not_or.mp gate
    obtain ⟨hok, herror, hreset⟩ := pseudocode_lapses henable hdisable s hb
    cases hr : pseudocode i s with
    | ok a t =>
      obtain ⟨w, hw⟩ := hok a t hr
      exact ⟨_, hw.timePasses, fun t h => (by cases h), fun t h => (by cases h)⟩
    | error e t =>
      by_cases he : e = .reset
      · subst he
        obtain ⟨w, u, hw, hu, rfl⟩ := hreset t hr
        refine ⟨w.length + 1, hw.timePasses.trans (timePasses_applyReset u), fun _ _ hn => ?_,
          fun t h => (by cases h)⟩
        rw [hw.not_resetNow hn] at hu
        cases hu
      · obtain ⟨w, hw⟩ := herror e t hr he
        refine ⟨_, hw.timePasses, fun t h => ?_, fun t h => ?_⟩
        · cases h
          exact absurd rfl he
        · cases h
          exact hw.busy.trans hb

/-- An operation that a reset ends, ends in the state after a reset. -/
theorem reset_of_pseudocode {i : Instr} {s t : State} (h : pseudocode i s.accept = .error .reset t) :
    ∃ u : State, t = u.applyReset := by
  have henable : i ≠ .enable := by
    rintro rfl
    cases h
  have hdisable : i ≠ .disable := by
    rintro rfl
    cases h
  obtain ⟨-, -, hreset⟩ := pseudocode_lapses henable hdisable s.accept rfl
  obtain ⟨-, u, -, -, hu⟩ := hreset t h
  exact ⟨u, hu⟩

/-- An operation that never ends has let time pass and written no result. -/
theorem lapse_of_hung {i : Instr} {s t : State} (h : pseudocode i s.accept = .error .hung t) :
    ∃ w, Lapse s.accept t w := by
  have henable : i ≠ .enable := by
    rintro rfl
    cases h
  have hdisable : i ≠ .disable := by
    rintro rfl
    cases h
  obtain ⟨-, herror, -⟩ := pseudocode_lapses henable hdisable s.accept rfl
  exact herror _ t h nofun

/-! ### Later levels of the line -/

theorem causal_transmit {body : Engine Unit} (h : Causal body) : Causal (transmit body) :=
  causal_bind h fun _ => causal_pure _

/-- Every operation depends only on the levels of the ticks it takes. -/
theorem causal_pseudocode (i : Instr) : Causal (pseudocode i) := by
  have illegal : Causal illegalCommand := causal_raise _ _ _
  cases i with
  | enable | disable =>
    exact causal_bind (causal_modify (fun _ _ => rfl) (fun _ => rfl) fun _ => rfl) fun _ =>
      causal_pure _
  | isen => exact causal_get (fun _ _ => rfl) fun _ => causal_pure _
  | busfree => exact causal_bind causal_busFree fun _ => causal_pure _
  | rxstart => exact causal_bind causal_rxStart fun _ => causal_ite (causal_pure _) (causal_raise _ _ _)
  | rxbit => exact causal_bind (causal_rxBit _) fun _ => causal_pure _
  | rxbits n => exact causal_ite (causal_bind (causal_rxBits _ _) fun _ => causal_pure _) illegal
  | rxack => exact causal_bind (causal_rxAck _) fun _ => causal_pure _
  | txstart => exact causal_transmit causal_txStart
  | txbit b => exact causal_transmit (causal_txBit b)
  | txbits v n => exact causal_ite (causal_transmit (causal_txBits _ _)) illegal
  | txack a => exact causal_transmit (causal_txAck a)
  | readmsg => exact causal_readMsg
  | writemsg => exact causal_writeMsg

/-- An operation from its start tick to its end: time, and the levels it can depend on. -/
theorem exec_time (i : Instr) (s : State) : ∃ t n, exec i s = .next t ∧ TimePasses s t n ∧
    (t.busy = false → n < 2 ^ 64 → s.NoReset n → ∀ l : Line, Agrees n s l →
      exec i (s.onRx l) = .next (t.onRx (l.after n))) := by
  obtain ⟨t, ht⟩ := exec_ends i s
  obtain ⟨n, time, reset, hung⟩ := pseudocode_ends i (s := s.accept) rfl
  rw [exec_eq_operate] at ht
  have causal := causal_pseudocode i s.accept rfl
  have accepted : ∀ l, (s.onRx l).accept = s.accept.onRx l := fun _ => rfl
  obtain ⟨r, u, hu, rfl⟩ | ⟨e, u, hu, rfl⟩ | hu | hu := operate_cases s _ ht <;> rw [hu] at time
  · refine ⟨_, n, (exec_eq_operate i s).trans ht, ⟨time.params, time.now, time.rx, time.pins, time.host⟩,
      fun _ hlt _ l hl => ?_⟩
    obtain ⟨m, passed, run⟩ := causal.1 r u hu
    obtain rfl : n = m := time.ticks_eq passed.pins
    rw [exec_eq_operate]
    exact operate_of_ok (accepted l ▸ run hlt l hl)
  · refine ⟨_, n, (exec_eq_operate i s).trans ht, ⟨time.params, time.now, time.rx, time.pins, time.host⟩,
      fun _ hlt _ l hl => ?_⟩
    obtain ⟨m, passed, run⟩ := causal.2 e u hu
    obtain rfl : n = m := time.ticks_eq passed.pins
    rw [exec_eq_operate]
    exact operate_of_raised (accepted l ▸ run hlt l hl)
  · exact ⟨_, n, (exec_eq_operate i s).trans ht, ⟨time.params, time.now, time.rx, time.pins, time.host⟩,
      fun _ _ hn => absurd hn (reset t hu)⟩
  · refine ⟨_, n, (exec_eq_operate i s).trans ht, ⟨time.params, time.now, time.rx, time.pins, time.host⟩,
      fun hb => ?_⟩
    rw [hung t hu] at hb
    cases hb

/-! ### The step -/

/-- The operation a command word runs: an illegal word does what an illegal count does (30_encoding.md
R93). -/
def commanded (w : Word) : Instr :=
  match decode w with
  | .ok i => i
  | .error _ => .rxbits 0

/-- The tick of a command is no reset. -/
theorem State.resetNow_of_fetch {s : State} {w : Word} (h : s.fetch = some w) : s.resetNow = false := by
  apply State.resetNow_of_head
  intro hhead
  simp [State.fetch, hhead] at h

/-- A step that accepts a command runs an operation after that tick. -/
theorem step_of_fetch {s : State} {w : Word} (hwf : s.params.wf = true) (h : s.fetch = some w) :
    step s = exec (commanded w) s.pass := by
  have tick : s.tick = s.pass := by simp [State.tick, State.resetNow_of_fetch h]
  rw [step, if_pos hwf, h, tick, commanded]
  cases hd : decode w with
  | ok i => simp only [hd]
  | error e =>
    simp only [hd]
    rfl

/-- Any other step is one tick. -/
theorem step_of_no_fetch {s : State} (hwf : s.params.wf = true) (h : s.fetch = none) :
    step s = .next s.tick := by
  rw [step, if_pos hwf, h]

/-- Settles O7: a step is a tick and perhaps an operation, and each depends on no later level. -/
theorem stepAnswersAndTimeMovesOn : Obligations.StepAnswersAndTimeMovesOn := by
  intro s
  refine ⟨fun hwf => by rw [step, if_neg (by simp [hwf])], fun hwf => ?_⟩
  cases hf : s.fetch with
  | none =>
    have time : TimePasses s s.tick 1 := by
      rw [State.tick]
      split
      · exact timePasses_applyReset s
      · exact timePasses_pass s
    refine ⟨s.tick, 1, step_of_no_fetch hwf hf, le_rfl, time.params, time.now, time.rx, time.pins,
      time.host, fun _ _ hn l _ => ?_⟩
    have tick : ∀ l, (s.onRx l).tick = (s.onRx l).pass := fun l => by
      rw [State.tick, State.onRx_resetNow, hn.now]
      rfl
    have here : s.tick = s.pass := tick s.io.rx
    change step (s.onRx l) = .next (s.tick.onRx l.next)
    rw [step_of_no_fetch (s := s.onRx l) hwf hf, tick, State.onRx_pass, here]
  | some w =>
    obtain ⟨t, n, ht, time, causal⟩ := exec_time (commanded w) s.pass
    have whole := (timePasses_pass s).trans time
    refine ⟨t, 1 + n, (step_of_fetch hwf hf).trans ht, by omega, whole.params, whole.now, whole.rx,
      whole.pins, whole.host, fun hb hlt hn l hl => ?_⟩
    have idle : s.busy = false := by
      by_contra hbusy
      rw [State.fetch_of_busy (by simpa using hbusy)] at hf
      cases hf
    have quiet : s.pass.NoReset n := by
      rw [s.pass_of_idle idle]
      intro hm
      apply hn
      rw [List.take_add]
      refine List.mem_append_right _ ?_
      rwa [List.drop_one]
    have later : Agrees n s.pass l.next := fun j hj => by
      have level := hl (1 + j) (by omega)
      rw [← Line.after_add, State.rxAt, ← Line.after_add] at level
      rw [State.rxAt, (timePasses_pass s).rx]
      exact level
    change step (s.onRx l) = .next (t.onRx (l.after (1 + n)))
    rw [step_of_fetch (s := s.onRx l) hwf hf, State.onRx_pass, causal hb (by omega) quiet l.next later,
      ← Line.after_add]
    rfl

end Sys2Proof.Machine
end

section
/-! Which registers an operation leaves as they were (10_state.md R22, R28 to R30, R40). -/

namespace Sys2Proof.Machine

/-! ### What a run keeps while it is in progress -/

/-- What `f` reads of the machine is the same, and the operation still in progress. -/
def Kept {β : Type} (f : State → β) (s t : State) : Prop := s.busy = true → t.busy = true ∧ f t = f s

/-- A reset leaves no result. -/
def Cleared (_ t : State) : Prop := t.resValid = false

section
variable {β : Type} {f : State → β}

theorem kept_along : Along (Kept f) Cleared where
  refl _ hb := ⟨hb, rfl⟩
  trans _ _ _ h h' hb := by
    obtain ⟨hb', first⟩ := h hb
    obtain ⟨hb'', second⟩ := h' hb'
    exact ⟨hb'', second.trans first⟩
  reset _ _ _ _ h := h

/-- A tick and the Codec's registers are outside of what `f` reads. -/
theorem codecKept_kept (pass : ∀ s : State, s.busy = true → f s.pass = f s)
    (tS : ∀ s, f { s with tS := s.io.now } = f s) (t0 : ∀ s a, f { s with t0 := a } = f s)
    (shreg : ∀ s v, f { s with shreg := v } = f s)
    (seqBit : ∀ s n, f { s with seq := { s.seq with bit := n } } = f s) :
    CodecKept (Kept f) Cleared where
  toAlong := kept_along
  pass s hb := ⟨by rw [s.pass_busy, hb], pass s hb⟩
  applyReset _ := rfl
  tS s hb := ⟨hb, tS s⟩
  t0 s a hb := ⟨hb, t0 s a⟩
  shreg s v hb := ⟨hb, shreg s v⟩
  seqBit s n hb := ⟨hb, seqBit s n⟩

end

/-- The Message, the working Message and `OWED`. -/
def State.framer (s : State) : Message × Message × Bool := (s.msg, s.work, s.owed)

/-- WRITEMSG writes none of them. -/
theorem writeKept_framer : WriteKept (Kept State.framer) Cleared where
  toCodecKept := codecKept_kept (fun s hb => by rw [s.pass_of_busy hb]; rfl) (fun _ => rfl)
    (fun _ _ => rfl) (fun _ _ => rfl) fun _ _ => rfl
  txd _ _ hb := ⟨hb, rfl⟩
  hswait _ _ hb := ⟨hb, rfl⟩
  seq _ _ hb := ⟨hb, rfl⟩

/-- READMSG does not write `HSWAIT`. -/
theorem readKept_hswait : ReadKept (Kept State.hswait) Cleared where
  toCodecKept := codecKept_kept (fun s _ => s.pass_hswait) (fun _ => rfl) (fun _ _ => rfl)
    (fun _ _ => rfl) fun _ _ => rfl
  txd _ _ hb := ⟨hb, rfl⟩
  work _ _ hb := ⟨hb, rfl⟩
  owed _ _ hb := ⟨hb, rfl⟩
  seq _ _ hb := ⟨hb, rfl⟩

section
variable {R Q : State → State → Prop}

/-- An operation of the gate or of the Codec's receive side, or with an illegal count, keeps what the
Codec's ticks and registers keep. -/
theorem keeps_receive (hC : CodecKept R Q) {p : Params} {i : Instr}
    (gate : i = .enable ∨ i = .disable → ∀ s b, R s { s with en := b })
    (hi : transmitWave p i = none) (hread : i ≠ .readmsg) (hwrite : i ≠ .writemsg) :
    Keeps R Q (pseudocode i) := by
  have A := hC.toAlong
  have illegal : Keeps R Q illegalCommand := keeps_raise A _ _ _
  cases i with
  | enable => exact keeps_bind A (keeps_modify fun s => gate (.inl rfl) s _) fun _ => keeps_pure A _
  | disable => exact keeps_bind A (keeps_modify fun s => gate (.inr rfl) s _) fun _ => keeps_pure A _
  | isen => exact keeps_bind A (keeps_get A) fun _ => keeps_pure A _
  | busfree => exact keeps_bind A (keeps_busFree hC) fun _ => keeps_pure A _
  | rxstart =>
    exact keeps_bind A (keeps_rxStart hC) fun _ => keeps_ite (keeps_pure A _) (keeps_raise A _ _ _)
  | rxbit => exact keeps_bind A (keeps_rxBit hC _) fun _ => keeps_pure A _
  | rxbits n => exact keeps_ite (keeps_bind A (keeps_rxBits hC _ _) fun _ => keeps_pure A _) illegal
  | rxack => exact keeps_bind A (keeps_rxAck hC _) fun _ => keeps_pure A _
  | txbits v n =>
    have count : legalCount n = false := by
      rw [transmitWave] at hi
      split at hi
      · cases hi
      · rename_i illegalCount
        simpa using illegalCount
    rw [pseudocode, if_neg (by simp [count])]
    exact illegal
  | txstart | txbit _ | txack _ => cases hi
  | readmsg => exact absurd rfl hread
  | writemsg => exact absurd rfl hwrite

/-- An operation of the gate or of the Codec keeps what the Codec's registers, `TXD` and the gate keep. -/
theorem keeps_gate_codec (hC : CodecKept R Q) (txd : ∀ s l, R s { s with txd := l })
    {i : Instr} (gate : i = .enable ∨ i = .disable → ∀ s b, R s { s with en := b })
    (hread : i ≠ .readmsg) (hwrite : i ≠ .writemsg) :
    Keeps R Q (pseudocode i) := by
  have A := hC.toAlong
  have transmits : ∀ {body : Engine Unit}, Keeps R Q body → Keeps R Q (transmit body) := fun h =>
    keeps_bind A h fun _ => keeps_pure A _
  cases i with
  | txstart => exact transmits (keeps_txStart hC txd)
  | txbit b => exact transmits (keeps_txBit hC txd b)
  | txbits v n => exact keeps_ite (transmits (keeps_txBits hC txd v _)) (keeps_raise A _ _ _)
  | txack a => exact transmits (keeps_txAck hC txd a)
  | readmsg => exact absurd rfl hread
  | writemsg => exact absurd rfl hwrite
  | enable | disable | isen | busfree | rxstart | rxbit | rxbits _ | rxack =>
    exact keeps_receive hC (p := Params.ref) gate rfl nofun nofun

end

theorem pseudocode_keeps_framer {i : Instr} (hi : i ≠ .readmsg) :
    Keeps (Kept State.framer) Cleared (pseudocode i) := by
  by_cases hwrite : i = .writemsg
  · subst hwrite
    exact keeps_writeMsg writeKept_framer
  · exact keeps_gate_codec writeKept_framer.toCodecKept writeKept_framer.txd (fun _ _ _ hb => ⟨hb, rfl⟩)
      hi hwrite

theorem pseudocode_keeps_hswait {i : Instr} (hi : i ≠ .writemsg) :
    Keeps (Kept State.hswait) Cleared (pseudocode i) := by
  by_cases hread : i = .readmsg
  · subst hread
    exact keeps_readMsg readKept_hswait fun _ hb => ⟨hb, rfl⟩
  · exact keeps_gate_codec readKept_hswait.toCodecKept readKept_hswait.txd (fun _ _ _ hb => ⟨hb, rfl⟩)
      hread hi

/-! ### From start to end -/

/-- What `f` reads of the machine, where an end of the pseudocode adds nothing to it. -/
theorem exec_kept {β : Type} {f : State → β} {i : Instr} {s t : State}
    (hk : Keeps (Kept f) Cleared (pseudocode i)) (complete : ∀ u ok v, f (State.complete u ok v) = f u)
    (takeError : ∀ u e, f (State.takeError u e) = f u) (accept : f s.accept = f s)
    (h : exec i s = .next t) (hr : pseudocode i s.accept ≠ .error .reset t) : f t = f s := by
  rw [exec_eq_operate] at h
  obtain ⟨ok, raised, hung, -⟩ := hk s.accept
  obtain ⟨r, u, hu, rfl⟩ | ⟨e, u, hu, rfl⟩ | hu | hu := operate_cases s _ h
  · rw [complete, (ok r u hu rfl).2, accept]
  · rw [takeError, (raised e u hu rfl).2, accept]
  · exact absurd hu hr
  · rw [(hung t hu rfl).2, accept]

/-- An operation with a result did not end by a reset. -/
theorem not_reset_of_resValid {i : Instr} {s t : State} (hv : t.resValid = true) :
    pseudocode i s.accept ≠ .error .reset t := by
  intro h
  obtain ⟨u, rfl⟩ := reset_of_pseudocode h
  cases hv

/-- Without the reset input no operation ends by it. -/
theorem not_reset_of_not_mem {i : Instr} {s t : State} (h : .reset ∉ s.io.host) :
    pseudocode i s.accept ≠ .error .reset t := by
  by_cases gate : i = .enable ∨ i = .disable
  · obtain rfl | rfl := gate <;> nofun
  · obtain ⟨henable, hdisable⟩ := not_or.mp gate
    exact (pseudocode_lapses henable hdisable).not_reset rfl h

theorem exec_keeps_framer {i : Instr} {s t : State} (h : exec i s = .next t)
    (hr : pseudocode i s.accept ≠ .error .reset t) (hi : i ≠ .readmsg) :
    t.msg = s.msg ∧ t.work = s.work ∧ t.owed = s.owed := by
  have same := exec_kept (pseudocode_keeps_framer hi) (fun _ _ _ => rfl) (fun _ _ => rfl) rfl h hr
  simpa [State.framer] using same

theorem exec_keeps_hswait {i : Instr} {s t : State} (h : exec i s = .next t)
    (hr : pseudocode i s.accept ≠ .error .reset t) (hi : i ≠ .writemsg) : t.hswait = s.hswait :=
  exec_kept (pseudocode_keeps_hswait hi) (fun _ _ _ => rfl) (fun _ _ => rfl) rfl h hr

theorem exec_keeps_en {i : Instr} {s t : State} (h : exec i s = .next t)
    (hr : pseudocode i s.accept ≠ .error .reset t) (henable : i ≠ .enable) (hdisable : i ≠ .disable) :
    t.en = s.en := by
  rw [exec_eq_operate] at h
  obtain ⟨hok, herror, -⟩ := pseudocode_lapses henable hdisable s.accept rfl
  obtain ⟨r, u, hu, rfl⟩ | ⟨e, u, hu, rfl⟩ | hu | hu := operate_cases s _ h
  · obtain ⟨w, hw⟩ := hok r u hu
    exact hw.en
  · obtain ⟨w, hw⟩ := herror _ u hu nofun
    exact hw.en
  · exact absurd hu hr
  · obtain ⟨w, hw⟩ := herror _ t hu nofun
    exact hw.en

theorem exec_keeps_params {i : Instr} {s t : State} (h : exec i s = .next t) : t.params = s.params := by
  obtain ⟨u, n, hu, time, -⟩ := exec_time i s
  rw [h] at hu
  cases hu
  exact time.params

/-- Settles O49, register by register. -/
theorem operationsWriteOnlyTheirRegisters : Obligations.OperationsWriteOnlyTheirRegisters := by
  intro i s t hreset h
  have hr : pseudocode i s.accept ≠ .error .reset t := not_reset_of_not_mem hreset
  exact ⟨exec_keeps_params h, exec_keeps_en h hr, exec_keeps_framer h hr, exec_keeps_hswait h hr⟩

end Sys2Proof.Machine
end

section
/-! The line at rest after every operation (42_codec_transmit.md R145). -/

namespace Sys2Proof.Machine

/-! ### A pulse ends at rest -/

/-- What `delay` leaves: `TXD` as it was, or all of a reset. -/
theorem delay_ends (n : Nat) : ∀ s : State,
    (∃ t, delay n s = .ok () t ∧ t.params = s.params ∧ t.busy = s.busy ∧ t.txd = s.txd) ∨
      ∃ u : State, delay n s = .error .reset u.applyReset := by
  induction n with
  | zero => exact fun s => .inl ⟨s, rfl, rfl, rfl, rfl⟩
  | succ n ih =>
    intro s
    cases hr : s.resetNow with
    | true => exact .inr ⟨s, engine_bind_error (elapse_of_reset s hr)⟩
    | false =>
      have run : delay (n + 1) s = delay n s.pass := engine_bind_ok (elapse_of_not_reset s hr)
      rw [run]
      obtain ⟨t, ht, params, busy, txd⟩ | ⟨u, hu⟩ := ih s.pass
      · exact .inl ⟨t, ht, params.trans s.pass_params, busy.trans s.pass_busy, txd.trans s.pass_txd⟩
      · exact .inr ⟨u, hu⟩

/-- What `Drive` leaves: its level, or all of a reset. -/
theorem drive_ends (l : Level) {n : Nat} (hn : n ≠ 0) (s : State) :
    (∃ t, drive l n s = .ok () t ∧ t.params = s.params ∧ t.busy = s.busy ∧ t.txd = l) ∨
      ∃ u : State, drive l n s = .error .reset u.applyReset := by
  rw [drive, if_neg hn]
  obtain ⟨t, ht, rest⟩ | ⟨u, hu⟩ := delay_ends n { s with txd := l }
  · exact .inl ⟨t, (engine_bind_ok (engine_modify s _)).trans ht, rest⟩
  · exact .inr ⟨u, (engine_bind_ok (engine_modify s _)).trans hu⟩

/-- An operation of a node is in progress, and `tx` rests. -/
structure State.Calm (s : State) : Prop where
  wf : s.params.wf = true
  busy : s.busy = true
  txd : s.txd = .inactive

/-- The piece leaves `tx` at rest, whatever it was before. -/
def Rests {α : Type} (m : Engine α) : Prop := ∀ s : State, s.params.wf = true → s.busy = true →
  (∃ a t, m s = .ok a t ∧ t.Calm) ∨ ∃ u : State, m s = .error .reset u.applyReset

/-- An active part and then an inactive one. -/
theorem pulse_rests {a b : Nat} (ha : a ≠ 0) (hb : b ≠ 0) :
    Rests (drive .active a >>= fun _ => drive .inactive b) := by
  intro s hwf hbusy
  obtain ⟨t, ht, params, busy, -⟩ | ⟨u, hu⟩ := drive_ends .active ha s
  · rw [engine_bind_ok ht]
    obtain ⟨u, hu, params', busy', txd⟩ | ⟨u, hu⟩ := drive_ends .inactive hb t
    · exact .inl ⟨(), u, hu, by rw [params', params, hwf], by rw [busy', busy, hbusy], txd⟩
    · exact .inr ⟨u, hu⟩
  · exact .inr ⟨u, engine_bind_error hu⟩

theorem txBit_rests (b : Bool) : Rests (txBit b) := by
  intro s hwf hbusy
  have pos := highOf_pos hwf b
  have short := highOf_lt hwf b
  exact pulse_rests (by omega) (by omega) s hwf hbusy

theorem txStart_rests : Rests txStart := by
  intro s hwf hbusy
  obtain ⟨pos, short, -⟩ := (wf_iff s.params).mp hwf
  exact pulse_rests (by omega) (by omega) s hwf hbusy

/-! ### Every piece keeps `tx` at rest -/

/-- `tx` stays at rest. -/
def StaysCalm (s t : State) : Prop := s.Calm → t.Calm

/-- `tx` is at rest after a reset. -/
def AtRest (_ t : State) : Prop := t.txd = .inactive

theorem codecKept_staysCalm : CodecKept StaysCalm AtRest where
  refl _ h := h
  trans _ _ _ h h' := h' ∘ h
  reset _ _ _ _ h := h
  pass s h := ⟨by rw [s.pass_params, h.wf], by rw [s.pass_busy, h.busy], by rw [s.pass_txd, h.txd]⟩
  applyReset _ := rfl
  tS _ h := ⟨h.wf, h.busy, h.txd⟩
  t0 _ _ h := ⟨h.wf, h.busy, h.txd⟩
  shreg _ _ h := ⟨h.wf, h.busy, h.txd⟩
  seqBit _ _ h := ⟨h.wf, h.busy, h.txd⟩

/-- A piece that leaves `tx` at rest keeps it so; where it does not start at rest, nothing is asked but of
a reset. -/
theorem Rests.keeps {α : Type} {m : Engine α} (h : Rests m)
    (hreset : ∀ s t, m s = .error .reset t → t.txd = .inactive) : Keeps StaysCalm AtRest m := by
  have calm : ∀ s, (∀ a t, m s = .ok a t → s.Calm → t.Calm) ∧
      ∀ e t, m s = .error e t → e ≠ .reset → s.Calm → t.Calm := by
    intro s
    constructor
    · intro a t ht hs
      obtain ⟨a', t', ht', htc⟩ | ⟨u, hu⟩ := h s hs.wf hs.busy
      · rw [ht] at ht'
        cases ht'
        exact htc
      · rw [ht] at hu
        cases hu
    · intro e t ht he hs
      obtain ⟨a', t', ht', htc⟩ | ⟨u, hu⟩ := h s hs.wf hs.busy
      · rw [ht] at ht'
        cases ht'
      · rw [ht] at hu
        cases hu
        exact absurd rfl he
  exact fun s => ⟨(calm s).1, fun e t ht => (calm s).2 _ t ht nofun, fun t ht => (calm s).2 _ t ht nofun,
    hreset s⟩

/-- Wherever a reset comes, it leaves `tx` at rest. -/
theorem codecKept_atRest : CodecKept (fun _ _ => True) AtRest where
  refl _ := trivial
  trans _ _ _ _ _ := trivial
  reset _ _ _ _ h := h
  pass _ := trivial
  applyReset _ := rfl
  tS _ := trivial
  t0 _ _ := trivial
  shreg _ _ := trivial
  seqBit _ _ := trivial

theorem keeps_calm_oneRun : OneRun fun _ m => Keeps StaysCalm AtRest m where
  pure a := keeps_pure codecKept_staysCalm.toAlong a
  bind := keeps_bind codecKept_staysCalm.toAlong
  reads _ hf s := hf s s
  raise _ _ _ _ := keeps_raise codecKept_staysCalm.toAlong _ _ _
  modify hf := keeps_modify fun s h => by
    rw [hf.only]
    exact ⟨h.wf, h.busy, h.txd⟩

theorem keeps_calm_rules : Rules fun _ _ _ m => Keeps StaysCalm AtRest m :=
  { keeps_calm_oneRun.toWrites with
    of_waitLevel := fun _ l pl _ => keeps_waitLevel codecKept_staysCalm l pl
    of_busFree := fun _ => keeps_busFree codecKept_staysCalm
    of_waitBusFree := fun _ => keeps_waitBusFree codecKept_staysCalm
    of_rest := fun _ n => keeps_drive codecKept_staysCalm _ n fun _ h => ⟨h.wf, h.busy, rfl⟩
    of_txBit := fun _ b => (txBit_rests b).keeps fun s =>
      (keeps_txBit codecKept_atRest (fun _ _ => trivial) b s).2.2.2
    of_txStart := fun _ => txStart_rests.keeps fun s =>
      (keeps_txStart codecKept_atRest (fun _ _ => trivial) s).2.2.2 }

/-- Every operation that starts at rest ends at rest, however it ends. -/
theorem exec_calm {i : Instr} {s t : State} (hwf : s.params.wf = true) (htx : s.txd = .inactive)
    (h : exec i s = .next t) : t.txd = .inactive := by
  by_cases gate : i = .enable ∨ i = .disable
  · obtain rfl | rfl := gate
    · rw [exec_enable_eq] at h
      cases h
      exact htx
    · rw [exec_disable_eq] at h
      cases h
      exact htx
  · obtain ⟨henable, hdisable⟩ := not_or.mp gate
    have calm : Keeps StaysCalm AtRest (pseudocode i) :=
      keeps_calm_rules.pseudocode_of_oneRun henable hdisable
    have accepted : s.accept.Calm := ⟨hwf, rfl, htx⟩
    rw [exec_eq_operate] at h
    obtain ⟨r, u, hu, rfl⟩ | ⟨e, u, hu, rfl⟩ | ht | ht := operate_keeps calm h
    · exact (hu accepted).txd
    · exact (hu accepted).txd
    · exact ht
    · exact (ht accepted).txd

/-! ### Transmit operations -/

/-- After a piece that brings `tx` to rest, a piece that keeps it so. -/
theorem Rests.bind {α β : Type} {x : Engine α} {f : α → Engine β} (hx : Rests x)
    (hf : ∀ a, Keeps StaysCalm AtRest (f a)) {s : State} (hwf : s.params.wf = true)
    (hb : s.busy = true) : (endOf ((x >>= f) s)).txd = .inactive := by
  obtain ⟨a, t, ht, calm⟩ | ⟨u, hu⟩ := hx s hwf hb
  · rw [engine_bind_ok ht]
    obtain ⟨ok, raised, hung, reset⟩ := hf a t
    cases hr : f a t with
    | ok b v => exact (ok b v hr calm).txd
    | error e v =>
      cases e with
      | raised e => exact (raised e v hr calm).txd
      | hung => exact (hung v hr calm).txd
      | reset => exact reset v hr
  · rw [engine_bind_error hu]
    rfl

/-- A transmit operation ends at rest wherever it starts. -/
theorem transmit_ends_at_rest {i : Instr} {p : Params} (hi : transmitWave p i ≠ none) {s : State}
    (hwf : s.params.wf = true) (hb : s.busy = true) : (endOf (pseudocode i s)).txd = .inactive := by
  have A := codecKept_staysCalm.toAlong
  have result : ∀ _ : Unit, Keeps StaysCalm AtRest (pure (true, (0 : Half))) := fun _ => keeps_pure A _
  cases i with
  | txstart => exact txStart_rests.bind result hwf hb
  | txbit b => exact (txBit_rests b).bind result hwf hb
  | txack a => exact (txBit_rests _).bind result hwf hb
  | txbits v n =>
    have legal : legalCount n = true := by
      by_contra illegal
      exact hi (by rw [transmitWave, if_neg illegal])
    obtain ⟨k, hk⟩ : ∃ k, n.toNat = k + 1 :=
      ⟨n.toNat - 1, by have := (legalCount_iff n).mp legal; omega⟩
    obtain ⟨t, ht, hst, -⟩ := setSeqBit_spec n.toNat { s with shreg := v }
    have first : pseudocode (.txbits v n) s = (txBit (t.shreg.getLsbD k) >>= fun _ =>
        setSeqBit k >>= fun _ => txBitsLoop k >>= fun _ => pure (true, (0 : Half))) t := by
      rw [pseudocode, if_pos legal, transmit, txBits, bind_assoc, engine_bind_ok (engine_modify s _),
        bind_assoc, engine_bind_ok ht, hk, txBitsLoop, bind_assoc, engine_bind_ok (engine_get t)]
      simp only [bind_assoc]
    rw [first]
    refine (txBit_rests _).bind (fun _ => ?_) (hst.params ▸ hwf) (hst.busy.trans hb)
    exact keeps_bind A (keeps_setSeqBit codecKept_staysCalm k) fun _ => keeps_bind A
      (keeps_calm_rules.of_txBitsLoop (k := { Known.visible with shreg := true }) rfl k) result
  | enable | disable | isen | busfree | rxstart | rxbit | rxbits _ | rxack | readmsg | writemsg =>
    exact absurd rfl hi

/-- The end of an operation shows the end of its pseudocode on `tx`. -/
theorem txd_of_operate {body : Engine (Bool × Half)} {s t : State} (h : operate body s = .next t) :
    t.txd = (endOf (body s.accept)).txd := by
  obtain ⟨r, u, hb, rfl⟩ | ⟨e, u, hb, rfl⟩ | hb | hb := operate_cases s body h
  all_goals rw [hb]; rfl

/-! ### What never drives -/

/-- The pins show no `Active` on `tx` from `s` to `t`. -/
def Undriven (s t : State) : Prop :=
  ∃ ps, (∀ p ∈ ps, p.tx = .inactive) ∧ t.io.pins = ps ++ s.io.pins

theorem Undriven.of_pins {s t : State} (h : t.io.pins = s.io.pins) : Undriven s t :=
  ⟨[], by simp, by rw [h]; rfl⟩

theorem Undriven.trans {s t u : State} (h : Undriven s t) (h' : Undriven t u) : Undriven s u := by
  obtain ⟨ps, hps, pins⟩ := h
  obtain ⟨ps', hps', pins'⟩ := h'
  refine ⟨ps' ++ ps, fun p hp => ?_, by rw [pins', pins, List.append_assoc]⟩
  exact (List.mem_append.mp hp).elim (hps' p) (hps p)

theorem Undriven.drivenSince {s t : State} (h : Undriven s t) : ∀ l ∈ drivenSince s t, l = .inactive := by
  obtain ⟨ps, hps, pins⟩ := h
  have new : Machine.drivenSince s t = (ps.map Pins.tx).reverse := by
    rw [Machine.drivenSince, pins, List.length_append, Nat.add_sub_cancel, List.take_left]
  rw [new]
  simpa using fun p hp => hps p hp

theorem undriven_pass {s : State} (htx : s.txd = .inactive) : Undriven s s.pass :=
  ⟨[⟨s.txd, s.en⟩], by simpa using htx, by rw [s.pass_io, s.serve_eq]; rfl⟩

theorem undriven_applyReset (s : State) : Undriven s s.applyReset :=
  ⟨[⟨.inactive, false⟩], by simp, rfl⟩

/-- `tx` rests all the time. -/
def StaysUndriven (s t : State) : Prop := s.txd = .inactive → t.txd = .inactive ∧ Undriven s t

def UndrivenToReset (s t : State) : Prop := s.txd = .inactive → Undriven s t

theorem codecKept_staysUndriven : CodecKept StaysUndriven UndrivenToReset where
  refl _ h := ⟨h, .of_pins rfl⟩
  trans _ _ _ h h' hs := by
    obtain ⟨ht, first⟩ := h hs
    obtain ⟨hu, second⟩ := h' ht
    exact ⟨hu, first.trans second⟩
  reset _ _ _ h h' hs := by
    obtain ⟨ht, first⟩ := h hs
    exact first.trans (h' ht)
  pass s h := ⟨by rw [s.pass_txd, h], undriven_pass h⟩
  applyReset s _ := undriven_applyReset s
  tS _ h := ⟨h, .of_pins rfl⟩
  t0 _ _ h := ⟨h, .of_pins rfl⟩
  shreg _ _ h := ⟨h, .of_pins rfl⟩
  seqBit _ _ h := ⟨h, .of_pins rfl⟩

/-- An operation whose pseudocode never drives never drives. -/
theorem exec_undriven {i : Instr} {s t : State}
    (hk : Keeps StaysUndriven UndrivenToReset (pseudocode i)) (htx : s.txd = .inactive)
    (h : exec i s = .next t) : Undriven s t := by
  rw [exec_eq_operate] at h
  obtain ⟨r, u, hu, rfl⟩ | ⟨e, u, hu, rfl⟩ | ht | ht := operate_keeps hk h
  · exact (hu htx).2
  · exact (hu htx).2
  · exact ht htx
  · exact (ht htx).2

/-- Settles O28. -/
theorem txRestsAfterEveryOperation : Obligations.TxRestsAfterEveryOperation := by
  intro i s t hwf h
  refine ⟨fun hi => ?_, fun htx => exec_calm hwf htx h, fun htx hi hread hwrite => ?_⟩
  · rw [exec_eq_operate] at h
    rw [txd_of_operate h]
    exact transmit_ends_at_rest hi (s := s.accept) hwf rfl
  · have keeps := keeps_receive codecKept_staysUndriven (fun _ _ _ hs => ⟨hs, .of_pins rfl⟩) hi hread hwrite
    exact (exec_undriven keeps htx h).drivenSince

end Sys2Proof.Machine
end

section
/-! The invariant of the machine (10_state.md R28, R33; 20_memory.md R71; 70_reset_and_hazards.md R254). -/

namespace Sys2Proof.Machine

/-! ### Where an operation may stop -/

/-- An end that may be: an error outside the payload has no index, and a wait that never ends has used up
the script of the line. -/
def RightEnd {α : Type} : EStateM.Result Stop State α → Prop
  | .error (.raised e) _ => e.field ≠ .data → e.index = 0
  | .error .hung t => t.io.rx.script = []
  | .error .reset _ => True
  | .ok _ _ => True

/-- The piece ends so. -/
def StopsRight (α : Type) (m : Engine α) : Prop := ∀ s : State, RightEnd (m s)

theorem stopsRight_bind {α β : Type} {x : Engine α} {f : α → Engine β} (hx : StopsRight α x)
    (hf : ∀ a, StopsRight β (f a)) : StopsRight β (x >>= f) := by
  intro s
  have first := hx s
  cases hs : x s with
  | ok a t =>
    rw [engine_bind_ok hs]
    exact hf a t
  | error e t =>
    rw [engine_bind_error hs]
    rw [hs] at first
    cases e <;> exact first

theorem stopsRight_oneRun : OneRun StopsRight where
  pure _ _ := trivial
  bind := stopsRight_bind
  reads _ hf s := hf s s
  raise _ _ _ h _ := h
  modify _ _ := trivial

/-- Only the reset input stops the piece. -/
def OnlyReset {α : Type} (m : Engine α) : Prop := ∀ s e t, m s = .error e t → e = .reset

theorem OnlyReset.stopsRight {α : Type} {m : Engine α} (h : OnlyReset m) : StopsRight α m :=
  fun s => by
    cases hs : m s with
    | ok a t => trivial
    | error e t =>
      obtain rfl := h s e t hs
      trivial

theorem onlyReset_of_ok {α : Type} {m : Engine α} (h : ∀ s, ∃ a t, m s = .ok a t) : OnlyReset m := by
  intro s e t he
  obtain ⟨a, u, hu⟩ := h s
  rw [hu] at he
  cases he

theorem onlyReset_bind {α β : Type} {x : Engine α} {f : α → Engine β} (hx : OnlyReset x)
    (hf : ∀ a, OnlyReset (f a)) : OnlyReset (x >>= f) := by
  intro s e t h
  cases hs : x s with
  | ok a u =>
    rw [engine_bind_ok hs] at h
    exact hf a u e t h
  | error e' u =>
    rw [engine_bind_error hs] at h
    cases h
    exact hx s _ _ hs

theorem onlyReset_elapse : OnlyReset elapse := by
  intro s e t h
  cases hr : s.resetNow with
  | true =>
    rw [elapse_of_reset s hr] at h
    cases h
    rfl
  | false =>
    rw [elapse_of_not_reset s hr] at h
    cases h

theorem onlyReset_delay (n : Nat) : OnlyReset (delay n) := by
  induction n with
  | zero => exact onlyReset_of_ok fun s => ⟨(), s, rfl⟩
  | succ n ih => exact onlyReset_bind onlyReset_elapse fun _ => ih

theorem onlyReset_drive (l : Level) (n : Nat) : OnlyReset (drive l n) := by
  rw [drive]
  split
  · exact onlyReset_of_ok fun s => ⟨(), s, rfl⟩
  · exact onlyReset_bind (onlyReset_of_ok fun s => ⟨(), { s with txd := l }, rfl⟩) fun _ =>
      onlyReset_delay n

theorem onlyReset_busFreeLoop (n : Nat) : OnlyReset (busFreeLoop n) := by
  induction n with
  | zero => exact onlyReset_of_ok fun s => ⟨true, s, rfl⟩
  | succ n ih =>
    have sampled : OnlyReset sample :=
      onlyReset_bind (onlyReset_of_ok fun s => ⟨s, s, rfl⟩) fun _ =>
        onlyReset_bind onlyReset_elapse fun _ => onlyReset_of_ok fun t => ⟨_, t, rfl⟩
    refine onlyReset_bind sampled fun x => ?_
    split
    · exact onlyReset_of_ok fun s => ⟨false, s, rfl⟩
    · exact ih

/-! ### The turns of a wait that never ends -/

theorem State.pass_rx (s : State) : s.pass.io.rx = s.io.rx.next := by
  rw [s.pass_io, s.serve_eq]
  rfl

/-- The loop of `WaitLevel` stops at its place, or after a tick for each of its turns. -/
theorem waitLoop_stops (l : Level) (pl : Place) (k : Nat) : ∀ s t : State,
    (∀ e, waitLoop l pl k s = .error (.raised e) t → e = ⟨.timeout, pl.field, pl.index⟩) ∧
      (waitLoop l pl k s = .error .hung t → t.io.rx = s.io.rx.after k) := by
  induction k with
  | zero =>
    intro s t
    refine ⟨fun e h => (by cases h), fun h => ?_⟩
    cases h
    rfl
  | succ k ih =>
    intro s t
    by_cases he : s.expired s.params.tWaitMax = true
    · have run : waitLoop l pl (k + 1) s = .error (.raised ⟨.timeout, pl.field, pl.index⟩) s := by
        rw [waitLoop, engine_bind_ok (engine_get s), if_pos he]
        rfl
      rw [run]
      refine ⟨fun e h => ?_, fun h => (by cases h)⟩
      cases h
      rfl
    · cases hr : s.resetNow with
      | true =>
        have run : waitLoop l pl (k + 1) s = .error .reset s.applyReset := by
          rw [waitLoop, engine_bind_ok (engine_get s), if_neg he,
            engine_bind_error (sample_of_reset s hr)]
        rw [run]
        exact ⟨fun e h => (by cases h), fun h => (by cases h)⟩
      | false =>
        rw [waitLoop_turn l pl k (by simpa using he) hr]
        split
        · exact ⟨fun e h => (by cases h), fun h => (by cases h)⟩
        · obtain ⟨raised, hung⟩ := ih s.pass t
          refine ⟨raised, fun h => ?_⟩
          rw [hung h, s.pass_rx]
          rfl

/-- After as many ticks as the horizon the script of the line is used up. -/
theorem script_after_horizon {l : Line} {n : Nat} (h : l.horizon ≤ n) : (l.after n).script = [] := by
  rw [Line.after_script]
  unfold Line.horizon at h
  exact List.drop_eq_nil_of_le (by omega)

theorem stopsRight_waitLevel (l : Level) (pl : Place) (hpl : pl.field ≠ .data → pl.index = 0) :
    StopsRight Tick (waitLevel l pl) := by
  intro s
  have run : waitLevel l pl s = waitLoop l pl (s.turns s.params.tWaitMax) { s with tS := s.io.now } :=
    rfl
  rw [run]
  cases hr : waitLoop l pl (s.turns s.params.tWaitMax) { s with tS := s.io.now } with
  | ok a t => trivial
  | error e t =>
    obtain ⟨raised, hung⟩ := waitLoop_stops l pl (s.turns s.params.tWaitMax) { s with tS := s.io.now } t
    cases e with
    | raised e =>
      obtain rfl := raised e hr
      exact hpl
    | reset => trivial
    | hung =>
      rw [RightEnd, hung hr]
      exact script_after_horizon (horizon_lt_turns s _).le

/-- A bus test that fails took at least one tick. -/
theorem busFreeLoop_fails (n : Nat) : ∀ {s t : State}, busFreeLoop n s = .ok false t →
    ∃ j, t.io.rx = s.io.rx.after (j + 1) := by
  induction n with
  | zero =>
    intro s t h
    cases h
  | succ n ih =>
    intro s t h
    cases hr : s.resetNow with
    | true =>
      rw [busFreeLoop, engine_bind_error (sample_of_reset s hr)] at h
      cases h
    | false =>
      rw [busFreeLoop, engine_bind_ok (sample_of_not_reset s hr)] at h
      by_cases hx : s.rxNow = .active
      · rw [if_pos hx] at h
        cases h
        exact ⟨0, s.pass_rx⟩
      · rw [if_neg hx] at h
        obtain ⟨j, hj⟩ := ih h
        exact ⟨j + 1, by rw [hj, s.pass_rx]; rfl⟩

/-- Each turn of the wait for a free bus takes at least one tick. -/
theorem waitBusFreeLoop_stops (k : Nat) : ∀ s t : State,
    (∀ e, waitBusFreeLoop k s = .error (.raised e) t → e.index = 0) ∧
      (waitBusFreeLoop k s = .error .hung t → ∃ n, k ≤ n ∧ t.io.rx = s.io.rx.after n) := by
  induction k with
  | zero =>
    intro s t
    refine ⟨fun e h => (by cases h), fun h => ?_⟩
    cases h
    exact ⟨0, le_rfl, rfl⟩
  | succ k ih =>
    intro s u
    cases hs : busFree s with
    | error e t =>
      obtain rfl : e = .reset := onlyReset_busFreeLoop _ s e t hs
      rw [waitBusFreeLoop, engine_bind_error hs]
      exact ⟨fun e h => (by cases h), fun h => (by cases h)⟩
    | ok free t =>
      rw [waitBusFreeLoop, engine_bind_ok hs]
      cases free with
      | true => exact ⟨fun e h => (by cases h), fun h => (by cases h)⟩
      | false =>
        obtain ⟨j, hj⟩ := busFreeLoop_fails s.params.tBit (s := s) hs
        rw [if_neg Bool.false_ne_true, engine_bind_ok (engine_get t)]
        split
        · refine ⟨fun e h => ?_, fun h => (by cases h)⟩
          cases h
          rfl
        · obtain ⟨raised, hung⟩ := ih t u
          refine ⟨raised, fun h => ?_⟩
          obtain ⟨n, hn, hu⟩ := hung h
          exact ⟨j + 1 + n, by omega, by rw [hu, hj, Line.after_add]⟩

theorem stopsRight_waitBusFree : StopsRight Unit waitBusFree := by
  intro s
  have run : waitBusFree s = waitBusFreeLoop (s.turns s.params.tBusFreeMax) { s with tS := s.io.now } :=
    rfl
  rw [run]
  cases hr : waitBusFreeLoop (s.turns s.params.tBusFreeMax) { s with tS := s.io.now } with
  | ok a t => trivial
  | error e t =>
    obtain ⟨raised, hung⟩ :=
      waitBusFreeLoop_stops (s.turns s.params.tBusFreeMax) { s with tS := s.io.now } t
    cases e with
    | raised e => exact fun _ => raised e hr
    | reset => trivial
    | hung =>
      obtain ⟨n, hn, ht⟩ := hung hr
      rw [RightEnd, ht]
      exact script_after_horizon ((horizon_lt_turns s _).le.trans hn)

theorem stopsRight_rules : Rules fun _ _ α m => StopsRight α m :=
  { stopsRight_oneRun.toWrites with
    of_waitLevel := fun _ l pl hpl => stopsRight_waitLevel l pl hpl
    of_busFree := fun _ => stopsRight_oneRun.reads (fun _ _ => rfl) fun _ =>
      (onlyReset_busFreeLoop _).stopsRight
    of_waitBusFree := fun _ => stopsRight_waitBusFree
    of_rest := fun _ n => (onlyReset_drive _ n).stopsRight
    of_txBit := fun _ _ => stopsRight_oneRun.reads (fun _ _ => rfl) fun _ =>
      stopsRight_bind (onlyReset_drive _ _).stopsRight fun _ => (onlyReset_drive _ _).stopsRight
    of_txStart := fun _ => stopsRight_oneRun.reads (fun _ _ => rfl) fun _ =>
      stopsRight_bind (onlyReset_drive _ _).stopsRight fun _ => (onlyReset_drive _ _).stopsRight }

/-- How every operation may stop. -/
theorem pseudocode_stopsRight (i : Instr) : StopsRight (Bool × Half) (pseudocode i) := by
  by_cases gate : i = .enable ∨ i = .disable
  · obtain rfl | rfl := gate <;> exact fun _ => trivial
  · obtain ⟨henable, hdisable⟩ := not_or.mp gate
    exact stopsRight_rules.pseudocode_of_oneRun henable hdisable

/-! ### The invariant -/

/-- A reset of a node meets the invariant. -/
theorem inv_applyReset {s : State} (hwf : s.params.wf = true) : s.applyReset.Inv where
  profile := hwf
  txd := rfl
  idle _ := rfl
  hung := nofun
  ok := nofun
  index _ := rfl

/-- So does an operation that starts in a machine with it and `BUSY` 0. -/
theorem inv_exec {i : Instr} {s t : State} (hs : s.Inv) (h : exec i s = .next t) : t.Inv := by
  have wf : t.params.wf = true := by rw [exec_keeps_params h, hs.profile]
  have rests : t.txd = .inactive := exec_calm hs.profile hs.txd h
  have right := pseudocode_stopsRight i s.accept
  rw [exec_eq_operate] at h
  obtain ⟨r, u, hu, rfl⟩ | ⟨e, u, hu, rfl⟩ | ht | ht := operate_cases s _ h
  · exact ⟨wf, rests, fun _ => rfl, nofun, fun _ => ⟨rfl, rfl⟩, fun _ => rfl⟩
  · exact ⟨wf, rests, fun _ => rfl, nofun, nofun, by rwa [hu] at right⟩
  · obtain ⟨v, rfl⟩ := reset_of_pseudocode ht
    exact inv_applyReset wf
  · obtain ⟨w, hw⟩ := lapse_of_hung ht
    have report := hw.report
    simp only [State.report, Prod.mk.injEq] at report
    obtain ⟨resValid, resOk, -, err⟩ := report
    have busy : t.busy = true := hw.busy
    refine ⟨wf, rests, fun hb => ?_, fun _ => ⟨by rwa [ht] at right, resValid, resOk⟩,
      fun ho => ?_, fun hf => ?_⟩
    · rw [busy] at hb
      cases hb
    · rw [resOk] at ho
      cases ho
    · rw [err] at hf ⊢
      exact hs.index hf

/-- Settles O58: a tick keeps the invariant, and so does an operation after it. -/
theorem stepKeepsInvariant : Obligations.StepKeepsInvariant := by
  intro s t hs h
  have pass : s.pass.Inv := by
    refine ⟨by rw [s.pass_params, hs.profile], by rw [s.pass_txd, hs.txd], fun hb => ?_, fun hb => ?_,
      fun ho => ?_, fun hf => ?_⟩
    · rw [s.pass_seq]
      exact hs.idle (s.pass_busy ▸ hb)
    · obtain ⟨script, resValid, resOk⟩ := hs.hung (s.pass_busy ▸ hb)
      rw [s.pass_resValid, s.pass_resOk, s.pass_rx, Line.next_script, script]
      exact ⟨rfl, resValid, resOk⟩
    · rw [s.pass_resValid, s.pass_err]
      exact hs.ok (s.pass_resOk ▸ ho)
    · rw [s.pass_err] at hf ⊢
      exact hs.index hf
  cases hf : s.fetch with
  | none =>
    rw [step_of_no_fetch hs.profile hf] at h
    cases h
    rw [State.tick]
    split
    · exact inv_applyReset hs.profile
    · exact pass
  | some w =>
    rw [step_of_fetch hs.profile hf] at h
    exact inv_exec pass h

end Sys2Proof.Machine
end

section
/-! What READMSG keeps up to its commit, and that the commit is of a whole Message of a legal length
(44_framer_read.md R179). -/

namespace Sys2Proof.Machine

section
variable {α β : Type} {R Q : State → State → Prop}

/-! ### Pieces of READMSG -/

/-- A composed piece that completes does so through its first part. -/
theorem engine_bind_eq_ok {x : Engine α} {f : α → Engine β} {s u : State} {b : β}
    (h : (x >>= f) s = .ok b u) : ∃ a t, x s = .ok a t ∧ f a t = .ok b u := by
  cases hs : x s with
  | ok a t =>
    rw [engine_bind_ok hs] at h
    exact ⟨a, t, rfl, h⟩
  | error e t =>
    rw [engine_bind_error hs] at h
    cases h

theorem keeps_readEligible (hR : ReadKept R Q) (k : Nat) : Keeps R Q (readEligible k) := by
  have seq : Keeps R Q (seqEligible k) := by
    match k with
    | 0 | 1 | 2 => exact keeps_setSeq hR.seq _
    | _ + 3 => exact keeps_setSeqData hR.seq _
  exact keeps_bind hR.toAlong seq fun _ => keeps_bind hR.toAlong (keeps_rxField hR _ _ _) fun _ =>
    keeps_setWork hR _

theorem keeps_readFields (hR : ReadKept R Q) (n : Nat) : ∀ k, Keeps R Q (readFields n k) := by
  induction n with
  | zero => exact fun _ => keeps_pure hR.toAlong _
  | succ n ih => exact fun k => keeps_bind hR.toAlong (keeps_readEligible hR k) fun _ => ih _

theorem keeps_readHead (hR : ReadKept R Q) : Keeps R Q readHead :=
  keeps_bind hR.toAlong (keeps_readStart hR) fun _ =>
    keeps_bind hR.toAlong (keeps_readType hR) fun _ =>
      keeps_bind hR.toAlong (keeps_setSeq hR.seq _) fun _ =>
        keeps_bind hR.toAlong (keeps_rxField hR _ _ _) fun _ => keeps_setWork hR _

theorem keeps_readFrame (hR : ReadKept R Q) : Keeps R Q readFrame :=
  keeps_bind hR.toAlong (keeps_readHead hR) fun _ =>
    keeps_bind hR.toAlong (keeps_readFields hR _ _) fun _ =>
      keeps_bind hR.toAlong (keeps_get hR.toAlong) fun _ => keeps_readFields hR _ _

/-- The commit, which ends READMSG. -/
def State.committed (s : State) : State :=
  { s with seq := { s.seq with state := .complete }, msg := s.msg.commit s.work }

/-- An enabled READMSG receives a frame with `OWED` cleared, and commits it. -/
theorem readMsg_of_enabled {s : State} (hen : s.en = true) : readMsg s =
    (readFrame >>= fun _ => commitMessage >>= fun _ => pure (true, 0)) { s with owed := false } := by
  rw [readMsg_eq, engine_bind_ok (engine_modify s _), engine_bind_ok (engine_get _), if_pos hen]

/-- READMSG ends with a commit after a whole frame, or stops before it. -/
theorem readMsg_ends (hR : ReadKept R Q) (s : State) :
    (∃ u, readFrame { s with owed := false } = .ok () u ∧ R s u ∧
      readMsg s = .ok (true, 0) u.committed) ∨
    ∃ e t, readMsg s = .error e t ∧ (e ≠ .reset → R s t) ∧ (e = .reset → Q s t) := by
  have start : R s { s with owed := false } := hR.owed s false
  by_cases hen : s.en = true
  · rw [readMsg_of_enabled hen]
    obtain ⟨ok, raised, hung, reset⟩ := keeps_readFrame hR { s with owed := false }
    cases hf : readFrame { s with owed := false } with
    | ok a u =>
      exact .inl ⟨u, rfl, hR.trans _ _ _ start (ok a u hf), engine_bind_ok hf⟩
    | error e t =>
      refine .inr ⟨e, t, engine_bind_error hf, fun he => hR.trans _ _ _ start ?_, fun he => ?_⟩
      · cases e with
        | raised e => exact raised e t hf
        | hung => exact hung t hf
        | reset => exact absurd rfl he
      · subst he
        exact hR.reset _ _ _ start (reset t hf)
  · rw [readMsg_of_disabled (by simpa using hen)]
    exact .inr ⟨_, _, rfl, fun _ => start, fun h => (by cases h)⟩

/-- The exchange of a field other than the slave's writes no working register but `SHREG`. -/
theorem keeps_rxField_of_not_slave (hC : CodecKept R Q) (txd : ∀ s l, R s { s with txd := l }) (n : Nat)
    {field : ErrField} (hf : field ≠ .slave) (index : Byte) : Keeps R Q (rxField n field index) := by
  have A := hC.toAlong
  have unlatched : ∀ v, onlyIf (decide (field = .slave)) (latchSlave v) = pure () := fun v => by
    simp [onlyIf, hf]
  refine keeps_bind A (keeps_rxBits hC _ _) fun v => keeps_bind A (keeps_rxBit hC _) fun p => ?_
  rw [unlatched]
  refine keeps_bind A (keeps_pure A _) fun _ => keeps_bind A (keeps_get A) fun s => ?_
  exact keeps_ite
    (keeps_bind A (keeps_onlyIf A _ (keeps_answer hC txd _)) fun _ => keeps_pure A _)
    (keeps_bind A (keeps_onlyIf A _ (keeps_answer hC txd _)) fun _ => keeps_raise A _ _ _)

end

/-! ### The length of a received Message -/

theorem readKept_msg : ReadKept (Kept State.msg) Cleared where
  toCodecKept := codecKept_kept (fun s hb => by rw [s.pass_of_busy hb]) (fun _ => rfl) (fun _ _ => rfl)
    (fun _ _ => rfl) fun _ _ => rfl
  txd _ _ hb := ⟨hb, rfl⟩
  work _ _ hb := ⟨hb, rfl⟩
  owed _ _ hb := ⟨hb, rfl⟩
  seq _ _ hb := ⟨hb, rfl⟩

/-- `W_LEN`. -/
def State.workLen (s : State) : BitVec 9 := s.work.len

theorem codecKept_workLen : CodecKept (Kept State.workLen) Cleared :=
  codecKept_kept (fun s _ => congrArg Message.len s.pass_work) (fun _ => rfl) (fun _ _ => rfl)
    (fun _ _ => rfl) fun _ _ => rfl

/-- Payload bytes leave `W_LEN`. -/
theorem keeps_workLen_readFields (n : Nat) : ∀ k,
    Keeps (Kept State.workLen) Cleared (readFields n (k + 3)) := by
  have A := codecKept_workLen.toAlong
  induction n with
  | zero => exact fun _ => keeps_pure A _
  | succ n ih =>
    intro k
    have notSlave : (eligiblePlace (k + 3)).1 ≠ .slave := fun he =>
      absurd ((eligiblePlace_eq_slave_iff _).mp he) (by omega)
    have one : Keeps (Kept State.workLen) Cleared (readEligible (k + 3)) :=
      keeps_bind A (keeps_modify fun _ hb => ⟨hb, rfl⟩) fun _ =>
        keeps_bind A (keeps_rxField_of_not_slave codecKept_workLen (fun _ _ hb => ⟨hb, rfl⟩) _ notSlave _)
          fun _ => keeps_modify fun _ hb => ⟨hb, rfl⟩
    exact keeps_bind A one fun _ => ih (k + 1)

theorem lowBits_lt (v : Half) (n : Nat) : (lowBits v n).toNat < 2 ^ n := by
  rw [lowBits, BitVec.toNat_setWidth, BitVec.toNat_setWidth]
  exact (Nat.mod_le _ _).trans_lt (Nat.mod_lt _ (Nat.two_pow_pos n))

/-- A received value fits its field. -/
theorem rxField_lt {n : Nat} {field : ErrField} {index : Byte} {s t : State} {v : Half}
    (h : rxField n field index s = .ok v t) : v.toNat < 2 ^ n := by
  rw [rxField] at h
  obtain ⟨x, s₁, hbits, h⟩ := engine_bind_eq_ok h
  obtain ⟨p, s₂, -, h⟩ := engine_bind_eq_ok h
  obtain ⟨-, s₃, -, h⟩ := engine_bind_eq_ok h
  obtain ⟨s₄, s₅, -, h⟩ := engine_bind_eq_ok h
  have value : v = x := by
    dsimp only at h
    split at h
    · obtain ⟨-, s₆, -, h⟩ := engine_bind_eq_ok h
      cases h
      rfl
    · obtain ⟨-, s₆, -, h⟩ := engine_bind_eq_ok h
      cases h
  obtain ⟨-, s₆, -, hbits⟩ := engine_bind_eq_ok hbits
  obtain ⟨-, s₇, -, hbits⟩ := engine_bind_eq_ok hbits
  obtain ⟨-, s₈, -, hbits⟩ := engine_bind_eq_ok hbits
  obtain ⟨s₉, s₁₀, -, hbits⟩ := engine_bind_eq_ok hbits
  cases hbits
  rw [value]
  exact lowBits_lt _ n

/-- A received length is legal (30_encoding.md R88). -/
theorem legalLen_lenOfWire {v : Half} (h : v.toNat < 2 ^ 8) : legalLen (lenOfWire v) = true := by
  have len := lenOfWire_toNat h
  simp only [legalLen, Bool.and_eq_true, decide_eq_true_eq]
  split at len <;> omega

theorem readFields_one (k : Nat) : readFields 1 k = readEligible k := bind_pure _

/-- A whole frame has a legal length. -/
theorem legalLen_of_readFrame {s t : State} (hb : s.busy = true) (h : readFrame s = .ok () t) :
    t.busy = true ∧ legalLen t.work.len = true := by
  have busy : ∀ (m : Engine Unit) {s t : State}, Keeps (Kept State.msg) Cleared m → s.busy = true →
      m s = .ok () t → t.busy = true := fun m s t hm hs ht => ((hm s).1 () t ht hs).1
  obtain ⟨_, s₁, head, h⟩ := engine_bind_eq_ok h
  have b₁ := busy _ (keeps_readHead readKept_msg) hb head
  obtain ⟨_, s₄, three, h⟩ := engine_bind_eq_ok h
  obtain ⟨_, s₄, hget, payload⟩ := engine_bind_eq_ok h
  cases hget
  rw [readFields_add 2 1 0] at three
  obtain ⟨_, s₃, two, length⟩ := engine_bind_eq_ok three
  have b₃ := busy _ (keeps_readFields readKept_msg 2 0) b₁ two
  have b₄ := busy _ (keeps_readFields readKept_msg 1 2) b₃ length
  rw [readFields_one] at length
  obtain ⟨_, s₅, -, length⟩ := engine_bind_eq_ok length
  obtain ⟨v, s₆, field, length⟩ := engine_bind_eq_ok length
  have legal : legalLen s₄.work.len = true := by
    cases length
    exact legalLen_lenOfWire (rxField_lt field)
  obtain ⟨b₅, kept⟩ := (keeps_workLen_readFields _ 0 s₄).1 () t payload b₄
  exact ⟨b₅, (congrArg legalLen kept).trans legal⟩

/-- Settles O40: READMSG stops before its commit, or commits a whole frame. -/
theorem readIsNeverPartial : Obligations.ReadIsNeverPartial := by
  intro s t h
  change operate readMsg s = .next t at h
  obtain ⟨u, frame, kept, hu⟩ | ⟨e, u, hu, kept, reset⟩ := readMsg_ends readKept_msg s.accept
  · rw [operate_of_ok hu] at h
    cases h
    obtain ⟨-, msg⟩ := kept rfl
    obtain ⟨-, legal⟩ := legalLen_of_readFrame rfl frame
    have short : u.work.len.toNat ≤ 256 := by
      simp only [legalLen, Bool.and_eq_true, decide_eq_true_eq] at legal
      exact legal.2
    refine ⟨nofun, nofun, fun _ => ⟨legal, rfl, rfl, rfl, rfl, rfl, fun i hi => ?_, fun i hi => ?_⟩⟩
    · exact (Message.byteAt_commit _ _ i short).trans (if_pos hi)
    · have beyond : ¬ i < u.work.len.toNat := not_lt.mpr hi
      rw [← State.accept_msg s, ← msg]
      exact (Message.byteAt_commit _ _ i short).trans (if_neg beyond)
  · cases e with
    | raised e =>
      rw [operate_of_raised hu] at h
      cases h
      exact ⟨fun _ _ => (kept nofun rfl).2, nofun, nofun⟩
    | reset =>
      rw [operate_of_reset hu] at h
      cases h
      obtain ⟨v, rfl⟩ := reset_of_pseudocode (i := .readmsg) hu
      exact ⟨nofun, nofun, nofun⟩
    | hung =>
      rw [operate_of_hung hu] at h
      cases h
      obtain ⟨w, hw⟩ := lapse_of_hung (i := .readmsg) hu
      have report := hw.report
      simp only [State.report, Prod.mk.injEq] at report
      obtain ⟨-, resOk, -⟩ := report
      refine ⟨fun _ _ => (kept nofun rfl).2, fun _ => (kept nofun rfl).2, fun ho => ?_⟩
      rw [resOk] at ho
      cases ho

end Sys2Proof.Machine
end

section
/-! What the host reads while an operation runs (20_memory.md R67, R69, R71, R75). -/

namespace Sys2Proof.Machine

/-! ### Polling -/

/-- What a host reads is decided by the parameters, the gate, `BUSY`, the results and the Message. -/
theorem State.hostRead_congr {s t : State} (hp : t.params = s.params) (he : t.en = s.en)
    (hb : t.busy = s.busy) (hr : t.report = s.report) (hm : t.msg = s.msg) (a n : Nat) :
    t.hostRead a n = s.hostRead a n := by
  simp only [State.report, Prod.mk.injEq] at hr
  obtain ⟨valid, ok, result, err⟩ := hr
  unfold State.hostRead
  cases regAt a n with
  | none => rfl
  | some r => cases r <;> simp [State.regValue, State.statusWord, hp, he, hb, valid, ok, result, err, hm]

/-- From `s` to `t` `n` ticks of an operation passed; every access reads as before, and the reads of these
ticks were answered so. -/
structure Polled (s t : State) (n : Nat) : Prop where
  now : t.io.now = s.io.now + .ofNat 64 n
  pins : t.io.pins.length = s.io.pins.length + n
  host : .wait ∉ s.io.host.take n → t.io.host = s.io.host.drop n
  subset : ∀ r ∈ t.io.host, r ∈ s.io.host
  same : ∀ a m, t.hostRead a m = s.hostRead a m
  reads : ∃ new, t.io.reads = new ++ s.io.reads ∧ ∀ r ∈ new,
    (∃ k, k < n ∧ r.tick = s.io.now + .ofNat 64 k) ∧
      ∃ a m, .read a m ∈ s.io.host ∧ r.data = s.hostRead a m
  answered : ∀ j a m, j < n → .wait ∉ s.io.host.take j → s.io.host[j]? = some (.read a m) →
    ⟨s.io.now + .ofNat 64 j, s.hostRead a m⟩ ∈ t.io.reads

/-- A write of a register the host does not see. -/
theorem Polled.of_hidden {s t : State} (hio : t.io = s.io)
    (hsame : ∀ a m, t.hostRead a m = s.hostRead a m) : Polled s t 0 where
  now := by simp [hio]
  pins := by rw [hio]; rfl
  host _ := by rw [hio]; rfl
  subset r hr := hio ▸ hr
  same := hsame
  reads := ⟨[], by rw [hio]; rfl, by simp⟩
  answered j _ _ hj := absurd hj (Nat.not_lt_zero j)

theorem Polled.refl (s : State) : Polled s s 0 := .of_hidden rfl fun _ _ => rfl

theorem Polled.trans {s t u : State} {n n' : Nat} (h : Polled s t n) (h' : Polled t u n') :
    Polled s u (n + n') where
  now := by rw [h'.now, h.now, BitVec.ofNat_add, BitVec.add_assoc]
  pins := by rw [h'.pins, h.pins, Nat.add_assoc]
  host hw := by
    have first := h.host fun hm => hw (mem_take_add_left hm)
    rw [h'.host fun hm => hw (mem_take_add_right (first ▸ hm)), first, List.drop_drop]
  subset r hr := h.subset r (h'.subset r hr)
  same a m := (h'.same a m).trans (h.same a m)
  reads := by
    obtain ⟨new, hnew, hreads⟩ := h.reads
    obtain ⟨new', hnew', hreads'⟩ := h'.reads
    refine ⟨new' ++ new, by rw [hnew', hnew, List.append_assoc], fun r hr => ?_⟩
    rcases List.mem_append.mp hr with later | earlier
    · obtain ⟨⟨k, hk, tick⟩, a, m, hread, data⟩ := hreads' r later
      refine ⟨⟨n + k, by omega, ?_⟩, a, m, h.subset _ hread, data.trans (h.same a m)⟩
      rw [tick, h.now, BitVec.add_assoc, BitVec.ofNat_add]
    · obtain ⟨⟨k, hk, tick⟩, hdata⟩ := hreads r earlier
      exact ⟨⟨k, by omega, tick⟩, hdata⟩
  answered j a m hj hw hread := by
    by_cases first : j < n
    · obtain ⟨new', hnew', -⟩ := h'.reads
      rw [hnew']
      exact List.mem_append_right _ (h.answered j a m first hw hread)
    · obtain ⟨k, rfl⟩ : ∃ k, j = n + k := ⟨j - n, by omega⟩
      have host := h.host fun hm => hw (mem_take_add_left hm)
      have later := h'.answered k a m (by omega) (fun hm => hw (mem_take_add_right (host ▸ hm)))
        (by rw [host, List.getElem?_drop, hread])
      rwa [h.now, BitVec.add_assoc, ← BitVec.ofNat_add, h.same] at later

theorem mem_of_hostAfter {b : Bool} {h : List HostReq} {r : HostReq} (hr : r ∈ hostAfter b h) : r ∈ h := by
  cases h with
  | nil => exact hr
  | cons x h =>
    cases x with
    | wait =>
      cases b with
      | true => exact hr
      | false => exact List.mem_cons_of_mem _ hr
    | idle | read _ _ | write _ _ _ | reset => exact List.mem_cons_of_mem _ hr

/-- One tick of an operation. -/
theorem polled_pass {s : State} (hb : s.busy = true) : Polled s s.pass 1 where
  now := by rw [s.pass_of_busy hb]; rfl
  pins := by rw [s.pass_of_busy hb]; rfl
  host := (Lapse.pass hb).host
  subset r hr := by
    rw [s.pass_of_busy hb] at hr
    exact mem_of_hostAfter hr
  same := State.hostRead_congr s.pass_params s.pass_en s.pass_busy (Lapse.pass hb).report
    (by rw [s.pass_of_busy hb])
  reads := by
    have reads : s.pass.io.reads = s.serve.io.reads := by rw [s.pass_of_busy hb]
    rw [reads, State.serve_io_reads]
    split
    next a m head =>
      refine ⟨[_], rfl, fun r hr => ?_⟩
      obtain rfl := List.mem_singleton.mp hr
      exact ⟨⟨0, by simp, by simp⟩, a, m, List.mem_of_mem_head? head, rfl⟩
    next => exact ⟨[], rfl, by simp⟩
  answered j a m hj _ hread := by
    obtain rfl : j = 0 := by omega
    have head : s.io.host.head? = some (.read a m) := by rw [List.head?_eq_getElem?, hread]
    rw [s.pass_of_busy hb, State.serve_io_reads, head]
    simp

/-! ### Every operation is polled -/

/-- Polling from start to end. -/
def StaysPolled (s t : State) : Prop := s.busy = true → t.busy = true ∧ ∃ n, Polled s t n

/-- Polling up to a reset. -/
def PolledToReset (s t : State) : Prop :=
  s.busy = true → ∃ u n, Polled s u n ∧ t = u.applyReset

theorem staysPolled_of_hidden {s t : State} (hio : t.io = s.io) (hb : t.busy = s.busy)
    (hsame : ∀ a m, t.hostRead a m = s.hostRead a m) : StaysPolled s t :=
  fun h => ⟨hb.trans h, 0, .of_hidden hio hsame⟩

theorem readKept_staysPolled : ReadKept StaysPolled PolledToReset where
  refl s hb := ⟨hb, 0, .refl s⟩
  trans _ _ _ h h' hb := by
    obtain ⟨hb', n, first⟩ := h hb
    obtain ⟨hb'', n', second⟩ := h' hb'
    exact ⟨hb'', n + n', first.trans second⟩
  reset _ _ _ h h' hb := by
    obtain ⟨hb', n, first⟩ := h hb
    obtain ⟨u, n', second, rfl⟩ := h' hb'
    exact ⟨u, n + n', first.trans second, rfl⟩
  pass s hb := ⟨by rw [s.pass_busy, hb], 1, polled_pass hb⟩
  applyReset s _ := ⟨s, 0, .refl s, rfl⟩
  tS _ := staysPolled_of_hidden rfl rfl (State.hostRead_congr rfl rfl rfl rfl rfl)
  t0 _ _ := staysPolled_of_hidden rfl rfl (State.hostRead_congr rfl rfl rfl rfl rfl)
  shreg _ _ := staysPolled_of_hidden rfl rfl (State.hostRead_congr rfl rfl rfl rfl rfl)
  seqBit _ _ := staysPolled_of_hidden rfl rfl (State.hostRead_congr rfl rfl rfl rfl rfl)
  txd _ _ := staysPolled_of_hidden rfl rfl (State.hostRead_congr rfl rfl rfl rfl rfl)
  work _ _ := staysPolled_of_hidden rfl rfl (State.hostRead_congr rfl rfl rfl rfl rfl)
  owed _ _ := staysPolled_of_hidden rfl rfl (State.hostRead_congr rfl rfl rfl rfl rfl)
  seq _ _ := staysPolled_of_hidden rfl rfl (State.hostRead_congr rfl rfl rfl rfl rfl)

theorem writeKept_staysPolled : WriteKept StaysPolled PolledToReset where
  toCodecKept := readKept_staysPolled.toCodecKept
  txd := readKept_staysPolled.txd
  hswait _ _ := staysPolled_of_hidden rfl rfl (State.hostRead_congr rfl rfl rfl rfl rfl)
  seq := readKept_staysPolled.seq

/-- The ticks of an operation, from its acceptance to its end, or to the tick of a reset. -/
theorem exec_polled {i : Instr} {s t : State} (h : exec i s = .next t) :
    ∃ u n, Polled s.accept u n ∧
      (t.io = u.io ∨ pseudocode i s.accept = .error .reset t ∧ t.io = u.applyReset.io) := by
  have of_keeps : Keeps StaysPolled PolledToReset (pseudocode i) → ∃ u n, Polled s.accept u n ∧
      (t.io = u.io ∨ pseudocode i s.accept = .error .reset t ∧ t.io = u.applyReset.io) := by
    intro hk
    obtain ⟨ok, raised, hung, reset⟩ := hk s.accept
    rw [exec_eq_operate] at h
    obtain ⟨r, u, hu, rfl⟩ | ⟨e, u, hu, rfl⟩ | ht | ht := operate_cases s _ h
    · obtain ⟨-, n, polled⟩ := ok r u hu rfl
      exact ⟨u, n, polled, .inl rfl⟩
    · obtain ⟨-, n, polled⟩ := raised e u hu rfl
      exact ⟨u, n, polled, .inl rfl⟩
    · obtain ⟨u, n, polled, rfl⟩ := reset t ht rfl
      exact ⟨u, n, polled, .inr ⟨ht, rfl⟩⟩
    · obtain ⟨-, n, polled⟩ := hung t ht rfl
      exact ⟨t, n, polled, .inl rfl⟩
  cases i with
  | enable =>
    rw [exec_enable_eq] at h
    cases h
    exact ⟨s.accept, 0, .refl _, .inl rfl⟩
  | disable =>
    rw [exec_disable_eq] at h
    cases h
    exact ⟨s.accept, 0, .refl _, .inl rfl⟩
  | readmsg =>
    obtain ⟨u, -, kept, hu⟩ | ⟨e, u, hu, kept, reset⟩ := readMsg_ends readKept_staysPolled s.accept
    · change operate readMsg s = .next t at h
      rw [operate_of_ok hu] at h
      cases h
      obtain ⟨-, n, polled⟩ := kept rfl
      exact ⟨u, n, polled, .inl rfl⟩
    · have whole : pseudocode .readmsg s.accept = .error e u := hu
      have io := io_of_operate ((exec_eq_operate _ _).symm.trans h)
      rw [whole] at io
      by_cases he : e = .reset
      · subst he
        obtain ⟨v, n, polled, rfl⟩ := reset rfl rfl
        rw [exec_eq_operate, operate_of_reset whole] at h
        cases h
        exact ⟨v, n, polled, .inr ⟨whole, rfl⟩⟩
      · obtain ⟨-, n, polled⟩ := kept he rfl
        exact ⟨u, n, polled, .inl io⟩
  | writemsg => exact of_keeps (keeps_writeMsg writeKept_staysPolled)
  | isen | busfree | rxstart | rxbit | rxbits _ | rxack | txstart | txbit _ | txbits _ _ | txack _ =>
    exact of_keeps (keeps_gate_codec readKept_staysPolled.toCodecKept readKept_staysPolled.txd nofun
      nofun nofun)

/-- Settles O57: such a read belongs to a polled tick. -/
theorem readsDuringAnOperation : Obligations.ReadsDuringAnOperation := by
  intro i s t h
  obtain ⟨u, n, polled, end_⟩ := exec_polled h
  obtain ⟨new, hnew, hreads⟩ := polled.reads
  have atEnd : t.io.reads = u.io.reads ∧ u.io.pins.length ≤ t.io.pins.length := by
    obtain io | ⟨-, io⟩ := end_
    · rw [io]
      exact ⟨rfl, le_rfl⟩
    · rw [io]
      exact ⟨rfl, by simp⟩
  obtain ⟨reads, pins⟩ := atEnd
  refine ⟨new, reads.trans hnew, fun r hr => ?_⟩
  obtain ⟨⟨k, hk, tick⟩, hdata⟩ := hreads r hr
  have ticks : u.io.pins.length = s.io.pins.length + n := polled.pins
  exact ⟨⟨k, tick, by omega⟩, hdata⟩

/-- Settles O56: a transmission is polled in every tick of its waveform. -/
theorem statusReadsBusyDuringTransmission : Obligations.StatusReadsBusyDuringTransmission := by
  intro i s t w j hwf hi hj hn hw hread h
  obtain ⟨t', completes, -⟩ := completes_of_transmitWave hwf hi hn
  obtain rfl : t' = t := by
    have answers := completes.answers
    rw [h] at answers
    cases answers
    rfl
  obtain ⟨u, n, polled, io | ⟨reset, -⟩⟩ := exec_polled h
  · have ticks : n = w.length := by
      have pins := completes.ran.pins
      have polledPins : u.io.pins.length = s.io.pins.length + n := polled.pins
      rw [io] at pins
      rw [pins] at polledPins
      simp at polledPins
      omega
    have answered := polled.answered j 0x004 4 (ticks ▸ hj) hw hread
    have status : s.accept.hostRead 0x004 4 = if s.en then 3 else 2 := by
      rw [State.hostRead_status, State.statusWord, State.accept_en, State.accept_busy,
        State.accept_resValid, State.accept_resOk]
      cases s.en <;> decide
    rw [status] at answered
    rw [io]
    exact answered
  · exact absurd reset (not_reset_of_resValid completes.reports.resValid)

end Sys2Proof.Machine
end

section
/-! The positions of pulses seen from a later tick, and pieces of pseudocode that stand before the wait for
a pulse (41_codec_receive.md R120, R121; 70_reset_and_hazards.md R254). -/

namespace Sys2Proof.Machine

/-! ### The line seen from a later tick -/

section
variable {p : Params} {s t : State} {w : List Level} {o n : Nat}

theorem Spent.rxAt_add (hst : Spent s t w) (o k : Nat) : t.rxAt (o + k) = s.rxAt (w.length + o + k) := by
  rw [hst.rxAt, Nat.add_assoc]

theorem PulseAt.later {g H : Nat} (h : PulseAt p s.rxAt (w.length + o) g H) (hst : Spent s t w) :
    PulseAt p t.rxAt o g H where
  gap k hk := by rw [hst.rxAt_add, h.gap k hk]
  active k hk := by rw [Nat.add_assoc, hst.rxAt_add, ← Nat.add_assoc, h.active k hk]
  stop := by rw [Nat.add_assoc, hst.rxAt_add, ← Nat.add_assoc, h.stop]
  pos := h.pos
  startInTime := h.startInTime
  stopInTime := h.stopInTime
  clock := h.clock

theorem BitAt.later {b : Bool} (h : BitAt p s.rxAt b (w.length + o) n) (hst : Spent s t w) :
    BitAt p t.rxAt b o n := by
  obtain ⟨g, H, pulse, symbol, hn⟩ := h
  exact ⟨g, H, pulse.later hst, symbol, hn⟩

theorem EndlessAt.later (h : EndlessAt p s.rxAt (w.length + o)) (hst : Spent s t w) :
    EndlessAt p t.rxAt o := by
  obtain ⟨hmax, hno | ⟨g, hgap, hstuck⟩⟩ := h
  · exact ⟨hmax, .inl fun k => by rw [hst.rxAt_add, hno k]⟩
  · refine ⟨hmax, .inr ⟨g, fun k hk => by rw [hst.rxAt_add, hgap k hk], fun k => ?_⟩⟩
    rw [Nat.add_assoc, hst.rxAt_add, ← Nat.add_assoc, hstuck k]

theorem FieldAt.later {owed : Bool} {v : Half} {width : Nat} {w' : List Level}
    (h : FieldAt p s.rxAt owed v width (w.length + o) w') (hst : Spent s t w) :
    FieldAt p t.rxAt owed v width o w' := by
  obtain ⟨a, b, bits, parity, hw⟩ := h
  exact ⟨a, b, BitsAt.shift hst _ bits, BitAt.later (by rwa [← Nat.add_assoc]) hst, hw⟩

theorem FieldsAt.later {owed : Bool} (hst : Spent s t w) (fs : List (Half × Nat)) :
    ∀ {o : Nat} {w' : List Level}, FieldsAt p s.rxAt owed fs (w.length + o) w' →
      FieldsAt p t.rxAt owed fs o w' := by
  induction fs with
  | nil => exact fun h => h
  | cons f fs ih =>
    rintro o w' ⟨w₁, w₂, first, rest, rfl⟩
    exact ⟨w₁, w₂, first.later hst, ih (by rwa [← Nat.add_assoc]), rfl⟩

theorem AnsweredAt.later (hst : Spent s t w) (fs : List (Half × Nat)) :
    ∀ {o : Nat} {w' : List Level}, AnsweredAt p s.rxAt fs (w.length + o) w' →
      AnsweredAt p t.rxAt fs o w' := by
  induction fs with
  | nil => exact fun h => h
  | cons f fs ih =>
    rintro o w' ⟨n, w₂, answer, rest, rfl⟩
    refine ⟨n, w₂, BitAt.later (by rwa [← Nat.add_assoc]) hst, ih ?_, rfl⟩
    rwa [← Nat.add_assoc, ← Nat.add_assoc]

end

/-! ### Ticks after which `tx` is as before -/

/-- From `s` to `t` the ticks of `w` passed, and `TXD` is as it was in `s`. -/
structure Through (s t : State) (w : List Level) : Prop extends Spent s t w where
  txd : t.txd = s.txd

theorem Through.trans {s t u : State} {w w' : List Level} (h : Through s t w) (h' : Through t u w') :
    Through s u (w ++ w') :=
  { h.toSpent.trans h'.toSpent with txd := h'.txd.trans h.txd }

theorem Through.refl (s : State) : Through s s [] := { Spent.refl s with txd := rfl }

/-- Registers other than `TXD` and the gate may be written in between. -/
theorem Through.of_io {s t : State} (hp : t.params = s.params) (he : t.en = s.en)
    (hb : t.busy = s.busy) (hi : t.io = s.io) (htx : t.txd = s.txd) : Through s t [] :=
  { Spent.of_io hp he hb hi with txd := htx }

/-- Ticks in which the line was not driven, on from such ticks. -/
theorem Through.rest {s t u : State} {w : List Level} {n : Nat} (h : Through s t w)
    (hst : Spent t u (List.replicate n t.txd)) (htx : u.txd = t.txd) :
    Through s u (w ++ List.replicate n s.txd) :=
  h.trans { h.txd ▸ hst with txd := htx }

/-- A line at rest that stays so. -/
theorem Through.rests {s t : State} {n : Nat} (hst : Spent s t (List.replicate n s.txd))
    (htx : t.txd = s.txd) : Through s t (List.replicate n s.txd) :=
  { hst with txd := htx }

theorem replicate_add {α : Type} (m n : Nat) (x : α) :
    List.replicate (m + n) x = List.replicate m x ++ List.replicate n x :=
  (List.replicate_append_replicate ..).symm

/-! ### Before the wait for a pulse -/

section
variable {α β : Type} {pl : Place} {s t : State} {w w' : List Level}

/-- In `s` the piece goes through the ticks of `w` and then waits for a pulse. -/
def Awaits (m : Engine α) (pl : Place) (s : State) (w : List Level) : Prop :=
  ∃ (t : State) (f : Nat → Engine α), m s = (rxPulse pl >>= f) t ∧ Through s t w

theorem Awaits.bind {m : Engine α} (h : Awaits m pl s w) (g : α → Engine β) :
    Awaits (m >>= g) pl s w := by
  obtain ⟨t, f, run, through⟩ := h
  refine ⟨t, fun d => f d >>= g, ?_, through⟩
  rw [engine_bind, run, ← engine_bind, bind_assoc]

/-- A piece that completes, and then one that waits. -/
theorem Awaits.after {x : Engine α} {f : α → Engine β} {a : α} (hx : x s = .ok a t)
    (ht : Through s t w) (h : Awaits (f a) pl t w') : Awaits (x >>= f) pl s (w ++ w') := by
  obtain ⟨u, g, run, through⟩ := h
  exact ⟨u, g, (engine_bind_ok hx).trans run, ht.trans through⟩

theorem Awaits.of_modify {f : State → State} {m : Engine β} (ht : Through s (f s) [])
    (h : Awaits m pl (f s) w) : Awaits (modify f >>= fun _ => m) pl s w :=
  Awaits.after (engine_modify s f) ht h

theorem awaits_rxPulse (pl : Place) (s : State) : Awaits (rxPulse pl) pl s [] :=
  ⟨s, pure, by rw [bind_pure], .refl s⟩

theorem awaits_rxStart (s : State) : Awaits rxStart ⟨.start, 0⟩ s [] := (awaits_rxPulse _ s).bind _

theorem awaits_rxBit (pl : Place) (s : State) : Awaits (rxBit pl) pl s [] := (awaits_rxPulse pl s).bind _

/-- The wait meets its deadline (41_codec_receive.md R120, R121). -/
theorem Awaits.timeout {m : Engine α} {n : Nat} (h : Awaits m pl s w) (hb : s.busy = true)
    (htime : TimeoutAt s.params s.rxAt w.length n) (hn : s.NoReset (w.length + n)) :
    ∃ t, m s = .error (.raised ⟨.timeout, pl.field, pl.index⟩) t ∧
      Through s t (w ++ List.replicate n s.txd) := by
  obtain ⟨t, f, run, through⟩ := h
  have time : TimeoutAt t.params t.rxAt 0 n := through.params ▸ htime.shift through.toSpent rfl
  obtain ⟨u, hu, hst, hf⟩ := rxPulse_timeout pl (through.busy.trans hb) time (through.quiet n hn)
  exact ⟨u, run.trans (engine_bind_error hu), through.rest hst (by rw [hf])⟩

/-- The wait never ends (70_reset_and_hazards.md R254). -/
theorem Awaits.hung {m : Engine α} (h : Awaits m pl s w) (hb : s.busy = true)
    (hend : EndlessAt s.params s.rxAt w.length) (hn : .reset ∉ s.io.host) :
    ∃ t n, m s = .error .hung t ∧ Through s t (w ++ List.replicate n s.txd) ∧ t.evt = none ∧
      t.io.rx.script = [] := by
  obtain ⟨t, f, run, through⟩ := h
  have endless : EndlessAt t.params t.rxAt 0 :=
    through.params ▸ EndlessAt.later (by simpa using hend) through.toSpent
  obtain ⟨u, n, hu, hst, hf, script⟩ := rxPulse_hung pl (through.busy.trans hb)
    (fun n => through.quiet n (.of_not_mem hn _)) endless
  exact ⟨u, n, run.trans (engine_bind_error hu), through.rest hst (by rw [hf]), by rw [hf], script⟩

end

/-! ### After some bits of a value -/

/-- The loop of `RxBits` with bits on the line for its first turns. -/
theorem rxBitsLoop_partial (pl : Place) (k : Nat) (bs : List Bool) : ∀ {n : Nat} {s : State},
    s.busy = true → BitsAt s.params s.rxAt bs 0 n → s.NoReset n →
    ∃ t, rxBitsLoop pl (k + bs.length) s = rxBitsLoop pl k t ∧
      Through s t (List.replicate n s.txd) := by
  induction bs with
  | nil =>
    intro n s _ h _
    cases h
    exact ⟨s, rfl, .refl s⟩
  | cons b bs ih =>
    intro n s hb h hn
    obtain ⟨x, y, hbit, hbits, rfl⟩ := h
    obtain ⟨t, ht, hst, hf⟩ := rxBit_of_bitAt pl hb hbit (hn.mono (Nat.le_add_right _ _))
    obtain ⟨u, hu, hsu, hg, -⟩ := setSeqBit_spec (k + bs.length) { t with shreg := shiftIn t.shreg b }
    have txd : u.txd = s.txd := by rw [hg, hf]
    have through : Through s u (List.replicate x s.txd) := by
      have := hst.trans ((Spent.of_io (s := t) (t := { t with shreg := shiftIn t.shreg b })
        rfl rfl rfl rfl).trans hsu)
      rw [List.append_nil, List.append_nil] at this
      exact .rests this txd
    obtain ⟨v, hv, rest⟩ := ih (through.busy.trans hb)
      (through.params ▸ BitsAt.shift through.toSpent bs (by simpa using hbits))
      (through.quiet y (by rwa [List.length_replicate]))
    refine ⟨v, ?_, ?_⟩
    · rw [List.length_cons, ← Nat.add_assoc, rxBitsLoop, engine_bind_ok ht,
        engine_bind_ok (engine_modify t _), engine_bind_ok hu, hv]
    · rw [replicate_add]
      exact through.trans (txd ▸ rest)

/-- `RxBits` after some of its bits waits for the next. -/
theorem awaits_rxBits (pl : Place) {bs : List Bool} {c n : Nat} {s : State} (hlen : bs.length < c)
    (hb : s.busy = true) (hbits : BitsAt s.params s.rxAt bs 0 n) (hn : s.NoReset n) :
    Awaits (rxBits c pl) pl s (List.replicate n s.txd) := by
  obtain ⟨k, rfl⟩ : ∃ k, c = k + 1 + bs.length := ⟨c - bs.length - 1, by omega⟩
  obtain ⟨t, ht, hst, hf, -⟩ := setSeqBit_spec (k + 1 + bs.length) { s with shreg := 0 }
  have start : Through s t [] := by
    have := (Spent.of_io (s := s) (t := { s with shreg := 0 }) rfl rfl rfl rfl).trans hst
    exact { this with txd := by rw [hf] }
  obtain ⟨u, hu, through⟩ := rxBitsLoop_partial pl (k + 1) bs (start.busy.trans hb)
    (start.params ▸ BitsAt.shift start.toSpent bs (by simpa using hbits))
    (start.quiet n (by simpa using hn))
  obtain ⟨u', f, run, rest⟩ : Awaits (rxBitsLoop pl (k + 1)) pl u [] := (awaits_rxBit pl u).bind _
  have loop : Awaits (rxBitsLoop pl (k + 1 + bs.length)) pl t (List.replicate n s.txd) :=
    ⟨u', f, hu.trans run, by simpa [start.txd] using through.trans rest⟩
  exact Awaits.of_modify (f := fun s => { s with shreg := 0 }) (.of_io rfl rfl rfl rfl rfl)
    (Awaits.after ht { hst with txd := by rw [hf] } (loop.bind _))

/-- `RxField` after some of its value bits, or all of them, waits for the next bit
(43_framer_common.md R157). -/
theorem awaits_rxField (field : ErrField) (index : Byte) {bs : List Bool} {width n : Nat} {s : State}
    (hlen : bs.length ≤ width) (hb : s.busy = true) (hbits : BitsAt s.params s.rxAt bs 0 n)
    (hn : s.NoReset n) :
    Awaits (rxField width field index) ⟨field, index⟩ s (List.replicate n s.txd) := by
  by_cases whole : bs.length = width
  · subst whole
    obtain ⟨t, ht, hst, hf, -⟩ := rxBits_spec ⟨field, index⟩ bs hb hbits hn
    rw [← List.append_nil (List.replicate n s.txd)]
    exact Awaits.after ht (.rests hst (by rw [hf])) ((awaits_rxBit ⟨field, index⟩ t).bind _)
  · exact (awaits_rxBits ⟨field, index⟩ (by omega) hb hbits hn).bind _

end Sys2Proof.Machine
end

section
/-! What each part of READMSG does with what is on the line (44_framer_read.md R173 to R178). -/

namespace Sys2Proof.Machine

/-! ### What a reader needs of its parameters -/

/-- The start window is well defined, and so are the answers that are owed. -/
structure CanRead (p : Params) (m : Message) : Prop where
  window : p.startTol ≤ p.tStartHigh
  answers : owedFor p m.bt m.slave = true → p.wf = true

theorem startTol_le_of_wf {p : Params} (hwf : p.wf = true) : p.startTol ≤ p.tStartHigh := by
  obtain ⟨-, -, -, htol, -⟩ := (wf_iff p).mp hwf
  exact htol

theorem CanRead.of_wf {p : Params} (hwf : p.wf = true) (m : Message) : CanRead p m :=
  ⟨startTol_le_of_wf hwf, fun _ => hwf⟩

/-! ### The start bit and the broadcast-type bit -/

/-- A pulse in the start window is a start bit; any other is an error at once (44_framer_read.md R173). -/
theorem readStart_spec {g H : Nat} {s : State} (htol : s.params.startTol ≤ s.params.tStartHigh)
    (hb : s.busy = true) (hp : PulseAt s.params s.rxAt 0 g H) (hn : s.NoReset (g + H + 1)) :
    ∃ t, Through s t (List.replicate (g + H + 1) s.txd) ∧ t.evt = none ∧
      (InStartWindow s.params H → readStart s = .ok () t) ∧
      (¬ InStartWindow s.params H → readStart s = .error (.raised ⟨.notAStartBit, .start, 0⟩) t) := by
  obtain ⟨t, ht, hst, hf⟩ :=
    rxStart_spec (s := { s with seq := { s.seq with state := .scanStart } }) hb hp hn
  have through : Through s t (List.replicate (g + H + 1) s.txd) := by
    have := (Spent.of_io (s := s) (t := { s with seq := { s.seq with state := .scanStart } })
      rfl rfl rfl rfl).trans hst
    exact { this with txd := by rw [hf] }
  have run : readStart s = (if isStart s.params H then pure () else raise .notAStartBit .start 0 :
      Engine Unit) t := by
    rw [readStart, setSeq, engine_bind_ok (engine_modify s _), engine_bind_ok ht]
  refine ⟨t, through, by rw [hf], fun hin => ?_, fun hout => ?_⟩
  · rw [run, if_pos ((isStart_iff _ _ htol).mpr hin), engine_pure]
  · rw [run, if_neg fun hin => hout ((isStart_iff _ _ htol).mp hin), raise_apply]

/-- The broadcast-type bit gives the type (44_framer_read.md R174). -/
theorem readType_spec {b : Bool} {n : Nat} {s : State} (hb : s.busy = true)
    (hp : BitAt s.params s.rxAt b 0 n) (hn : s.NoReset n) :
    ∃ t, readType s = .ok () t ∧ Through s t (List.replicate n s.txd) ∧ t.evt = none ∧
      t.work.bt = bTypeOfSymbol s.params b := by
  obtain ⟨t, ht, hst, hf⟩ := rxBit_of_bitAt ⟨.broadcastBit, 0⟩
    (s := { s with seq := { s.seq with state := .broadcastBit } }) hb hp hn
  have through := ((Spent.of_io (s := s) (t := { s with seq := { s.seq with state := .broadcastBit } })
    rfl rfl rfl rfl).trans hst).trans (Spent.of_io
      (t := { t with work := { t.work with bt := bTypeOfSymbol t.params b } }) rfl rfl rfl rfl)
  rw [List.append_nil, List.nil_append] at through
  refine ⟨_, ?_, { through with txd := ?_ }, ?_, ?_⟩
  · rw [readType, setSeq, engine_bind_ok (engine_modify s _), engine_bind_ok ht,
      engine_bind_ok (engine_get t), setWork, engine_modify]
  · rw [hf]
  · rw [hf]
  · rw [hst.params]

/-- The exchange of the master field (44_framer_read.md R175). -/
def readMaster : Engine Unit := do
  setSeq .masterField
  let v ← rxField 12 .master 0
  setWork fun w => { w with master := v.setWidth 12 }

theorem readHead_eq : readHead = readStart >>= fun _ => readType >>= fun _ => readMaster := rfl

/-- After a start bit and a broadcast-type bit the master field is received. -/
theorem readHead_opening {g H a : Nat} {b : Bool} {s : State}
    (htol : s.params.startTol ≤ s.params.tStartHigh) (hb : s.busy = true)
    (hp : PulseAt s.params s.rxAt 0 g H) (hin : InStartWindow s.params H)
    (hbit : BitAt s.params s.rxAt b (g + H + 1) a) (hn : s.NoReset (g + H + 1 + a)) :
    ∃ t, readHead s = readMaster t ∧ Through s t (List.replicate (g + H + 1 + a) s.txd) ∧
      t.evt = none ∧ t.work.bt = bTypeOfSymbol s.params b := by
  obtain ⟨t, ht, -, run, -⟩ := readStart_spec htol hb hp (hn.mono (by omega))
  have later : BitAt t.params t.rxAt b 0 a := by
    rw [ht.params]
    exact BitAt.later (by simpa using hbit) ht.toSpent
  obtain ⟨u, hu, htu, quiet, type⟩ := readType_spec (ht.busy.trans hb) later
    (ht.quiet a (by rwa [List.length_replicate]))
  refine ⟨u, ?_, ?_, quiet, by rw [type, ht.params]⟩
  · rw [readHead_eq, engine_bind_ok (run hin), engine_bind_ok hu]
  · rw [replicate_add]
    exact ht.trans (ht.txd ▸ htu)

/-! ### The exchange of a field -/

/-- An exchange needs the timing of an answer only where it owes one. -/
theorem rxField_received (field : ErrField) (index : Byte) {v : Half} {n : Nat} {w : List Level}
    {s : State} (hp : owedAt s field v = true → s.params.wf = true) (h16 : n ≤ 16)
    (hv : v.toNat < 2 ^ n) (hb : s.busy = true) (htx : s.txd = .inactive)
    (hfield : FieldAt s.params s.rxAt (owedAt s field v) v n 0 w) (hn : s.NoReset w.length) :
    ∃ t, rxField n field index s = .ok v t ∧ Spent s t w ∧
      t = { (latched s field v) with
        t0 := t.t0, tS := t.tS, shreg := t.shreg, seq := t.seq, evt := none, io := t.io } := by
  cases howed : owedAt s field v with
  | true =>
    obtain ⟨t, ht, hst, hf, -⟩ := rxField_spec field index (hp howed) h16 hv hb htx hfield hn
    exact ⟨t, ht, hst, hf⟩
  | false =>
    obtain ⟨a, b, hbits, hpar, rfl⟩ := hfield
    rw [howed, if_neg Bool.false_ne_true, List.append_nil] at hn ⊢
    rw [List.length_replicate] at hn
    obtain ⟨t, hst, hf, -, -, run⟩ := rxField_bits field index h16 hv hb hbits
      (by rwa [Nat.zero_add] at hpar) hn
    rw [if_pos rfl, howed] at run
    exact ⟨t, run, htx ▸ hst, hf⟩


/-- The error comes after the answer, if one is owed (43_framer_common.md R157). -/
theorem rxField_parityError (field : ErrField) (index : Byte) {v : Half} {n a b : Nat} {s : State}
    (hp : owedAt s field v = true → s.params.wf = true) (h16 : n ≤ 16) (hv : v.toNat < 2 ^ n)
    (hb : s.busy = true) (htx : s.txd = .inactive) (hbits : BitsAt s.params s.rxAt (bitsOf v n) 0 a)
    (hpar : BitAt s.params s.rxAt (!parity v n) a b)
    (hn : s.NoReset (a + b + if owedAt s field v then s.params.tAckDelay + s.params.tBit else 0)) :
    ∃ t, rxField n field index s = .error (.raised ⟨.parityError, field, index⟩) t ∧
      Through s t (List.replicate (a + b) .inactive ++
        if owedAt s field v then answerWave s.params .rejected else []) := by
  obtain ⟨t, hst, hf, -, -, run⟩ := rxField_bits field index h16 hv hb hbits hpar
    (hn.mono (Nat.le_add_right _ _))
  rw [if_neg (by simp)] at run
  have rests : t.txd = .inactive := by
    rw [hf, latched]
    split <;> exact htx
  have through : Through s t (List.replicate (a + b) .inactive) :=
    { htx ▸ hst with txd := by rw [rests, htx] }
  cases howed : owedAt s field v with
  | false =>
    rw [howed] at run
    exact ⟨t, run, by simpa using through⟩
  | true =>
    rw [howed] at run hn
    obtain ⟨u, hu, htu, hg⟩ := answer_spec .rejected (s := t) (by rw [hst.params, hp howed])
      (hst.busy.trans hb) (through.quiet _ (by rw [List.length_replicate, hst.params]; exact hn))
    rw [show onlyIf true (answer .rejected) = answer .rejected from rfl, hu] at run
    refine ⟨u, run, through.trans ?_⟩
    exact { hst.params ▸ htu with txd := by rw [hg, rests] }

/-! ### A reader that holds the head and some fields of a Message -/

/-- READMSG holds the head and the first `k` fields of `m`. -/
structure Reading (m : Message) (k : Nat) (s : State) : Prop where
  can : CanRead s.params m
  busy : s.busy = true
  txd : s.txd = .inactive
  quiet : s.evt = none
  work : SameUpTo (k + 2) s.work m
  owed : 1 ≤ k → s.owed = owedFor s.params m.bt m.slave

theorem setWidth_of_setWidth {n k : Nat} (h : n ≤ k) (v : BitVec n) : (v.setWidth k).setWidth n = v := by
  rw [BitVec.setWidth_setWidth_of_le v h, BitVec.setWidth_eq]

section
variable {m : Message} {k : Nat} {s : State}

/-- Whether the answer to the next field is owed. -/
theorem Reading.owedAt_eq (h : Reading m k s) :
    owedAt s (eligiblePlace k).1 (eligibleValue m k) = owedFor s.params m.bt m.slave := by
  have notMaster : decide ((eligiblePlace k).1 ≠ .master) = true := by simp [eligiblePlace_ne_master]
  rw [owedAt, notMaster, Bool.and_true]
  split
  next slave =>
    obtain rfl := (eligiblePlace_eq_slave_iff k).mp slave
    rw [h.work.bt (by omega), eligibleValue, setWidth_of_setWidth (by omega)]
  next other =>
    have later : k ≠ 0 := fun hk => other ((eligiblePlace_eq_slave_iff k).mpr hk)
    exact h.owed (by omega)

/-- An answer that is owed can be timed. -/
theorem Reading.answers (h : Reading m k s)
    (owed : owedAt s (eligiblePlace k).1 (eligibleValue m k) = true) : s.params.wf = true :=
  h.can.answers (h.owedAt_eq ▸ owed)

/-- After the next field `OWED` is decided (43_framer_common.md R156). -/
theorem Reading.latched_owed (h : Reading m k s) :
    (latched s (eligiblePlace k).1 (eligibleValue m k)).owed = owedFor s.params m.bt m.slave := by
  have owed := h.owedAt_eq
  rw [owedAt] at owed
  rw [← owed, latched]
  have notMaster : decide ((eligiblePlace k).1 ≠ .master) = true := by simp [eligiblePlace_ne_master]
  rw [notMaster, Bool.and_true]
  split <;> rfl

/-- The latch of the slave address is of no field received before. -/
theorem Reading.latched_work (h : Reading m k s) :
    SameUpTo (k + 2) (latched s (eligiblePlace k).1 (eligibleValue m k)).work m := by
  rw [latched]
  split
  next slave =>
    obtain rfl := (eligiblePlace_eq_slave_iff k).mp slave
    exact ⟨fun _ => h.work.bt (by omega), fun _ => h.work.master (by omega), by omega, by omega,
      by omega, by omega⟩
  next => exact h.work

theorem Message.setByte_byteAt (m : Message) (i : Nat) : m.setByte i (m.byteAt i) = m := by
  have payload : m.payload.setIfInBounds i (m.byteAt i) = m.payload := by
    apply Vector.ext
    intro j hj
    rw [Vector.getElem_setIfInBounds]
    split
    next same =>
      subst same
      simp [Message.byteAt, hj]
    next => rfl
  rw [Message.setByte, payload]

/-- What a field carries is what the Message holds. -/
theorem storeEligible_eligibleValue (legal : legalLen m.len = true) :
    storeEligible (eligibleValue m k) k m = m := by
  match k with
  | 0 => simp [storeEligible, eligibleValue]
  | 1 => simp [storeEligible, eligibleValue]
  | 2 => simp [storeEligible, eligibleValue, lenOfWire_wireOfLen legal]
  | i + 3 =>
    rw [storeEligible, eligibleValue, setWidth_of_setWidth (by omega)]
    exact m.setByte_byteAt i

theorem seqEligible_apply (k : Nat) (s : State) : ∃ q, seqEligible k s = .ok () { s with seq := q } := by
  match k with
  | 0 | 1 | 2 | _ + 3 => exact ⟨_, rfl⟩

/-- The next field of the Message is received and answered (44_framer_read.md R176 to R178). -/
theorem readEligible_spec (h : Reading m k s) (legal : legalLen m.len = true) {w : List Level}
    (hfield : FieldAt s.params s.rxAt (owedFor s.params m.bt m.slave) (eligibleValue m k)
      (eligibleWidth k) 0 w) (hn : s.NoReset w.length) :
    ∃ t, readEligible k s = .ok () t ∧ Through s t w ∧ Reading m (k + 1) t := by
  obtain ⟨q, hq⟩ := seqEligible_apply k s
  obtain ⟨t, ht, hst, hf⟩ := rxField_received (eligiblePlace k).1 (eligiblePlace k).2
    (s := { s with seq := q }) (fun owed => h.answers owed) (eligibleWidth_le k) (eligibleValue_lt m k)
    h.busy h.txd
    (h.owedAt_eq ▸ hfield) hn
  have spent := ((Spent.of_io (s := s) (t := { s with seq := q }) rfl rfl rfl rfl).trans hst).trans
    (Spent.of_io (t := { t with work := storeEligible (eligibleValue m k) k t.work }) rfl rfl rfl rfl)
  rw [List.append_nil, List.nil_append] at spent
  have latchedSeq : latched { s with seq := q } (eligiblePlace k).1 (eligibleValue m k) =
      { (latched s (eligiblePlace k).1 (eligibleValue m k)) with seq := q } := by
    rw [latched, latched]
    split <;> rfl
  have rests : t.txd = .inactive := by
    rw [hf, latched]
    split <;> exact h.txd
  have work : t.work = (latched s (eligiblePlace k).1 (eligibleValue m k)).work := by
    rw [hf, latchedSeq]
  have owed : t.owed = owedFor s.params m.bt m.slave := by
    rw [hf, latchedSeq]
    exact h.latched_owed
  refine ⟨_, ?_, { spent with txd := rests.trans h.txd.symm }, ?_⟩
  · rw [readEligible, engine_bind_ok hq, engine_bind_ok ht, setWork, engine_modify]
  · refine ⟨spent.params ▸ h.can, spent.busy.trans h.busy, rests, by rw [hf], ?_, fun _ => ?_⟩
    · have stored := SameUpTo.store (eligibleValue m k) k (work ▸ h.latched_work)
      rwa [storeEligible_eligibleValue legal] at stored
    · rw [spent.params]
      exact owed

/-- A run of fields (44_framer_read.md R176 to R178). -/
theorem readFields_spec (legal : legalLen m.len = true) (n : Nat) : ∀ {k : Nat} {s : State}
    {w : List Level}, Reading m k s → k + n ≤ 3 + m.len.toNat →
    FieldsAt s.params s.rxAt (owedFor s.params m.bt m.slave) (((eligibleFields m).drop k).take n) 0 w →
    s.NoReset w.length →
    ∃ t, readFields n k s = .ok () t ∧ Through s t w ∧ Reading m (k + n) t := by
  induction n with
  | zero =>
    intro k s w h _ hfields _
    cases hfields
    exact ⟨s, rfl, .refl s, h⟩
  | succ n ih =>
    intro k s w h hk hfields hn
    rw [eligibleFields_drop m (by omega), List.take_succ_cons] at hfields
    obtain ⟨w₁, w₂, first, rest, rfl⟩ := hfields
    rw [List.length_append] at hn
    obtain ⟨t, ht, hst, reading⟩ := readEligible_spec h legal first (hn.mono (by omega))
    obtain ⟨u, hu, htu, done⟩ := ih reading (by omega)
      (hst.params ▸ FieldsAt.later hst.toSpent _ (by rwa [Nat.add_zero, ← Nat.zero_add w₁.length]))
      (hst.quiet _ hn)
    exact ⟨u, (engine_bind_ok ht).trans hu, hst.trans htu, by rwa [Nat.add_right_comm] at done⟩

end

/-! ### The head and the rest of a frame -/

/-- The head of a Message is received (44_framer_read.md R173 to R175). -/
theorem readHead_spec {m : Message} {n : Nat} {s : State} (can : CanRead s.params m)
    (hb : s.busy = true) (htx : s.txd = .inactive) (hhead : HeadAt s.params s.rxAt m n)
    (hn : s.NoReset n) :
    ∃ t, readHead s = .ok () t ∧ Through s t (List.replicate n .inactive) ∧ Reading m 0 t := by
  obtain ⟨g, H, a, w, hp, hin, hbit, hfield, rfl⟩ := hhead
  obtain ⟨t, ht, hst, -, type⟩ := readHead_opening can.window hb hp hin hbit (hn.mono (by omega))
  have length : (List.replicate (g + H + 1 + a) s.txd).length = g + H + 1 + a := List.length_replicate
  have unowed : owedAt ({ t with seq := { t.seq with state := .masterField } } : State) .master
      (m.master.setWidth 16) = false := by simp [owedAt]
  have master : FieldAt t.params t.rxAt false (m.master.setWidth 16) 12 0 w :=
    hst.params ▸ FieldAt.later (by rwa [length, Nat.add_zero]) hst.toSpent
  obtain ⟨u, hu, htu, hf⟩ := rxField_received .master 0
    (s := { t with seq := { t.seq with state := .masterField } })
    (fun owed => absurd (unowed ▸ owed) Bool.false_ne_true) (by omega)
    (by rw [BitVec.toNat_setWidth]; omega) (hst.busy.trans hb) (hst.txd.trans htx) (unowed ▸ master)
    (hst.quiet _ (by rwa [length]))
  have spent := (hst.toSpent.trans ((Spent.of_io (s := t)
    (t := { t with seq := { t.seq with state := .masterField } }) rfl rfl rfl rfl).trans htu)).trans
    (Spent.of_io (t := { u with work := { u.work with
      master := ((m.master.setWidth 16).setWidth 12 : BitVec 12) } }) rfl rfl rfl rfl)
  obtain ⟨x, y, -, -, rfl⟩ := master
  rw [if_neg Bool.false_ne_true, List.append_nil, List.append_nil, List.nil_append, htx,
    List.replicate_append_replicate] at spent
  rw [if_neg Bool.false_ne_true, List.append_nil, List.length_replicate]
  have rests : u.txd = .inactive := by
    rw [hf]
    exact hst.txd.trans htx
  refine ⟨_, ?_, { spent with txd := rests.trans htx.symm }, ?_⟩
  · rw [ht, readMaster, setSeq, engine_bind_ok (engine_modify t _), engine_bind_ok hu, setWork,
      engine_modify]
  · refine ⟨spent.params ▸ can, spent.busy.trans hb, rests, by rw [hf], ?_, by omega⟩
    refine ⟨fun _ => ?_, fun _ => setWidth_of_setWidth (n := 12) (k := 16) (by omega) _, by omega, by omega, by omega,
      by omega⟩
    have received : u.work.bt = t.work.bt := by
      rw [hf]
      rfl
    exact received.trans (type.trans (bTypeOfSymbol_symbolOfBType s.params m.bt))

/-- With three fields or more received, what is left is as long as the received length says. -/
theorem readRest_of_length {j : Nat} {s t : State} (hb : s.busy = true)
    (h : readFields (3 + j) 0 s = .ok () t) :
    ∃ u, readRest s = readFields t.work.len.toNat 3 u ∧ readFields j 3 u = .ok () t := by
  rw [readFields_add] at h
  obtain ⟨_, u, three, rest⟩ := engine_bind_eq_ok h
  have busy : u.busy = true := ((keeps_readFields readKept_msg 3 0 s).1 () u three hb).1
  have len : t.work.len = u.work.len := ((keeps_workLen_readFields j 0 u).1 () t rest busy).2
  refine ⟨u, ?_, rest⟩
  rw [readRest, engine_bind_ok three, engine_bind_ok (engine_get u), len]

/-- What is left of a frame after `k` of its fields: the next of them is received. -/
theorem readRest_resume {k : Nat} {len : BitVec 9} {s t : State} (hb : s.busy = true)
    (h : readFields k 0 s = .ok () t) (hlen : 3 ≤ k → t.work.len = len)
    (hk : k < 3 + len.toNat) :
    ∃ f : Unit → Engine Unit, readRest s = (readEligible k >>= f) t := by
  by_cases early : k < 3
  · have split : readFields 3 0 = readFields k 0 >>= fun _ => readFields (2 - k + 1) (0 + k) := by
      rw [← readFields_add]
      congr 1
      omega
    refine ⟨fun _ => readFields (2 - k) (k + 1) >>= fun _ =>
      get >>= fun s => readFields s.work.len.toNat 3, ?_⟩
    rw [readRest, split, bind_assoc, engine_bind_ok h, readFields, Nat.zero_add, bind_assoc]
  · obtain ⟨j, rfl⟩ : ∃ j, k = 3 + j := ⟨k - 3, by omega⟩
    obtain ⟨u, run, rest⟩ := readRest_of_length hb h
    have split : readFields len.toNat 3 =
        readFields j 3 >>= fun _ => readFields (len.toNat - j - 1 + 1) (3 + j) := by
      rw [← readFields_add]
      congr 1
      omega
    refine ⟨fun _ => readFields (len.toNat - j - 1) (3 + j + 1), ?_⟩
    rw [run, hlen (by omega), split, engine_bind_ok rest, readFields]

/-- Nothing is left after all fields. -/
theorem readRest_done {len : BitVec 9} {s t : State} (hb : s.busy = true)
    (h : readFields (3 + len.toNat) 0 s = .ok () t) (hlen : t.work.len = len) :
    readRest s = .ok () t := by
  obtain ⟨u, run, rest⟩ := readRest_of_length hb h
  rw [run, hlen, rest]

end Sys2Proof.Machine
end

section
/-! The statements about READMSG on given lines (44_framer_read.md R170 to R181). -/

namespace Sys2Proof.Machine

/-! ### From the reception of a frame to the operation -/

/-- READMSG at its start tick, accepted, with `OWED` cleared. -/
def State.toRead (s : State) : State := { s.accept with owed := false }

/-- What READMSG may change is all but the parameters, the gate and `HSWAIT`, and `SEQ` is `Idle`. -/
theorem onlyRead_of {s t : State} (hp : t.params = s.params) (he : t.en = s.en)
    (hh : t.hswait = s.hswait) (hi : t.seq.state = .idle) : s.OnlyRead t := by
  have seq : ({ t.seq with state := .idle } : Seq) = t.seq := by rw [← hi]
  unfold State.OnlyRead State.OnlyReception State.OnlyPulse State.OnlyResults
  rw [seq, ← hp, ← he, ← hh]

theorem onlyRead_of_reports {s t : State} {ok : Bool} {v : Half} {e : Err}
    (h : exec .readmsg s = .next t) (hr : t.Reports ok v e) : s.OnlyRead t :=
  have notReset := not_reset_of_resValid hr.resValid
  onlyRead_of (exec_keeps_params h) (exec_keeps_en h notReset nofun nofun)
    (exec_keeps_hswait h notReset nofun) hr.idle

section
variable {s u : State} {w : List Level}

/-- An error in the reception of the frame is READMSG's, and the Message stays. -/
theorem read_aborts {c : ErrCode} {f : ErrField} {x : Byte} (hen : s.en = true)
    (h : readFrame s.toRead = .error (.raised ⟨c, f, x⟩) u) (hst : Through s.toRead u w) :
    ∃ t, Aborts .readmsg s t w c f x ∧ t.msg = s.msg ∧ s.OnlyRead t := by
  have run : readMsg s.accept = .error (.raised ⟨c, f, x⟩) u :=
    (readMsg_of_enabled (s := s.accept) hen).trans (engine_bind_error (s := s.toRead) h)
  have spent : Spent s.accept u w :=
    (Spent.of_io (s := s.accept) (t := s.toRead) rfl rfl rfl rfl).trans hst.toSpent
  have aborts := aborts_of_raised (i := .readmsg) rfl run spent
  have msg : u.msg = s.msg := ((keeps_readFrame readKept_msg s.toRead).2.1 _ u h rfl).2
  exact ⟨_, aborts, msg, onlyRead_of_reports aborts.answers aborts.failed.reports⟩

/-- A whole frame is committed. -/
theorem read_completes (hen : s.en = true) (h : readFrame s.toRead = .ok () u)
    (hst : Through s.toRead u w) (quiet : u.evt = none) :
    Completes .readmsg s (u.committed.complete true 0) w true 0 ∧
      s.OnlyRead (u.committed.complete true 0) := by
  have run : readMsg s.accept = .ok (true, 0) u.committed :=
    (readMsg_of_enabled (s := s.accept) hen).trans (engine_bind_ok (s := s.toRead) h)
  have spent : Spent s.accept u.committed w := by
    have := ((Spent.of_io (s := s.accept) (t := s.toRead) rfl rfl rfl rfl).trans hst.toSpent).trans
      (Spent.of_io (t := u.committed) rfl rfl rfl rfl)
    rwa [List.append_nil] at this
  have completes := completes_of_ok (i := .readmsg) rfl run spent quiet
  exact ⟨completes, onlyRead_of_reports completes.answers completes.reports⟩

/-- A deadline met in the reception of the frame. -/
theorem read_timesOut {pl : Place} {n : Nat} (hen : s.en = true) (h : Awaits readFrame pl s.toRead w)
    (htime : TimeoutAt s.params s.rxAt w.length n) (hn : s.NoReset (w.length + n)) :
    ∃ t, Aborts .readmsg s t (w ++ List.replicate n s.txd) .timeout pl.field pl.index ∧
      t.msg = s.msg ∧ s.OnlyRead t := by
  obtain ⟨u, hu, through⟩ := h.timeout rfl htime hn
  exact read_aborts hen hu through

end

/-- A piece that goes on from a later state as another piece. -/
theorem Awaits.of_run {α : Type} {m m' : Engine α} {pl : Place} {s t : State} {w w' : List Level}
    (hrun : m s = m' t) (ht : Through s t w) (h : Awaits m' pl t w') : Awaits m pl s (w ++ w') := by
  obtain ⟨u, g, run, through⟩ := h
  exact ⟨u, g, hrun.trans run, ht.trans through⟩

/-! ### The start bit -/

theorem awaits_readFrame (s : State) : Awaits readFrame ⟨.start, 0⟩ s [] :=
  (Awaits.of_modify (.of_io rfl rfl rfl rfl rfl) ((awaits_rxStart _).bind _)).bind _ |>.bind _

/-- Settles O35: the candidate pulse is measured, or does not come. -/
theorem readScansOnePulse : Obligations.ReadScansOnePulse := by
  intro s hwf hen htx
  refine ⟨fun g H hp hout hn => ?_, fun n htime hn => ?_⟩
  · obtain ⟨u, through, -, -, run⟩ := readStart_spec (s := s.toRead) (startTol_le_of_wf hwf) rfl hp hn
    have rests : s.toRead.txd = .inactive := htx
    rw [rests] at through
    exact read_aborts hen (engine_bind_error (engine_bind_error (run hout))) through
  · have aborts := read_timesOut hen (awaits_readFrame _) (by simpa using htime) (by simpa using hn)
    rwa [htx] at aborts

/-! ### The head -/

theorem awaits_readMaster {bs : List Bool} {n : Nat} {s : State} (hlen : bs.length ≤ 12)
    (hb : s.busy = true) (hbits : BitsAt s.params s.rxAt bs 0 n) (hn : s.NoReset n) :
    Awaits readMaster ⟨.master, 0⟩ s (List.replicate n s.txd) :=
  Awaits.of_modify (f := fun s => { s with seq := { s.seq with state := .masterField } })
    (.of_io rfl rfl rfl rfl rfl)
    ((awaits_rxField (s := { s with seq := { s.seq with state := .masterField } }) .master 0 hlen hb hbits
      hn).bind _)

/-- Settles O37: the master field's parity bit is tested before anything else happens. -/
theorem readMasterParityError : Obligations.ReadMasterParityError := by
  intro s g H a b c type v hwf hen htx hv hp hin hbit hbits hpar hn
  obtain ⟨t, run, through, -⟩ := readHead_opening (s := s.toRead) (startTol_le_of_wf hwf) rfl hp hin hbit
    (hn.mono (by omega))
  have length : (List.replicate (g + H + 1 + a) s.toRead.txd).length = g + H + 1 + a :=
    List.length_replicate
  have bits : BitsAt t.params t.rxAt (bitsOf v 12) 0 b :=
    through.params ▸ BitsAt.shift through.toSpent _ (by rwa [length, Nat.add_zero])
  have parity : BitAt t.params t.rxAt (!parity v 12) b c :=
    through.params ▸ BitAt.later (by rwa [length]) through.toSpent
  have rests : s.toRead.txd = .inactive := htx
  have unowed : owedAt ({ t with seq := { t.seq with state := .masterField } } : State) .master v = false := by
    simp [owedAt]
  obtain ⟨u, hu, rest⟩ := rxField_parityError .master 0
    (s := { t with seq := { t.seq with state := .masterField } }) (fun _ => through.params ▸ hwf) (by omega)
    hv
    (through.busy.trans rfl) (through.txd.trans rests) bits parity
    (by
      rw [unowed, if_neg Bool.false_ne_true, Nat.add_zero]
      exact through.quiet _ (by rwa [length, ← Nat.add_assoc]))
  rw [unowed, if_neg Bool.false_ne_true, List.append_nil] at rest
  have spent := through.trans ((Through.of_io (s := t)
    (t := { t with seq := { t.seq with state := .masterField } }) rfl rfl rfl rfl rfl).trans rest)
  rw [rests, List.nil_append, List.replicate_append_replicate, ← Nat.add_assoc] at spent
  have head : readHead s.toRead = .error (.raised ⟨.parityError, .master, 0⟩) u := by
    rw [run, readMaster, setSeq, engine_bind_ok (engine_modify t _), engine_bind_error hu]
  exact read_aborts hen (engine_bind_error head) spent

/-! ### The fields after the head -/

section
variable {m : Message} {n k : Nat} {w : List Level} {s : State}

/-- With the head and the first `k` fields on the line, READMSG comes to the next field. -/
theorem readFrame_at (can : CanRead s.params m) (hb : s.busy = true) (htx : s.txd = .inactive)
    (legal : legalLen m.len = true) (hhead : HeadAt s.params s.rxAt m n)
    (hfields : FieldsAt s.params s.rxAt (owedFor s.params m.bt m.slave) ((eligibleFields m).take k) n w)
    (hn : s.NoReset (n + w.length)) (hk : k ≤ 3 + m.len.toNat) :
    ∃ t u, readHead s = .ok () t ∧ readFields k 0 t = .ok () u ∧ t.busy = true ∧
      Through s u (List.replicate n .inactive ++ w) ∧ Reading m k u := by
  obtain ⟨t, ht, through, reading⟩ := readHead_spec can hb htx hhead (hn.mono (by omega))
  have length : (List.replicate n Level.inactive).length = n := List.length_replicate
  obtain ⟨u, hu, rest, done⟩ := readFields_spec legal k reading (by omega)
    (w := w) (through.params ▸ FieldsAt.later through.toSpent _ (by rwa [length, List.drop_zero]))
    (through.quiet _ (by rwa [length]))
  rw [Nat.zero_add] at done
  exact ⟨t, u, ht, hu, reading.busy, through.trans rest, done⟩

/-- With the head and the first `k` fields on the line, READMSG goes on with the next field. -/
theorem readFrame_resume (can : CanRead s.params m) (hb : s.busy = true) (htx : s.txd = .inactive)
    (legal : legalLen m.len = true) (hhead : HeadAt s.params s.rxAt m n)
    (hfields : FieldsAt s.params s.rxAt (owedFor s.params m.bt m.slave) ((eligibleFields m).take k) n w)
    (hn : s.NoReset (n + w.length)) (hk : k < 3 + m.len.toNat) :
    ∃ (u : State) (f : Unit → Engine Unit), readFrame s = (readEligible k >>= f) u ∧
      Through s u (List.replicate n .inactive ++ w) ∧ Reading m k u := by
  obtain ⟨t, u, ht, hu, busy, through, reading⟩ := readFrame_at can hb htx legal hhead hfields hn hk.le
  obtain ⟨f, run⟩ := readRest_resume busy hu (fun later => reading.work.len (by omega)) hk
  exact ⟨u, f, (engine_bind_ok ht).trans run, through, reading⟩

/-- The exchange of a field after some of its bits. -/
theorem awaits_readEligible {bs : List Bool} {a : Nat} (hlen : bs.length ≤ eligibleWidth k)
    (hb : s.busy = true) (hbits : BitsAt s.params s.rxAt bs 0 a) (hn : s.NoReset a) :
    Awaits (readEligible k) ⟨(eligiblePlace k).1, (eligiblePlace k).2⟩ s (List.replicate a s.txd) := by
  obtain ⟨q, hq⟩ := seqEligible_apply k s
  exact Awaits.after hq (.of_io rfl rfl rfl rfl rfl)
    ((awaits_rxField (s := { s with seq := q }) _ _ hlen hb hbits hn).bind _)

end

/-- Settles O38: the fields before are received and answered, and this one is refused. -/
theorem readAbortsOnParity : Obligations.ReadAbortsOnParity := by
  intro s m k n a b v width w hwf hen htx legal hat hhead hfields hbits hpar hn
  obtain ⟨hk, rfl, rfl⟩ := eligibleFields_at hat
  obtain ⟨u, f, run, through, reading⟩ := readFrame_resume (s := s.toRead) (.of_wf hwf m) rfl htx legal hhead
    hfields
    (hn.mono (by omega)) hk
  have length : (List.replicate n Level.inactive ++ w).length = n + w.length := by simp
  obtain ⟨q, hq⟩ := seqEligible_apply k u
  have owed : owedAt ({ u with seq := q } : State) (eligiblePlace k).1 (eligibleValue m k) =
      owedFor s.params m.bt m.slave := by
    rw [show s.params = u.params from through.params.symm]
    exact reading.owedAt_eq
  have rests : u.txd = .inactive := reading.txd
  have params : u.params = s.params := through.params
  have bits : BitsAt u.params u.rxAt (bitsOf (eligibleValue m k) (eligibleWidth k)) 0 a := by
    rw [params]
    exact BitsAt.shift through.toSpent _ (by rwa [length, Nat.add_zero])
  have parity : BitAt u.params u.rxAt (!parity (eligibleValue m k) (eligibleWidth k)) a b := by
    rw [params]
    exact BitAt.later (by rwa [length]) through.toSpent
  obtain ⟨t, ht, rest⟩ := rxField_parityError (eligiblePlace k).1 (eligiblePlace k).2
    (s := { u with seq := q }) (fun owed => reading.answers owed) (eligibleWidth_le k)
    (eligibleValue_lt m k) reading.busy rests
    bits parity
    (by
      rw [owed]
      refine through.quiet _ ?_
      rw [length, ← Nat.add_assoc, ← Nat.add_assoc, params]
      exact hn)
  rw [owed] at rest
  have spent := through.trans ((Through.of_io (s := u) (t := { u with seq := q }) rfl rfl rfl rfl
    rfl).trans rest)
  simp only [params] at spent
  have frame : readFrame s.toRead =
      .error (.raised ⟨.parityError, (eligiblePlace k).1, (eligiblePlace k).2⟩) t := by
    rw [run, readEligible, bind_assoc, engine_bind_ok hq, bind_assoc, engine_bind_error ht]
  rw [List.nil_append, ← List.append_assoc] at spent
  exact read_aborts hen frame spent

/-- Settles O39: after what is received, the next pulse is waited for until the deadline. -/
theorem readTimesOutInAField : Obligations.ReadTimesOutInAField := by
  constructor
  · intro s g H hwf hen htx hp hin
    have rests : s.toRead.txd = .inactive := htx
    constructor
    · intro n htime hn
      obtain ⟨t, through, -, run, -⟩ := readStart_spec (s := s.toRead) (startTol_le_of_wf hwf) rfl hp
        (hn.mono (by omega))
      have type : Awaits readType ⟨.broadcastBit, 0⟩ t [] :=
        Awaits.of_modify (f := fun s => { s with seq := { s.seq with state := .broadcastBit } })
          (.of_io rfl rfl rfl rfl rfl) ((awaits_rxBit _ _).bind _)
      have await : Awaits readFrame ⟨.broadcastBit, 0⟩ s.toRead
          (List.replicate (g + H + 1) s.toRead.txd ++ []) :=
        (Awaits.after (run hin) through (type.bind _)).bind _
      rw [List.append_nil, rests] at await
      have aborts := read_timesOut (n := n) hen await (by simpa using htime) (by simpa using hn)
      rwa [htx, List.replicate_append_replicate] at aborts
    · intro type bs a b n hlen hbit hbits htime hn
      obtain ⟨t, run, through, -⟩ := readHead_opening (s := s.toRead) (startTol_le_of_wf hwf) rfl hp hin hbit
        (hn.mono (by omega))
      have length : (List.replicate (g + H + 1 + a) s.toRead.txd).length = g + H + 1 + a :=
        List.length_replicate
      have master := awaits_readMaster hlen (through.busy.trans rfl)
        (through.params ▸ BitsAt.shift through.toSpent bs (by rwa [length, Nat.add_zero]))
        (through.quiet b (by rw [length]; exact hn.mono (by omega)))
      have await : Awaits readFrame ⟨.master, 0⟩ s.toRead _ := (Awaits.of_run run through master).bind _
      rw [through.txd, List.replicate_append_replicate, rests] at await
      have aborts := read_timesOut (n := n) hen await (by simpa using htime) (by simpa using hn)
      rwa [htx, List.replicate_append_replicate] at aborts
  · intro s m k n a d v width w bs hwf hen htx legal hat hhead hfields hlen hbits htime hn
    obtain ⟨hk, rfl, rfl⟩ := eligibleFields_at hat
    obtain ⟨u, f, run, through, reading⟩ := readFrame_resume (s := s.toRead) (.of_wf hwf m) rfl htx legal hhead
      hfields (hn.mono (by omega)) hk
    have length : (List.replicate n Level.inactive ++ w).length = n + w.length := by simp
    have field := awaits_readEligible hlen reading.busy
      (through.params ▸ BitsAt.shift through.toSpent bs (by rwa [length, Nat.add_zero]))
      (through.quiet a (by rw [length]; exact hn.mono (by omega)))
    have await : Awaits readFrame _ s.toRead _ := Awaits.of_run run through (field.bind _)
    rw [reading.txd] at await
    have aborts := read_timesOut (n := d) hen await (by simpa [← Nat.add_assoc] using htime)
      (by simpa [← Nat.add_assoc] using hn)
    rwa [htx, List.append_assoc _ (List.replicate a _), List.replicate_append_replicate] at aborts

/-- A whole frame on the line is received. -/
theorem readFrame_spec {m : Message} {w : List Level} {s : State} (can : CanRead s.params m)
    (hb : s.busy = true) (htx : s.txd = .inactive) (legal : legalLen m.len = true)
    (hframe : FrameAt s.params s.rxAt m w) (hn : s.NoReset w.length) :
    ∃ u, readFrame s = .ok () u ∧ Through s u w ∧ Reading m (3 + m.len.toNat) u := by
  obtain ⟨n, w', hhead, hfields, rfl⟩ := hframe
  rw [List.length_append, List.length_replicate] at hn
  rw [← List.take_length (l := eligibleFields m), eligibleFields_length] at hfields
  obtain ⟨t, u, ht, hu, busy, through, reading⟩ := readFrame_at can hb htx legal hhead hfields hn le_rfl
  exact ⟨u, (engine_bind_ok ht).trans (readRest_done busy hu (reading.work.len (by omega))), through,
    reading⟩

/-- READMSG where the frame of `m` is on the line. -/
theorem readMsg_completes {s : State} {m : Message} {w : List Level} (can : CanRead s.params m)
    (hen : s.en = true) (htx : s.txd = .inactive) (legal : legalLen m.len = true)
    (hframe : FrameAt s.params s.rxAt m w) (hn : s.NoReset w.length) :
    ∃ t, Completes .readmsg s t w true 0 ∧ s.OnlyRead t ∧
      t.msg.bt = m.bt ∧ t.msg.master = m.master ∧ t.msg.slave = m.slave ∧ t.msg.ctrl = m.ctrl ∧
      t.msg.len = m.len ∧
      (∀ i, i < m.len.toNat → t.msg.byteAt i = m.byteAt i) ∧
      ∀ i, m.len.toNat ≤ i → t.msg.byteAt i = s.msg.byteAt i := by
  obtain ⟨u, hu, through, reading⟩ := readFrame_spec (s := s.toRead) can rfl htx legal hframe hn
  obtain ⟨completes, frame⟩ := read_completes hen hu through reading.quiet
  have msg : u.msg = s.msg := ((keeps_readFrame readKept_msg s.toRead).1 _ u hu rfl).2
  have len : u.work.len = m.len := reading.work.len (by omega)
  have short : u.work.len.toNat ≤ 256 := by
    simp only [legalLen, Bool.and_eq_true, decide_eq_true_eq] at legal
    rw [len]
    exact legal.2
  have byteAt : ∀ i, (u.committed.complete true 0).msg.byteAt i =
      if i < m.len.toNat then u.work.byteAt i else s.msg.byteAt i := by
    intro i
    rw [← len, ← msg]
    exact Message.byteAt_commit _ _ i short
  refine ⟨_, completes, frame, reading.work.bt (by omega), reading.work.master (by omega),
    reading.work.slave (by omega), reading.work.ctrl (by omega), len, fun i hi => ?_, fun i hi => ?_⟩
  · rw [byteAt, if_pos hi]
    exact reading.work.bytes i (by omega)
  · rw [byteAt, if_neg (not_lt.mpr hi)]

/-- Settles O36: the frame is received, answered where owed, and committed. -/
theorem readReturnsTheFrame : Obligations.ReadReturnsTheFrame :=
  fun _ m _ hwf hen htx legal hframe hn => readMsg_completes (.of_wf hwf m) hen htx legal hframe hn

end Sys2Proof.Machine
end

section
/-! A reader that the frame is not for never drives the line (43_framer_common.md R156). -/

namespace Sys2Proof.Machine

/-! ### With no handshake owed nothing is driven -/

/-- No handshake is owed, and `tx` rests. -/
def State.Silent (s : State) : Prop := s.owed = false ∧ s.txd = .inactive

/-- That stays so, with nothing driven. -/
def StaysSilent (s t : State) : Prop := s.Silent → t.Silent ∧ Undriven s t

def SilentToReset (s t : State) : Prop := s.Silent → Undriven s t

theorem codecKept_staysSilent : CodecKept StaysSilent SilentToReset where
  refl _ h := ⟨h, .of_pins rfl⟩
  trans _ _ _ h h' hs := by
    obtain ⟨ht, first⟩ := h hs
    obtain ⟨hu, second⟩ := h' ht
    exact ⟨hu, first.trans second⟩
  reset _ _ _ h h' hs := by
    obtain ⟨ht, first⟩ := h hs
    exact first.trans (h' ht)
  pass s h := by
    obtain ⟨owed, txd⟩ := h
    exact ⟨⟨by rw [s.pass_owed, owed], by rw [s.pass_txd, txd]⟩, undriven_pass txd⟩
  applyReset s _ := undriven_applyReset s
  tS _ h := ⟨h, .of_pins rfl⟩
  t0 _ _ h := ⟨h, .of_pins rfl⟩
  shreg _ _ h := ⟨h, .of_pins rfl⟩
  seqBit _ _ h := ⟨h, .of_pins rfl⟩

theorem keeps_silent_modify {f : State → State} (owed : ∀ s, (f s).owed = s.owed)
    (txd : ∀ s, (f s).txd = s.txd) (io : ∀ s, (f s).io = s.io) :
    Keeps StaysSilent SilentToReset (modify f) :=
  keeps_modify fun s h => ⟨⟨(owed s).trans h.1, (txd s).trans h.2⟩, .of_pins (by rw [io])⟩

/-- The end of a field's exchange: its parity is tested, and the handshake sent if owed
(43_framer_common.md R157). -/
def checkParity (p : Bool) (v : Half) (n : Nat) (field : ErrField) (index : Byte) : Engine Half := do
  let s ← get
  let owedHere := s.owed && decide (field ≠ .master)
  if p = parity v n then do
    onlyIf owedHere (answer .acknowledged)
    pure v
  else do
    onlyIf owedHere (answer .rejected)
    raise .parityError field index

theorem rxField_eq (n : Nat) (field : ErrField) (index : Byte) : rxField n field index =
    (rxBits n ⟨field, index⟩ >>= fun v => rxBit ⟨field, index⟩ >>= fun p =>
      onlyIf (decide (field = .slave)) (latchSlave v) >>= fun _ => checkParity p v n field index) := rfl

theorem keeps_silent_checkParity (p : Bool) (v : Half) (n : Nat) (field : ErrField) (index : Byte) :
    Keeps StaysSilent SilentToReset (checkParity p v n field index) := by
  intro s
  have A := codecKept_staysSilent.toAlong
  by_cases silent : s.Silent
  · have test : Keeps StaysSilent SilentToReset
        (if p = parity v n then pure v else raise .parityError field index : Engine Half) :=
      keeps_ite (keeps_pure A _) (keeps_raise A _ _ _)
    have run : checkParity p v n field index s =
        (if p = parity v n then pure v else raise .parityError field index : Engine Half) s := by
      rw [checkParity, engine_bind_ok (engine_get s), silent.1]
      split <;> rfl
    rw [run]
    exact test s
  · exact ⟨fun _ _ _ h => absurd h silent, fun _ _ _ h => absurd h silent,
      fun _ _ h => absurd h silent, fun _ _ h => absurd h silent⟩

/-- The fields after the slave's. -/
theorem keeps_silent_readFields (n : Nat) : ∀ k,
    Keeps StaysSilent SilentToReset (readFields n (k + 1)) := by
  have A := codecKept_staysSilent.toAlong
  induction n with
  | zero => exact fun _ => keeps_pure A _
  | succ n ih =>
    intro k
    have seq : Keeps StaysSilent SilentToReset (seqEligible (k + 1)) := by
      match k with
      | 0 | 1 | _ + 2 => exact keeps_silent_modify (fun _ => rfl) (fun _ => rfl) fun _ => rfl
    have notSlave : (eligiblePlace (k + 1)).1 ≠ .slave := fun he =>
      absurd ((eligiblePlace_eq_slave_iff _).mp he) (by omega)
    have field : ∀ width index,
        Keeps StaysSilent SilentToReset (rxField width (eligiblePlace (k + 1)).1 index) := by
      intro width index
      rw [rxField_eq]
      refine keeps_bind A (keeps_rxBits codecKept_staysSilent _ _) fun v =>
        keeps_bind A (keeps_rxBit codecKept_staysSilent _) fun p => ?_
      rw [decide_eq_false notSlave]
      exact keeps_bind A (keeps_pure A _) fun _ => keeps_silent_checkParity _ _ _ _ _
    exact keeps_bind A
      (keeps_bind A seq fun _ => keeps_bind A (field _ _) fun v =>
        keeps_silent_modify (fun _ => rfl) (fun _ => rfl) fun _ => rfl)
      fun _ => ih (k + 1)

/-! ### The end of a run -/

theorem undriven_end {α : Type} {m : Engine α} {s : State} (h : Keeps StaysSilent SilentToReset m)
    (hs : s.Silent) : Undriven s (endOf (m s)) := by
  obtain ⟨ok, raised, hung, reset⟩ := h s
  cases hr : m s with
  | ok a t => exact (ok a t hr hs).2
  | error e t =>
    cases e with
    | raised e => exact (raised e t hr hs).2
    | hung => exact (hung t hr hs).2
    | reset => exact reset t hr hs

/-- Ticks in which `tx` rests drive nothing. -/
theorem undriven_of_rest {s t : State} {n : Nat} {en : Bool}
    (h : t.io.pins = ((List.replicate n Level.inactive).map fun l => Pins.mk l en).reverse ++ s.io.pins) :
    Undriven s t := by
  refine ⟨_, fun p hp => ?_, h⟩
  obtain ⟨l, hl, rfl⟩ := List.mem_map.mp (List.mem_reverse.mp hp)
  exact List.eq_of_mem_replicate hl

/-- A piece that never drives, and then one that does not where the first has left off. -/
theorem undriven_bind {α β : Type} {x : Engine α} {f : α → Engine β} {s : State}
    (hx : Keeps StaysUndriven UndrivenToReset x) (htx : s.txd = .inactive)
    (hf : ∀ a t, x s = .ok a t → t.txd = .inactive → Undriven t (endOf (f a t))) :
    Undriven s (endOf ((x >>= f) s)) := by
  obtain ⟨ok, raised, hung, reset⟩ := hx s
  cases hr : x s with
  | ok a t =>
    obtain ⟨rests, first⟩ := ok a t hr htx
    rw [engine_bind_ok hr]
    exact first.trans (hf a t hr rests)
  | error e t =>
    rw [engine_bind_error hr]
    cases e with
    | raised e => exact (raised e t hr htx).2
    | hung => exact (hung t hr htx).2
    | reset => exact reset t hr htx

/-! ### After the slave address -/

/-- What is left of READMSG after the slave field. -/
def afterSlave : Engine (Bool × Half) := do
  readFields 2 1
  let s ← get
  readFields s.work.len.toNat 3
  commitMessage
  pure (true, 0)

theorem readRest_then_commit : (readRest >>= fun _ => commitMessage >>= fun _ => pure (true, (0 : Half))) =
    readEligible 0 >>= fun _ => afterSlave := by
  have first : readFields 3 0 = readEligible 0 >>= fun _ => readFields 2 1 := rfl
  rw [readRest, first]
  simp only [bind_assoc]
  rfl

theorem keeps_silent_afterSlave (v : Half) :
    Keeps StaysSilent SilentToReset (setWork (storeEligible v 0) >>= fun _ => afterSlave) := by
  have A := codecKept_staysSilent.toAlong
  exact keeps_bind A (keeps_silent_modify (fun _ => rfl) (fun _ => rfl) fun _ => rfl) fun _ =>
    keeps_bind A (keeps_silent_readFields 2 0) fun _ => keeps_bind A (keeps_get A) fun _ =>
      keeps_bind A (keeps_silent_readFields _ 2) fun _ =>
        keeps_bind A (keeps_bind A (keeps_silent_modify (fun _ => rfl) (fun _ => rfl) fun _ => rfl) fun _ =>
          keeps_silent_modify (fun _ => rfl) (fun _ => rfl) fun _ => rfl) fun _ => keeps_pure A _

/-- What the owing of a handshake is decided by. -/
def State.addressing (s : State) : Params × BType := (s.params, s.work.bt)

theorem codecKept_addressing : CodecKept (Kept State.addressing) Cleared :=
  codecKept_kept (fun s _ => by rw [State.addressing, s.pass_params, s.pass_work]; rfl) (fun _ => rfl)
    (fun _ _ => rfl) (fun _ _ => rfl) fun _ _ => rfl

/-- READMSG after the head of a frame that is not for this node. -/
theorem undriven_afterHead {m : Message} {a : Nat} {s : State} (h : Reading m 0 s)
    (hbits : BitsAt s.params s.rxAt (bitsOf (m.slave.setWidth 16) 12) 0 a) (hn : s.NoReset a)
    (hno : ¬ (m.bt = .forDevice ∧ m.slave = s.params.localAddr)) :
    Undriven s (endOf ((readEligible 0 >>= fun _ => afterSlave) s)) := by
  have unowed : owedFor s.params m.bt m.slave = false := by
    simpa using mt (owedFor_iff s.params m.bt m.slave).mp hno
  obtain ⟨t, ht, hst, hf, -⟩ := rxBits_spec ⟨.slave, 0⟩ (bitsOf (m.slave.setWidth 16) 12)
    (s := { s with seq := { s.seq with state := .slaveField } }) h.busy hbits hn
  rw [bitsOf_length, lowBits_shifted_bitsOf (by omega) (by rw [BitVec.toNat_setWidth]; omega)] at ht
  have bt : t.work.bt = m.bt := by
    rw [hf]
    exact h.work.bt (by omega)
  have params : t.params = s.params := hst.params
  have rests : t.txd = .inactive := by
    rw [hf]
    exact h.txd
  have busy : t.busy = true := hst.busy.trans h.busy
  have run : (readEligible 0 >>= fun _ => afterSlave) s =
      (rxBit ⟨.slave, 0⟩ >>= fun p => latchSlave (m.slave.setWidth 16) >>= fun _ =>
        checkParity p (m.slave.setWidth 16) 12 .slave 0 >>= fun v =>
          setWork (storeEligible v 0) >>= fun _ => afterSlave) t := by
    have opened : (readEligible 0 >>= fun _ => afterSlave) = (setSeq .slaveField >>= fun _ =>
        rxBits 12 ⟨.slave, 0⟩ >>= fun v => rxBit ⟨.slave, 0⟩ >>= fun p => latchSlave v >>= fun _ =>
          checkParity p v 12 .slave 0 >>= fun v => setWork (storeEligible v 0) >>= fun _ =>
            afterSlave) := by
      rw [readEligible]
      simp only [eligibleWidth, eligiblePlace, seqEligible, rxField_eq, bind_assoc]
      rfl
    rw [opened, setSeq, engine_bind_ok (engine_modify s _), engine_bind_ok ht]
  rw [run]
  have waves : Undriven s t := undriven_of_rest (h.txd ▸ hst.pins)
  refine waves.trans (undriven_bind (keeps_rxBit codecKept_staysUndriven _) rests fun p u hu htx => ?_)
  obtain ⟨-, same⟩ := (keeps_rxBit codecKept_addressing _ t).1 p u hu busy
  simp only [State.addressing, Prod.mk.injEq] at same
  obtain ⟨params', bt'⟩ := same
  have silent : State.Silent { u with
      work := { u.work with slave := ((m.slave.setWidth 16).setWidth 12 : BitVec 12) },
      owed := owedFor u.params u.work.bt ((m.slave.setWidth 16).setWidth 12) } := by
    refine ⟨?_, htx⟩
    rw [params', bt', params, bt, setWidth_of_setWidth (n := 12) (k := 16) (by omega), unowed]
  rw [latchSlave, engine_bind_ok (engine_modify u _)]
  exact Undriven.trans (.of_pins rfl) (undriven_end
    (keeps_bind codecKept_staysSilent.toAlong (keeps_silent_checkParity _ _ _ _ _)
      keeps_silent_afterSlave) silent)

/-- Settles O41: the head rests, and after the slave address no handshake is owed. -/
theorem addressingFilter : Obligations.AddressingFilter := by
  intro s t m n a hwf htx hhead hbits hn hno h
  have io := io_of_operate ((exec_eq_operate _ _).symm.trans h)
  suffices whole : Undriven s (endOf (readMsg s.accept)) by
    refine Undriven.drivenSince ?_
    obtain ⟨ps, hps, pins⟩ := whole
    exact ⟨ps, hps, (congrArg Io.pins io).trans pins⟩
  cases hen : s.en with
  | false =>
    rw [readMsg_of_disabled (s := s.accept) hen]
    exact .of_pins rfl
  | true =>
    obtain ⟨u, hu, through, reading⟩ := readHead_spec (s := s.toRead) (.of_wf hwf m) rfl htx hhead
      (hn.mono (Nat.le_add_right n a))
    have run : readMsg s.accept = (readEligible 0 >>= fun _ => afterSlave) u := by
      refine (readMsg_of_enabled (s := s.accept) hen).trans ?_
      change (readFrame >>= fun _ => commitMessage >>= fun _ => pure (true, 0)) s.toRead = _
      rw [readFrame, bind_assoc, engine_bind_ok hu, readRest_then_commit]
    rw [run]
    have length : (List.replicate n Level.inactive).length = n := List.length_replicate
    have waves : Undriven s u := undriven_of_rest through.pins
    refine waves.trans (undriven_afterHead reading ?_ (through.quiet a (by rwa [length])) ?_)
    · rw [through.params]
      exact BitsAt.shift through.toSpent _ (by rwa [length, Nat.add_zero])
    · rw [through.params]
      exact hno

end Sys2Proof.Machine
end

section
/-! What each part of WRITEMSG does on a line (45_framer_write.md R190, R193 to R196). -/

namespace Sys2Proof.Machine

/-! ### A writer in the middle of a frame -/

/-- WRITEMSG is sending `m`: `tx` rests, and `HSWAIT` is set for its type. -/
structure Writing (m : Message) (s : State) : Prop where
  wf : s.params.wf = true
  busy : s.busy = true
  txd : s.txd = .inactive
  quiet : s.evt = none
  msg : s.msg = m
  hswait : s.hswait = hsWaitFor m.bt

section
variable {m : Message} {s : State}

/-- The bus is awaited, and the start bit and the broadcast-type bit are sent (45_framer_write.md R193,
R194). -/
theorem writeStart_spec {d : Nat} (hwf : s.params.wf = true) (hb : s.busy = true)
    (htx : s.txd = .inactive) (hmsg : s.msg = m) (hfree : FreeAt s.params s.rxAt d)
    (hn : s.NoReset (d + s.params.tBit + (s.params.tStartTotal + s.params.tBit))) :
    ∃ t, writeStart s = .ok () t ∧
      Through s t (List.replicate (d + s.params.tBit) .inactive ++
        (startWave s.params ++ bitWave s.params (symbolOfBType s.params m.bt))) ∧
      t.evt = none ∧ t.msg = m ∧ t.hswait = s.hswait := by
  obtain ⟨t, ht, hst, hf⟩ := waitBusFree_spec
    (s := { s with seq := { s.seq with state := .waitBusFree } }) hwf hb hfree
    (hn.mono (Nat.le_add_right _ _))
  have p : t.params = s.params := hst.params
  have free : Spent s t (List.replicate (d + s.params.tBit) .inactive) :=
    htx ▸ (Spent.of_io (s := s) (t := { s with seq := { s.seq with state := .waitBusFree } })
      rfl rfl rfl rfl).trans hst
  have tail : t.NoReset (s.params.tStartTotal + s.params.tBit) :=
    free.quiet _ (by rwa [List.length_replicate])
  obtain ⟨u, hu, htu, hg⟩ := txStart_spec (s := { t with seq := { t.seq with state := .sendStart } })
    (free.params ▸ hwf) (free.busy.trans hb) (tail.mono (by rw [p]; omega))
  have started : Spent s u (List.replicate (d + s.params.tBit) .inactive ++ startWave s.params) :=
    p ▸ free.trans ((Spent.of_io (s := t) (t := { t with seq := { t.seq with state := .sendStart } })
      rfl rfl rfl rfl).trans htu)
  have q : u.params = s.params := started.params
  have um : u.msg = m := by rw [hg, hf, hmsg]
  obtain ⟨v, hv, huv, hh⟩ := txBit_spec (symbolOfBType s.params m.bt)
    (s := { u with seq := { u.seq with state := .broadcastBit } }) (started.params ▸ hwf)
    (started.busy.trans hb)
    (started.quiet _ (by
      rw [List.length_append, List.length_replicate, startWave_length hwf]
      exact hn.mono (by rw [q]; omega)))
  have whole := started.trans ((Spent.of_io (s := u)
    (t := { u with seq := { u.seq with state := .broadcastBit } }) rfl rfl rfl rfl).trans huv)
  simp only [q, List.nil_append, List.append_assoc] at whole
  refine ⟨v, ?_, { whole with txd := ?_ }, by rw [hh], by rw [hh]; exact um, by rw [hh, hg, hf]⟩
  · rw [writeStart, setSeq, engine_bind_ok (engine_modify s _), engine_bind_ok ht, setSeq,
      engine_bind_ok (engine_modify t _), engine_bind_ok hu, setSeq,
      engine_bind_ok (engine_modify u _), engine_bind_ok (engine_get _)]
    have type : symbolOfBType u.params u.msg.bt = symbolOfBType s.params m.bt := by rw [q, um]
    exact type ▸ hv
  · rw [hh, htx]

theorem headWave_eq (p : Params) (m : Message) : headWave p m = (startWave p ++
    bitWave p (symbolOfBType p m.bt)) ++ fieldWave p (m.master.setWidth 16) 12 := rfl

theorem headWave_length {p : Params} (hp : p.wf = true) (m : Message) :
    (headWave p m).length = p.tStartTotal + p.tBit + 13 * p.tBit := by
  rw [headWave_eq, List.length_append, List.length_append, startWave_length hp, bitWave_length hp,
    fieldWave_length hp]

/-- The head of a frame is sent on a free bus; the master field is not answered (45_framer_write.md R193,
R194; 43_framer_common.md R160). -/
theorem writeHead_spec {d : Nat} (hwf : s.params.wf = true) (hb : s.busy = true)
    (htx : s.txd = .inactive) (hmsg : s.msg = m) (hhs : s.hswait = hsWaitFor m.bt)
    (hfree : FreeAt s.params s.rxAt d)
    (hn : s.NoReset (d + s.params.tBit + (headWave s.params m).length)) :
    ∃ t, writeHead s = .ok () t ∧
      Through s t (List.replicate (d + s.params.tBit) .inactive ++ headWave s.params m) ∧
      Writing m t := by
  rw [headWave_length hwf] at hn
  obtain ⟨t, ht, hst, quiet, tm, ths⟩ := writeStart_spec hwf hb htx hmsg hfree (hn.mono (by omega))
  have p : t.params = s.params := hst.params
  obtain ⟨u, htu, hf, -, -, run⟩ := txField_bits (m.master.setWidth 16) 12 .master 0 (by omega)
    (s := { t with seq := { t.seq with state := .masterField } }) (hst.params ▸ hwf)
    (hst.busy.trans hb)
    (hst.quiet _ (by
      rw [List.length_append, List.length_replicate, List.length_append, startWave_length hwf,
        bitWave_length hwf]
      exact hn.mono (by rw [p]; omega)))
  have unanswered : (({ t with seq := { t.seq with state := .masterField } } : State).hswait &&
      decide (ErrField.master ≠ .master)) = false := by simp
  rw [unanswered, if_neg Bool.false_ne_true] at run
  have whole := hst.toSpent.trans ((Spent.of_io (s := t)
    (t := { t with seq := { t.seq with state := .masterField } }) rfl rfl rfl rfl).trans htu)
  simp only [p, List.nil_append, List.append_assoc] at whole
  rw [headWave_eq, List.append_assoc]
  refine ⟨u, ?_, { whole with txd := ?_ }, ?_⟩
  · rw [writeHead, engine_bind_ok ht, setSeq, engine_bind_ok (engine_modify t _),
      engine_bind_ok (engine_get _)]
    have value : t.msg.master = m.master := by rw [tm]
    exact value ▸ run
  · rw [hf, htx]
  · exact ⟨whole.params ▸ hwf, whole.busy.trans hb, by rw [hf], by rw [hf], by rw [hf]; exact tm,
      by rw [hf]; exact ths.trans hhs⟩

/-! ### A field and its handshake -/

/-- What becomes of a handshake value (45_framer_write.md R195). -/
def hear (pl : Place) : Ack → Engine Unit
  | .acknowledged => pure ()
  | .rejected => raise .handshakeRejected pl.field pl.index

/-- The `k`-th field is sent; what is left is the handshake, if one is awaited (43_framer_common.md
R158). -/
theorem writeEligible_sent (h : Writing m s) (k : Nat)
    (hn : s.NoReset ((eligibleWidth k + 1) * s.params.tBit)) :
    ∃ t, Through s t (fieldWave s.params (eligibleValue m k) (eligibleWidth k)) ∧ Writing m t ∧
      writeEligible k s = if hsWaitFor m.bt then
        (rxAck ⟨(eligiblePlace k).1, (eligiblePlace k).2⟩ >>=
          hear ⟨(eligiblePlace k).1, (eligiblePlace k).2⟩) t
        else .ok () t := by
  obtain ⟨q, hq⟩ := seqEligible_apply k s
  obtain ⟨t, hst, hf, -, -, run⟩ := txField_bits (eligibleValue m k) (eligibleWidth k)
    (eligiblePlace k).1 (eligiblePlace k).2 (one_le_eligibleWidth k) (s := { s with seq := q }) h.wf
    h.busy hn
  have spent := (Spent.of_io (s := s) (t := { s with seq := q }) rfl rfl rfl rfl).trans hst
  have waits : (({ s with seq := q } : State).hswait && decide ((eligiblePlace k).1 ≠ .master)) =
      hsWaitFor m.bt := by simp [h.hswait, eligiblePlace_ne_master]
  rw [waits] at run
  refine ⟨t, { spent with txd := by rw [hf, h.txd] }, ?_, ?_⟩
  · exact ⟨spent.params ▸ h.wf, spent.busy.trans h.busy, by rw [hf], by rw [hf], by rw [hf]; exact h.msg,
      by rw [hf]; exact h.hswait⟩
  · have value : eligibleValue s.msg k = eligibleValue m k := by rw [h.msg]
    rw [writeEligible, engine_bind_ok hq, engine_bind_ok (engine_get _)]
    refine (value ▸ run).trans ?_
    rw [engine_bind]
    split
    · cases rxAck ⟨(eligiblePlace k).1, (eligiblePlace k).2⟩ t with
      | ok a u => cases a <;> rfl
      | error e u => rfl
    · rfl

/-- A handshake on the line, after a field (43_framer_common.md R158; 45_framer_write.md R195). -/
theorem hear_spec (h : Writing m s) (pl : Place) {b : Bool} {n : Nat}
    (hbit : BitAt s.params s.rxAt b 0 n) (hn : s.NoReset n) :
    ∃ t, Through s t (List.replicate n .inactive) ∧ Writing m t ∧
      (rxAck pl >>= hear pl) s =
        if b then .error (.raised ⟨.handshakeRejected, pl.field, pl.index⟩) t else .ok () t := by
  obtain ⟨t, ht, hst, hf⟩ := rxAck_of_bitAt pl h.busy hbit hn
  rw [h.txd] at hst
  refine ⟨t, { hst with txd := by rw [hf] }, ?_, ?_⟩
  · exact ⟨hst.params ▸ h.wf, hst.busy.trans h.busy, by rw [hf]; exact h.txd, by rw [hf],
      by rw [hf]; exact h.msg, by rw [hf]; exact h.hswait⟩
  · rw [engine_bind_ok ht]
    cases b <;> rfl

/-- These fields go out from offset `o` on, each answered by symbol 0 if handshakes are awaited; `tx`
shows `w`. -/
def SentAt (p : Params) (rx : Nat → Level) (waits : Bool) :
    List (Half × Nat) → Nat → List Level → Prop
  | [], _, w => w = []
  | f :: fs, o, w => ∃ n w', (if waits then BitAt p rx false (o + (f.2 + 1) * p.tBit) n else n = 0) ∧
      SentAt p rx waits fs (o + (f.2 + 1) * p.tBit + n) w' ∧
      w = fieldWave p f.1 f.2 ++ (List.replicate n .inactive ++ w')

theorem sentAt_of_answeredAt {p : Params} {rx : Nat → Level} (fs : List (Half × Nat)) :
    ∀ {o : Nat} {w : List Level}, AnsweredAt p rx fs o w → SentAt p rx true fs o w := by
  induction fs with
  | nil => exact fun h => h
  | cons f fs ih =>
    rintro o w ⟨n, w', answer, rest, rfl⟩
    exact ⟨n, w', by rwa [if_pos rfl], ih rest, by rw [List.append_assoc]⟩

/-- Without handshakes the fields follow each other. -/
theorem sentAt_flatMap {p : Params} {rx : Nat → Level} (fs : List (Half × Nat)) : ∀ o : Nat,
    SentAt p rx false fs o (fs.flatMap fun f => fieldWave p f.1 f.2) := by
  induction fs with
  | nil => exact fun _ => rfl
  | cons f fs ih => exact fun o => ⟨0, _, by simp, ih _, by simp⟩

theorem SentAt.later {p : Params} {waits : Bool} {t : State} {w : List Level} (hst : Spent s t w)
    (fs : List (Half × Nat)) : ∀ {o : Nat} {w' : List Level},
    SentAt p s.rxAt waits fs (w.length + o) w' → SentAt p t.rxAt waits fs o w' := by
  induction fs with
  | nil => exact fun h => h
  | cons f fs ih =>
    rintro o w' ⟨n, w₂, answer, rest, rfl⟩
    refine ⟨n, w₂, ?_, ih (by rwa [← Nat.add_assoc, ← Nat.add_assoc]), rfl⟩
    split at answer
    next waiting =>
      rw [if_pos waiting]
      exact BitAt.later (by rwa [← Nat.add_assoc]) hst
    next unanswered =>
      rw [if_neg unanswered]
      exact answer

/-- The next field goes out, and is answered if it has to be (45_framer_write.md R195). -/
theorem writeEligible_spec (h : Writing m s) (k : Nat) {n : Nat}
    (hbit : if hsWaitFor m.bt then
      BitAt s.params s.rxAt false ((eligibleWidth k + 1) * s.params.tBit) n else n = 0)
    (hn : s.NoReset ((eligibleWidth k + 1) * s.params.tBit + n)) :
    ∃ t, writeEligible k s = .ok () t ∧
      Through s t (fieldWave s.params (eligibleValue m k) (eligibleWidth k) ++
        List.replicate n .inactive) ∧ Writing m t := by
  obtain ⟨t, through, writing, run⟩ := writeEligible_sent h k (hn.mono (by omega))
  have length := fieldWave_length h.wf (eligibleValue m k) (eligibleWidth k)
  cases waits : hsWaitFor m.bt with
  | false =>
    rw [waits, if_neg Bool.false_ne_true] at run hbit
    subst hbit
    exact ⟨t, run, by simpa using through, writing⟩
  | true =>
    rw [waits, if_pos rfl] at run hbit
    have answer : BitAt t.params t.rxAt false 0 n := by
      rw [through.params]
      exact BitAt.later (by rwa [length, Nat.add_zero]) through.toSpent
    obtain ⟨u, rest, done, heard⟩ := hear_spec writing ⟨(eligiblePlace k).1, (eligiblePlace k).2⟩ answer
      (through.quiet n (by rwa [length]))
    rw [if_neg Bool.false_ne_true] at heard
    exact ⟨u, run.trans heard, through.trans rest, done⟩

/-- A run of fields (45_framer_write.md R194 to R196). -/
theorem writeFields_spec (n : Nat) : ∀ {k : Nat} {s : State} {w : List Level}, Writing m s →
    k + n ≤ 3 + m.len.toNat →
    SentAt s.params s.rxAt (hsWaitFor m.bt) (((eligibleFields m).drop k).take n) 0 w →
    s.NoReset w.length →
    ∃ t, writeFields n k s = .ok () t ∧ Through s t w ∧ Writing m t := by
  induction n with
  | zero =>
    intro k s w h _ hsent _
    cases hsent
    exact ⟨s, rfl, .refl s, h⟩
  | succ n ih =>
    intro k s w h hk hsent hn
    rw [eligibleFields_drop m (by omega), List.take_succ_cons] at hsent
    obtain ⟨j, w', answer, rest, rfl⟩ := hsent
    rw [List.length_append, List.length_append, List.length_replicate, fieldWave_length h.wf,
      ← Nat.add_assoc] at hn
    dsimp only at answer rest hn
    rw [Nat.zero_add] at answer rest
    obtain ⟨t, ht, hst, writing⟩ := writeEligible_spec h k answer (hn.mono (by omega))
    have length : (fieldWave s.params (eligibleValue m k) (eligibleWidth k) ++
        List.replicate j Level.inactive).length = (eligibleWidth k + 1) * s.params.tBit + j := by
      rw [List.length_append, fieldWave_length h.wf, List.length_replicate]
    have later : SentAt t.params t.rxAt (hsWaitFor m.bt) (((eligibleFields m).drop (k + 1)).take n) 0
        w' := by
      rw [hst.params]
      exact SentAt.later hst.toSpent _ (by rwa [length, Nat.add_zero])
    obtain ⟨u, hu, htu, done⟩ := ih writing (by omega) later (hst.quiet _ (by rwa [length]))
    rw [← List.append_assoc]
    exact ⟨u, (engine_bind_ok ht).trans hu, hst.trans htu, done⟩

/-- The Message stays, so its length is that of its frame. -/
theorem writeRest_eq (hb : s.busy = true) :
    writeRest s = writeFields (3 + s.msg.len.toNat) 0 s := by
  rw [writeRest, writeFields_add]
  cases h : writeFields 3 0 s with
  | error e t => rw [engine_bind_error h, engine_bind_error h]
  | ok a t =>
    have W := writeKept_framer
    have kept : Keeps (Kept State.framer) Cleared (writeFields 3 0) := by
      have one : ∀ k, Keeps (Kept State.framer) Cleared (writeEligible k) := fun k => by
        have seq : Keeps (Kept State.framer) Cleared (seqEligible k) := by
          match k with
          | 0 | 1 | 2 => exact keeps_setSeq W.seq _
          | _ + 3 => exact keeps_setSeqData W.seq _
        exact keeps_bind W.toAlong seq fun _ => keeps_bind W.toAlong (keeps_get W.toAlong) fun _ =>
          keeps_txField W _ _ _ _
      exact keeps_bind W.toAlong (one 0) fun _ => keeps_bind W.toAlong (one 1) fun _ =>
        keeps_bind W.toAlong (one 2) fun _ => keeps_pure W.toAlong _
    obtain ⟨-, same⟩ := (kept s).1 a t h hb
    simp only [State.framer, Prod.mk.injEq] at same
    rw [engine_bind_ok h, engine_bind_ok h, engine_bind_ok (engine_get t), same.1]

end

end Sys2Proof.Machine
end

section
/-! The statements about WRITEMSG on given lines (45_framer_write.md R190, R193 to R196). -/

namespace Sys2Proof.Machine

/-! ### From a frame to the operation -/

/-- WRITEMSG at the start of a frame: accepted, with `HSWAIT` set for the type of the Message. -/
def State.toWrite (s : State) : State := { s.accept with hswait := hsWaitFor s.msg.bt }

/-- What WRITEMSG may change is all but the parameters, the gate, the Message and the working Message. -/
theorem onlyWrite_of {s t : State} (hp : t.params = s.params) (he : t.en = s.en) (hm : t.msg = s.msg)
    (hw : t.work = s.work) (ho : t.owed = s.owed) (hi : t.seq.state = .idle) : s.OnlyWrite t := by
  have seq : ({ t.seq with state := .idle } : Seq) = t.seq := by rw [← hi]
  unfold State.OnlyWrite State.OnlyReception State.OnlyPulse State.OnlyResults
  rw [seq, ← hp, ← he, ← hm, ← hw, ← ho]

theorem onlyWrite_of_reports {s t : State} {ok : Bool} {v : Half} {e : Err}
    (h : exec .writemsg s = .next t) (hr : t.Reports ok v e) : s.OnlyWrite t := by
  have notReset := not_reset_of_resValid (i := .writemsg) (s := s) hr.resValid
  obtain ⟨msg, work, owed⟩ := exec_keeps_framer h notReset nofun
  exact onlyWrite_of (exec_keeps_params h) (exec_keeps_en h notReset nofun nofun) msg work owed hr.idle

/-- An enabled WRITEMSG of a legal Message sends a frame. -/
theorem writeMsg_of_legal {s : State} (hen : s.en = true) (legal : legalLen s.msg.len = true) :
    writeMsg s = (writeFrame >>= fun _ => setSeq .complete >>= fun _ => pure (true, 0))
      { s with hswait := hsWaitFor s.msg.bt } := by
  rw [writeMsg_eq, engine_bind_ok (engine_modify s _), engine_bind_ok (engine_get _), if_pos hen,
    if_pos legal, engine_bind_ok (engine_modify _ _)]

section
variable {s u : State} {w : List Level}

/-- An error in the frame is WRITEMSG's. -/
theorem write_aborts {c : ErrCode} {f : ErrField} {x : Byte} (hen : s.en = true)
    (legal : legalLen s.msg.len = true)
    (h : writeFrame s.toWrite = .error (.raised ⟨c, f, x⟩) u) (hst : Through s.toWrite u w) :
    ∃ t, Aborts .writemsg s t w c f x ∧ s.OnlyWrite t := by
  have run : writeMsg s.accept = .error (.raised ⟨c, f, x⟩) u :=
    (writeMsg_of_legal (s := s.accept) hen legal).trans (engine_bind_error (s := s.toWrite) h)
  have spent : Spent s.accept u w :=
    (Spent.of_io (s := s.accept) (t := s.toWrite) rfl rfl rfl rfl).trans hst.toSpent
  have aborts := aborts_of_raised (i := .writemsg) rfl run spent
  exact ⟨_, aborts, onlyWrite_of_reports aborts.answers aborts.failed.reports⟩

/-- A whole frame completes it. -/
theorem write_completes (hen : s.en = true) (legal : legalLen s.msg.len = true)
    (h : writeFrame s.toWrite = .ok () u) (hst : Through s.toWrite u w) (quiet : u.evt = none) :
    ∃ t, Completes .writemsg s t w true 0 ∧ s.OnlyWrite t := by
  have run : writeMsg s.accept = .ok (true, 0) { u with seq := { u.seq with state := .complete } } :=
    (writeMsg_of_legal (s := s.accept) hen legal).trans (engine_bind_ok (s := s.toWrite) h)
  have spent : Spent s.accept { u with seq := { u.seq with state := .complete } } w := by
    have := ((Spent.of_io (s := s.accept) (t := s.toWrite) rfl rfl rfl rfl).trans hst.toSpent).trans
      (Spent.of_io (t := { u with seq := { u.seq with state := .complete } }) rfl rfl rfl rfl)
    rwa [List.append_nil] at this
  have completes := completes_of_ok (i := .writemsg) rfl run spent quiet
  exact ⟨_, completes, onlyWrite_of_reports completes.answers completes.reports⟩

end

/-! ### The frame -/

section
variable {m : Message} {d k : Nat} {w : List Level} {s : State}

/-- The ticks up to the end of the head. -/
def leadIn (p : Params) (m : Message) (d : Nat) : List Level :=
  List.replicate (d + p.tBit) .inactive ++ headWave p m

theorem leadIn_length (p : Params) (m : Message) (d : Nat) :
    (leadIn p m d).length = d + p.tBit + (headWave p m).length := by
  rw [leadIn, List.length_append, List.length_replicate]

/-- On a free bus the head and the first `k` fields go out. -/
theorem writeFrame_at (hwf : s.params.wf = true) (hb : s.busy = true) (htx : s.txd = .inactive)
    (hhs : s.hswait = hsWaitFor s.msg.bt) (hfree : FreeAt s.params s.rxAt d)
    (hsent : SentAt s.params s.rxAt (hsWaitFor s.msg.bt) ((eligibleFields s.msg).take k)
      (d + s.params.tBit + (headWave s.params s.msg).length) w)
    (hn : s.NoReset (d + s.params.tBit + (headWave s.params s.msg).length + w.length))
    (hk : k ≤ 3 + s.msg.len.toNat) :
    ∃ t u, writeFrame s = writeFields (3 + s.msg.len.toNat) 0 t ∧ writeFields k 0 t = .ok () u ∧
      Through s u (leadIn s.params s.msg d ++ w) ∧ Writing s.msg u := by
  obtain ⟨t, ht, hst, writing⟩ := writeHead_spec hwf hb htx rfl hhs hfree (hn.mono (by omega))
  have later : SentAt t.params t.rxAt (hsWaitFor s.msg.bt)
      (((eligibleFields s.msg).drop 0).take k) 0 w := by
    rw [hst.params]
    exact SentAt.later hst.toSpent _ (by
      rwa [List.length_append, List.length_replicate, Nat.add_zero, List.drop_zero])
  obtain ⟨u, hu, htu, done⟩ := writeFields_spec k writing (by omega) later
    (hst.quiet _ (by rwa [List.length_append, List.length_replicate]))
  refine ⟨t, u, ?_, hu, hst.trans htu, done⟩
  rw [writeFrame, engine_bind_ok ht, writeRest_eq writing.busy, writing.msg]

/-- On a free bus the whole frame goes out. -/
theorem writeFrame_spec (hwf : s.params.wf = true) (hb : s.busy = true) (htx : s.txd = .inactive)
    (hhs : s.hswait = hsWaitFor s.msg.bt) (hfree : FreeAt s.params s.rxAt d)
    (hsent : SentAt s.params s.rxAt (hsWaitFor s.msg.bt) (eligibleFields s.msg)
      (d + s.params.tBit + (headWave s.params s.msg).length) w)
    (hn : s.NoReset (d + s.params.tBit + (headWave s.params s.msg).length + w.length)) :
    ∃ u, writeFrame s = .ok () u ∧ Through s u (leadIn s.params s.msg d ++ w) ∧ Writing s.msg u := by
  rw [← List.take_length (l := eligibleFields s.msg), eligibleFields_length] at hsent
  obtain ⟨t, u, run, hu, through, writing⟩ := writeFrame_at hwf hb htx hhs hfree hsent hn le_rfl
  exact ⟨u, run.trans hu, through, writing⟩

/-- After the first `k` fields of a frame the next goes out, and its handshake is awaited if any is. -/
theorem writeFrame_resume (hwf : s.params.wf = true) (hb : s.busy = true) (htx : s.txd = .inactive)
    (hhs : s.hswait = hsWaitFor s.msg.bt) (hfree : FreeAt s.params s.rxAt d)
    (waits : hsWaitFor s.msg.bt = true)
    (hanswered : AnsweredAt s.params s.rxAt ((eligibleFields s.msg).take k)
      (d + s.params.tBit + (headWave s.params s.msg).length) w)
    (hn : s.NoReset (d + s.params.tBit + (headWave s.params s.msg).length + w.length +
      (eligibleWidth k + 1) * s.params.tBit)) (hk : k < 3 + s.msg.len.toNat) :
    ∃ (u : State) (f : Unit → Engine Unit), writeFrame s =
        ((rxAck ⟨(eligiblePlace k).1, (eligiblePlace k).2⟩ >>=
          hear ⟨(eligiblePlace k).1, (eligiblePlace k).2⟩) >>= f) u ∧
      Through s u (leadIn s.params s.msg d ++ w ++
        fieldWave s.params (eligibleValue s.msg k) (eligibleWidth k)) ∧ Writing s.msg u := by
  obtain ⟨t, u, run, hu, through, writing⟩ := writeFrame_at hwf hb htx hhs hfree
    (waits ▸ sentAt_of_answeredAt _ hanswered) (hn.mono (Nat.le_add_right _ _)) hk.le
  have length : (leadIn s.params s.msg d ++ w).length =
      d + s.params.tBit + (headWave s.params s.msg).length + w.length := by
    rw [List.length_append, leadIn_length]
  obtain ⟨v, rest, done, sent⟩ := writeEligible_sent writing k
    (through.quiet _ (by rwa [length, through.params]))
  rw [through.params] at rest
  rw [if_pos waits] at sent
  have split : writeFields (3 + s.msg.len.toNat) 0 =
      writeFields k 0 >>= fun _ => writeFields (2 + s.msg.len.toNat - k + 1) (0 + k) := by
    rw [← writeFields_add]
    congr 1
    omega
  refine ⟨v, fun _ => writeFields (2 + s.msg.len.toNat - k) (k + 1), ?_, through.trans rest, done⟩
  rw [run, split, engine_bind_ok hu, writeFields, Nat.zero_add, engine_bind, sent, ← engine_bind]

/-- After the `k`-th field WRITEMSG waits for the handshake. -/
theorem awaits_writeFrame (hwf : s.params.wf = true) (hb : s.busy = true) (htx : s.txd = .inactive)
    (hhs : s.hswait = hsWaitFor s.msg.bt) (hfree : FreeAt s.params s.rxAt d)
    (waits : hsWaitFor s.msg.bt = true)
    (hanswered : AnsweredAt s.params s.rxAt ((eligibleFields s.msg).take k)
      (d + s.params.tBit + (headWave s.params s.msg).length) w)
    (hn : s.NoReset (d + s.params.tBit + (headWave s.params s.msg).length + w.length +
      (eligibleWidth k + 1) * s.params.tBit)) (hk : k < 3 + s.msg.len.toNat) :
    Awaits writeFrame ⟨(eligiblePlace k).1, (eligiblePlace k).2⟩ s
      (leadIn s.params s.msg d ++ w ++
        fieldWave s.params (eligibleValue s.msg k) (eligibleWidth k)) := by
  obtain ⟨u, f, run, through, -⟩ := writeFrame_resume hwf hb htx hhs hfree waits hanswered hn hk
  have await := Awaits.of_run run through ((((awaits_rxBit _ u).bind _).bind _).bind _)
  rwa [List.append_nil] at await

end

/-! ### Completed frames -/

theorem hsWaitFor_forDevice : hsWaitFor .forDevice = true := rfl

/-- The time of the fields after the head (30_encoding.md R83). -/
theorem eligibleWave_length {p : Params} (hp : p.wf = true) (m : Message) :
    ((eligibleFields m).flatMap fun f => fieldWave p f.1 f.2).length =
      (27 + 9 * m.len.toNat) * p.tBit := by
  have payload : ∀ l : List Nat, ((l.map fun i => (((m.byteAt i).setWidth 16 : Half), 8)).flatMap
      fun f => fieldWave p f.1 f.2).length = l.length * (9 * p.tBit) := by
    intro l
    induction l with
    | nil => simp
    | cons i l ih =>
      rw [List.map_cons, List.flatMap_cons, List.length_append, ih, fieldWave_length hp,
        List.length_cons]
      ring
  rw [eligibleFields, List.flatMap_append, List.length_append, payload, List.length_range]
  simp only [List.flatMap_cons, List.flatMap_nil, List.length_append, fieldWave_length hp,
    List.length_nil]
  ring

/-- The time of a frame (70_reset_and_hazards.md R260). -/
theorem broadcastWave_length {p : Params} (hp : p.wf = true) (m : Message) :
    (broadcastWave p m).length = p.tStartTotal + (41 + 9 * m.len.toNat) * p.tBit := by
  rw [broadcastWave, List.length_append, headWave_length hp, eligibleWave_length hp]
  ring

/-- A Broadcast frame on a free bus. -/
theorem writeBroadcast {s : State} {d : Nat} (hwf : s.params.wf = true) (hen : s.en = true)
    (htx : s.txd = .inactive) (hbt : s.msg.bt = .broadcast) (legal : legalLen s.msg.len = true)
    (hfree : FreeAt s.params s.rxAt d)
    (hn : s.NoReset (d + s.params.tBit + (broadcastWave s.params s.msg).length)) :
    ∃ t, Completes .writemsg s t
      (List.replicate (d + s.params.tBit) .inactive ++ broadcastWave s.params s.msg) true 0 ∧
      s.OnlyWrite t := by
  have waits : hsWaitFor s.msg.bt = false := by rw [hbt]; rfl
  obtain ⟨u, hu, through, writing⟩ := writeFrame_spec (s := s.toWrite) hwf rfl htx rfl hfree
    (waits ▸ sentAt_flatMap (eligibleFields s.msg) _)
    (by
      rw [broadcastWave, List.length_append, ← Nat.add_assoc] at hn
      exact hn)
  have wave := write_completes hen legal hu through writing.quiet
  rwa [leadIn, List.append_assoc] at wave

/-- Settles O43: the frame, and its time. -/
theorem writeSendsABroadcastFrame : Obligations.WriteSendsABroadcastFrame := by
  intro s d hwf hen htx hbt legal hfree hn
  obtain ⟨t, completes, frame⟩ := writeBroadcast hwf hen htx hbt legal hfree hn
  refine ⟨t, completes, frame, ?_⟩
  rw [completes.ran.now, List.length_append, List.length_replicate, broadcastWave_length hwf,
    Nat.add_assoc (d + s.params.tBit)]

/-- Settles O44: the fields go out, each after the answer to the one before. -/
theorem writeSendsAnAnsweredFrame : Obligations.WriteSendsAnAnsweredFrame := by
  intro s d w hwf hen htx hbt legal hfree hanswered hn
  have waits : hsWaitFor s.msg.bt = true := by rw [hbt]; rfl
  obtain ⟨u, hu, through, writing⟩ := writeFrame_spec (s := s.toWrite) hwf rfl htx rfl hfree
    (waits ▸ sentAt_of_answeredAt _ hanswered) hn
  exact write_completes hen legal hu through writing.quiet

/-! ### Frames that are not answered -/

/-- Settles O45: the handshake after the `k`-th field is a rejection. -/
theorem writeAbortsOnReject : Obligations.WriteAbortsOnReject := by
  intro s d k n v width w hwf hen htx hbt legal hat hfree hanswered hbit hn
  obtain ⟨hk, rfl, rfl⟩ := eligibleFields_at hat
  have waits : hsWaitFor s.msg.bt = true := by rw [hbt]; rfl
  obtain ⟨u, f, run, through, writing⟩ := writeFrame_resume (s := s.toWrite) hwf rfl htx rfl hfree waits
    hanswered (hn.mono (Nat.le_add_right _ _)) hk
  have length : (leadIn s.params s.msg d ++ w ++
      fieldWave s.params (eligibleValue s.msg k) (eligibleWidth k)).length =
      d + s.params.tBit + (headWave s.params s.msg).length + w.length +
        (eligibleWidth k + 1) * s.params.tBit := by
    rw [List.length_append, List.length_append, leadIn_length, fieldWave_length hwf]
  have answer : BitAt u.params u.rxAt true 0 n := by
    rw [through.params]
    exact BitAt.later (w := leadIn s.params s.msg d ++ w ++
      fieldWave s.params (eligibleValue s.msg k) (eligibleWidth k)) (by rwa [length, Nat.add_zero])
      through.toSpent
  obtain ⟨t, rest, -, heard⟩ := hear_spec writing ⟨(eligiblePlace k).1, (eligiblePlace k).2⟩ answer
    (through.quiet n (length ▸ hn))
  rw [if_pos rfl] at heard
  exact write_aborts hen legal (run.trans (engine_bind_error heard)) (through.trans rest)

/-- Settles O46: the handshake after the `k`-th field does not come in time. -/
theorem writeTimesOutUnanswered : Obligations.WriteTimesOutUnanswered := by
  intro s d k n v width w hwf hen htx hbt legal hat hfree hanswered htime hn
  obtain ⟨hk, rfl, rfl⟩ := eligibleFields_at hat
  have waits : hsWaitFor s.msg.bt = true := by rw [hbt]; rfl
  have length : (leadIn s.params s.msg d ++ w ++
      fieldWave s.params (eligibleValue s.msg k) (eligibleWidth k)).length =
      d + s.params.tBit + (headWave s.params s.msg).length + w.length +
        (eligibleWidth k + 1) * s.params.tBit := by
    rw [List.length_append, List.length_append, leadIn_length, fieldWave_length hwf]
  have await := awaits_writeFrame (s := s.toWrite) hwf rfl htx rfl hfree waits hanswered
    (hn.mono (Nat.le_add_right _ _)) hk
  obtain ⟨u, hu, through⟩ := await.timeout rfl (n := n) (length ▸ htime) (length ▸ hn)
  have rests : s.toWrite.txd = .inactive := htx
  rw [rests] at through
  exact write_aborts hen legal hu through

/-! ### A busy bus -/

/-- A deadline that has passed. -/
theorem expired_after {s : State} {m e : Nat} (hnow : s.io.now = s.tS + .ofNat 64 e) (hm : m ≤ e)
    (h : e < 2 ^ 64) : s.expired (some m) = true := by
  have passed := ticksBetween_add s.tS (a := 0) h
  simp only [BitVec.add_zero, Nat.zero_add] at passed
  simpa [State.expired, hnow, passed] using hm

/-- The loop of `WaitBusFree`, `x` ticks after `T_S`: every test fails up to the `e`-th tick, where the
first test ends that ends after the bound (45_framer_write.md R193). -/
theorem waitBusFreeLoop_busBusy {m : Nat} (k : Nat) : ∀ {e x : Nat} {s : State}, s.busy = true →
    s.NoReset e → s.io.now = s.tS + .ofNat 64 x → s.params.tBusFreeMax = some m → m - x < k →
    m ≤ x + e → 1 ≤ e → x + e < 2 ^ 64 → s.rxAt (e - 1) = .active →
    (∀ j, m ≤ x + j + 1 → j + 1 < e → s.rxAt j = .inactive) →
    (∀ d, d + s.params.tBit ≤ e → ∃ j, j < s.params.tBit ∧ s.rxAt (d + j) = .active) →
    ∃ t, waitBusFreeLoop k s = .error (.raised ⟨.busBusy, .none, 0⟩) t ∧
      Through s t (List.replicate e s.txd) := by
  induction k with
  | zero =>
    intro e x s _ _ _ _ h
    omega
  | succ k ih =>
    intro e x s hb hn hts hmax hk hm he hlt hlast hafter hbusy
    have hex : ∃ j, j < e ∧ j < s.params.tBit ∧ s.rxAt j = .active := by
      by_cases window : s.params.tBit ≤ e
      · obtain ⟨j, hj, ha⟩ := hbusy 0 (by omega)
        exact ⟨j, by omega, hj, by simpa using ha⟩
      · exact ⟨e - 1, by omega, by omega, hlast⟩
    obtain ⟨hje, hj, ha⟩ := Nat.find_spec hex
    have hmin : ∀ i, i < Nat.find hex → s.rxAt i = .inactive := by
      intro i hi
      have := Nat.find_min hex hi
      cases hx : s.rxAt i with
      | inactive => rfl
      | active => exact absurd ⟨by omega, by omega, hx⟩ this
    generalize Nat.find hex = j at hje hj ha hmin
    obtain ⟨t, ht, hst, hf⟩ := busFreeLoop_taken j (n := s.params.tBit) hb (hn.mono (by omega)) hmin ha hj
    have txd : t.txd = s.txd := by rw [hf]
    have now : t.io.now = t.tS + .ofNat 64 (x + (j + 1)) := by
      have tS : t.tS = s.tS := by rw [hf]
      rw [hst.now, List.length_replicate, tS, hts, BitVec.add_assoc, ← BitVec.ofNat_add]
    have run : waitBusFreeLoop (k + 1) s = (if t.expired (some m) then raise .busBusy .none 0
        else waitBusFreeLoop k : Engine Unit) t := by
      rw [waitBusFreeLoop, busFree, bind_assoc, engine_bind_ok (engine_get s), engine_bind_ok ht,
        if_neg Bool.false_ne_true, engine_bind_ok (engine_get t), hst.params, hmax]
    have later : ∀ i, t.rxAt i = s.rxAt (j + 1 + i) := fun i => by rw [hst.rxAt, List.length_replicate]
    by_cases bound : m ≤ x + (j + 1)
    · have last : j + 1 = e := by
        by_contra early
        rw [hafter j (by omega) (by omega)] at ha
        cases ha
      rw [run, if_pos (expired_after now bound (by omega))]
      exact ⟨t, rfl, last ▸ .rests hst txd⟩
    · have inTime : t.expired (some m) = false := not_expired now fun m' hm' => by
        cases hm'
        omega
      rw [run, inTime, if_neg Bool.false_ne_true]
      obtain ⟨u, hu, rest⟩ := ih (e := e - (j + 1)) (x := x + (j + 1)) (hst.busy.trans hb)
        (hst.quiet _ (by
          rw [List.length_replicate]
          exact hn.mono (by omega)))
        now (hst.params ▸ hmax) (by omega) (by omega) (by omega) (by omega)
        (by rw [later, show j + 1 + (e - (j + 1) - 1) = e - 1 by omega, hlast])
        (fun i h₁ h₂ => by
          rw [later]
          exact hafter _ (by omega) (by omega))
        (fun d hd => by
          rw [hst.params] at hd ⊢
          obtain ⟨i, hi, hai⟩ := hbusy (j + 1 + d) (by omega)
          exact ⟨i, hi, by rw [later, ← Nat.add_assoc, hai]⟩)
      refine ⟨u, hu, ?_⟩
      rw [show e = j + 1 + (e - (j + 1)) by omega, replicate_add]
      exact (Through.rests hst txd).trans (txd ▸ rest)

/-- Settles O47: the wait for the bus is what fails. -/
theorem writeGivesUpOnABusyBus : Obligations.WriteGivesUpOnABusyBus := by
  intro s m e hwf hen htx legal hmax hme he hlt hlast hafter hbusy hn
  have turns : m < s.turns s.params.tBusFreeMax := deadline_lt_turns s hmax
  obtain ⟨u, hu, through⟩ := waitBusFreeLoop_busBusy (m := m) (s.turns s.params.tBusFreeMax) (x := 0)
    (s := { s.toWrite with seq := { s.toWrite.seq with state := .waitBusFree }, tS := s.io.now })
    rfl hn (by simp [State.toWrite]) hmax (by omega) (by omega) he (by omega) hlast
    (fun j h₁ h₂ => hafter j (by omega) h₂) hbusy
  have frame : writeFrame s.toWrite = .error (.raised ⟨.busBusy, .none, 0⟩) u := by
    refine engine_bind_error (engine_bind_error ?_)
    rw [writeStart, setSeq, engine_bind_ok (engine_modify _ _)]
    exact engine_bind_error hu
  have start : Through s.toWrite
      { s.toWrite with seq := { s.toWrite.seq with state := .waitBusFree }, tS := s.io.now } [] :=
    .of_io rfl rfl rfl rfl rfl
  have whole := start.trans through
  rw [List.nil_append] at whole
  have rests : s.toWrite.txd = .inactive := htx
  exact write_aborts hen legal frame (rests ▸ whole)

end Sys2Proof.Machine
end

section
/-! Waits that never end (70_reset_and_hazards.md R254). -/

namespace Sys2Proof.Machine

/-- What `tx` showed in the ticks that passed. -/
theorem State.Ran.drivenSince_eq {s t : State} {w : List Level} (h : s.Ran t w) :
    drivenSince s t = w := by
  rw [drivenSince, h.pins, List.length_append, Nat.add_sub_cancel, List.take_left, List.map_reverse,
    List.reverse_reverse, List.map_map]
  exact List.map_id w

/-- A piece goes through the ticks of `w` and then does not end, with nothing but repetitions to come on
the line. -/
def Stalls {α : Type} (m : Engine α) (s : State) (w : List Level) : Prop :=
  ∃ t, m s = .error .hung t ∧ Through s t w ∧ t.evt = none ∧ t.io.rx.script = []

theorem Stalls.bind {α β : Type} {m : Engine α} {s : State} {w : List Level} (h : Stalls m s w)
    (f : α → Engine β) : Stalls (m >>= f) s w := by
  obtain ⟨t, run, rest⟩ := h
  exact ⟨t, engine_bind_error run, rest⟩

/-- A piece that goes on from a later state as one that does not end. -/
theorem Stalls.of_run {α : Type} {m m' : Engine α} {s t : State} {w w' : List Level}
    (hrun : m s = m' t) (ht : Through s t w) (h : Stalls m' t w') : Stalls m s (w ++ w') := by
  obtain ⟨u, run, through, rest⟩ := h
  exact ⟨u, hrun.trans run, ht.trans through, rest⟩

/-- A pulse awaited without a deadline that does not come, or does not end. -/
theorem Awaits.stalls {α : Type} {m : Engine α} {pl : Place} {s : State} {w : List Level}
    (h : Awaits m pl s w) (hb : s.busy = true) (hend : EndlessAt s.params s.rxAt w.length)
    (hn : .reset ∉ s.io.host) : ∃ n, Stalls m s (w ++ List.replicate n s.txd) := by
  obtain ⟨t, n, run, through, quiet, script⟩ := h.hung hb hend hn
  exact ⟨n, t, run, through, quiet, script⟩

/-- An operation whose pseudocode does not end leaves `BUSY` 1 and no result. -/
theorem waitsForEver_of_stalls {i : Instr} {s : State} {w : List Level}
    (hn : .reset ∉ s.io.host) (h : Stalls (pseudocode i) s.accept w) :
    ∃ t, exec i s = .next t ∧ s.WaitsForEver t ∧ drivenSince s t = w := by
  obtain ⟨t, run, through, quiet, script⟩ := h
  have answers : exec i s = .next t := (exec_eq_operate i s).trans (operate_of_hung run)
  have msg : t.msg = s.msg := by
    by_cases hi : i = .readmsg
    · subst hi
      obtain ⟨-, kept, -⟩ := readIsNeverPartial s t answers
      exact kept through.busy
    · exact (exec_keeps_framer answers (not_reset_of_not_mem hn) hi).1
  obtain ⟨w', lapse⟩ := lapse_of_hung run
  have report := lapse.report
  simp only [State.report, Prod.mk.injEq] at report
  obtain ⟨valid, ok, result, err⟩ := report
  exact ⟨t, answers, ⟨through.busy, valid, ok, result, err, msg, through.en, quiet, script⟩,
    through.toRan.drivenSince_eq⟩

/-- The same for a wait for a pulse. -/
theorem waitsForEver_of_awaits {i : Instr} {pl : Place} {s : State} {w : List Level}
    (hn : .reset ∉ s.io.host) (h : Awaits (pseudocode i) pl s.accept w)
    (hend : EndlessAt s.params s.rxAt w.length) :
    ∃ t n, exec i s = .next t ∧ s.WaitsForEver t ∧ drivenSince s t = w ++ List.replicate n s.txd := by
  obtain ⟨n, stalls⟩ := h.stalls rfl hend hn
  obtain ⟨t, answers, waits, driven⟩ := waitsForEver_of_stalls hn stalls
  exact ⟨t, n, answers, waits, driven⟩

/-! ### The pulses the operations wait for -/

/-- An operation that waits for a pulse at once. -/
theorem awaits_pseudocode {i : Instr} {s : State}
    (hi : i = .rxstart ∨ i = .rxbit ∨ i = .rxack ∨ (i = .readmsg ∧ s.en = true)) :
    ∃ pl, Awaits (pseudocode i) pl s [] := by
  obtain rfl | rfl | rfl | ⟨rfl, hen⟩ := hi
  · exact ⟨_, (awaits_rxStart s).bind _⟩
  · exact ⟨_, (awaits_rxBit _ s).bind _⟩
  · exact ⟨_, ((awaits_rxBit _ s).bind _).bind _⟩
  · exact ⟨⟨.start, 0⟩, Awaits.of_run (w := []) (readMsg_of_enabled hen) (.of_io rfl rfl rfl rfl rfl)
      ((awaits_readFrame _).bind _)⟩

/-- RXBITS after some of its bits. -/
theorem awaits_pseudocode_rxbits {c : BitVec 5} {bs : List Bool} {a : Nat} {s : State}
    (hc : legalCount c = true) (hlen : bs.length < c.toNat) (hb : s.busy = true)
    (hbits : BitsAt s.params s.rxAt bs 0 a) (hn : s.NoReset a) :
    Awaits (pseudocode (.rxbits c)) .alone s (List.replicate a s.txd) := by
  rw [pseudocode, if_pos hc]
  exact (awaits_rxBits .alone hlen hb hbits hn).bind _

/-! ### The bus -/

/-- A frame on a bus that is never free, without a bound (45_framer_write.md R193). -/
theorem stalls_writeFrame {s : State} (hb : s.busy = true) (hn : .reset ∉ s.io.host)
    (hmax : s.params.tBusFreeMax = none)
    (hbusy : ∀ d, ∃ k, k < s.params.tBit ∧ s.rxAt (d + k) = .active) :
    ∃ n, Stalls writeFrame s (List.replicate n s.txd) := by
  obtain ⟨t, n, run, spent, turns, frame⟩ := waitBusFreeLoop_hung (s.turns s.params.tBusFreeMax)
    (s := { s with seq := { s.seq with state := .waitBusFree }, tS := s.io.now }) hb
    (fun n => .of_not_mem hn n) hbusy hmax
  have horizon : s.io.rx.horizon < s.turns s.params.tBusFreeMax := horizon_lt_turns s _
  have start : writeStart s = .error .hung t := by
    rw [writeStart, setSeq, engine_bind_ok (engine_modify _ _)]
    exact engine_bind_error run
  refine ⟨n, t, engine_bind_error (engine_bind_error start), ?_, ?_, ?_⟩
  · have since : Through { s with seq := { s.seq with state := .waitBusFree }, tS := s.io.now } t
        (List.replicate n s.txd) := { spent with txd := by rw [frame] }
    exact Through.trans (w := []) (by exact .of_io rfl rfl rfl rfl rfl) since
  · rw [frame, if_neg (by omega)]
  · rw [spent.rx, List.length_replicate]
    exact script_after_horizon (horizon.le.trans turns)

theorem stalls_writeMsg {s : State} {w : List Level} (hen : s.en = true)
    (legal : legalLen s.msg.len = true) (h : Stalls writeFrame s.toWrite w) :
    Stalls (pseudocode .writemsg) s.accept w :=
  Stalls.of_run (w := []) (writeMsg_of_legal (s := s.accept) hen legal) (.of_io rfl rfl rfl rfl rfl)
    (h.bind _)

/-- Settles O23: the wait for the first pulse, for a later bit, for the bus, and for a handshake. -/
theorem waitWithoutDeadlineNeverCompletes : Obligations.WaitWithoutDeadlineNeverCompletes := by
  intro s hwf hn
  refine ⟨fun i hi => ?_, fun d k v width w hen htx hbt legal hat hfree hanswered hend => ?_⟩
  · suffices rests : ∃ t n, exec i s = .next t ∧ s.WaitsForEver t ∧
        drivenSince s t = List.replicate n s.txd by
      obtain ⟨t, n, answers, waits, driven⟩ := rests
      exact ⟨t, answers, waits, fun x hx => List.eq_of_mem_replicate (driven ▸ hx)⟩
    obtain ⟨hend, hi⟩ | ⟨c, bs, a, rfl, hc, hlen, hbits, hend⟩ | ⟨rfl, hen, legal, hmax, hbusy⟩ := hi
    · obtain ⟨pl, awaits⟩ := awaits_pseudocode (s := s.accept) hi
      exact waitsForEver_of_awaits hn awaits hend
    · have awaits := awaits_pseudocode_rxbits (s := s.accept) hc hlen rfl hbits (.of_not_mem hn a)
      obtain ⟨t, n, answers, waits, driven⟩ := waitsForEver_of_awaits hn awaits
        (by rwa [List.length_replicate])
      exact ⟨t, a + n, answers, waits, by rw [driven, replicate_add]; rfl⟩
    · obtain ⟨n, stalls⟩ := stalls_writeFrame (s := s.toWrite) rfl hn hmax hbusy
      obtain ⟨t, ends⟩ := waitsForEver_of_stalls hn (stalls_writeMsg hen legal stalls)
      exact ⟨t, n, ends⟩
  · obtain ⟨hk, rfl, rfl⟩ := eligibleFields_at hat
    have waits : hsWaitFor s.msg.bt = true := by rw [hbt]; rfl
    have awaits := awaits_writeFrame (s := s.toWrite) hwf rfl htx rfl hfree waits hanswered
      (.of_not_mem hn _) hk
    have length : (leadIn s.params s.msg d ++ w ++
        fieldWave s.params (eligibleValue s.msg k) (eligibleWidth k)).length =
        d + s.params.tBit + (headWave s.params s.msg).length + w.length +
          (eligibleWidth k + 1) * s.params.tBit := by
      rw [List.length_append, List.length_append, leadIn_length, fieldWave_length hwf]
    obtain ⟨j, stalls⟩ := awaits.stalls rfl (length ▸ hend) hn
    obtain ⟨t, answers, ends, driven⟩ := waitsForEver_of_stalls hn (stalls_writeMsg hen legal stalls)
    have rests : s.toWrite.txd = .inactive := htx
    exact ⟨t, j, answers, ends, by rw [driven, rests]; rfl⟩

end Sys2Proof.Machine
end

section
/-! What one node sends is what another node with the same bit timing receives (41_codec_receive.md R129;
44_framer_read.md R170 and 45_framer_write.md R190). -/

namespace Sys2Proof.Machine

/-! ### A waveform on the line -/

/-- The line shows the levels `w` from offset `o` on. -/
def Shows (rx : Nat → Level) (o : Nat) (w : List Level) : Prop :=
  ∀ (k : Nat) (hk : k < w.length), rx (o + k) = w[k]

section
variable {rx : Nat → Level} {o : Nat}

theorem shows_append {w w' : List Level} :
    Shows rx o (w ++ w') ↔ Shows rx o w ∧ Shows rx (o + w.length) w' := by
  constructor
  · refine fun h => ⟨fun k hk => ?_, fun k hk => ?_⟩
    · rw [h k (by rw [List.length_append]; omega), List.getElem_append_left hk]
    · rw [Nat.add_assoc, h (w.length + k) (by rw [List.length_append]; omega),
        List.getElem_append_right (by omega)]
      simp
  · rintro ⟨first, rest⟩ k hk
    rw [List.length_append] at hk
    by_cases inside : k < w.length
    · rw [first k inside, List.getElem_append_left inside]
    · rw [List.getElem_append_right (by omega), ← rest (k - w.length) (by omega)]
      congr 1
      omega

theorem shows_replicate {n : Nat} {l : Level} :
    Shows rx o (List.replicate n l) ↔ ∀ k, k < n → rx (o + k) = l := by
  simp [Shows]

end

/-- What a node hears after `d` ticks of rest. -/
theorem State.Hears.shows {r : State} {d : Nat} {w : List Level} (h : r.Hears d w) :
    Shows r.rxAt 0 (List.replicate d .inactive ++ w) := by
  obtain ⟨rest, wave⟩ := h
  refine shows_append.mpr ⟨shows_replicate.mpr fun k hk => by rw [Nat.zero_add, rest k hk], fun k hk => ?_⟩
  rw [Nat.zero_add, List.length_replicate, wave k hk, List.getD_eq_getElem w .inactive hk]

/-! ### Receiving it piece by piece -/

/-- A node with the parameters `q` meets no deadline in waveforms made with the parameters `p`, where the
line rests for at most `D` ticks between two pulses. -/
structure Listens (p q : Params) (D : Nat) : Prop where
  wf : p.wf = true
  same : SameTiming p q
  slot : p.tBit ≤ D
  inTime : Within q.tWaitMax (D + 1)
  clock : p.tBit < 2 ^ 64

/-- Whatever rest comes before the waveform, and whatever after it: a reception as `R` says, from the offset
on and for so many ticks, takes it in, and leaves at most some rest at its end. -/
def Catches (rx : Nat → Level) (D : Nat) (wave : List Level) (R : Nat → Nat → Prop) : Prop :=
  ∀ (o g : Nat) (w : List Level), g ≤ D → Shows rx o (List.replicate g .inactive ++ (wave ++ w)) →
    ∃ n g', R o n ∧ n + g' = g + wave.length ∧ g' ≤ D ∧
      Shows rx (o + n) (List.replicate g' .inactive ++ w)

section
variable {p q : Params} {rx : Nat → Level} {D : Nat}

/-- One waveform after another. -/
theorem Catches.append {wave wave' : List Level} {R R' : Nat → Nat → Prop}
    (h : Catches rx D wave R) (h' : Catches rx D wave' R') :
    Catches rx D (wave ++ wave') fun o n => ∃ a b, R o a ∧ R' (o + a) b ∧ n = a + b := by
  intro o g w hg shows
  rw [List.append_assoc] at shows
  obtain ⟨a, g', first, ticks, hg', shows'⟩ := h o g _ hg shows
  obtain ⟨b, g'', second, ticks', hg'', rest⟩ := h' _ g' w hg' shows'
  refine ⟨a + b, g'', ⟨a, b, first, second, rfl⟩, ?_, hg'', by rwa [← Nat.add_assoc]⟩
  rw [List.length_append]
  omega

theorem Catches.mono {wave : List Level} {R R' : Nat → Nat → Prop} (h : Catches rx D wave R)
    (hR : ∀ o n, R o n → R' o n) : Catches rx D wave R' := by
  intro o g w hg shows
  obtain ⟨n, g', first, rest⟩ := h o g w hg shows
  exact ⟨n, g', hR o n first, rest⟩

/-- The waveform with nothing asked of what comes after it. -/
theorem Catches.whole {wave : List Level} {R : Nat → Nat → Prop} {g : Nat} (h : Catches rx D wave R)
    (hg : g ≤ D) (shows : Shows rx 0 (List.replicate g .inactive ++ wave)) :
    ∃ n, R 0 n ∧ n ≤ g + wave.length := by
  obtain ⟨n, g', first, ticks, -⟩ := h 0 g [] hg (by rwa [List.append_nil])
  exact ⟨n, first, by omega⟩

/-- A slot of `T` ticks with a pulse of `H` ticks (30_encoding.md R80). -/
theorem catches_slot {H T : Nat} (h : Listens p q D) (hpos : 1 ≤ H) (hH : H < T) (hHD : H ≤ D)
    (hTD : T ≤ D + 2) (hclock : H < 2 ^ 64) :
    Catches rx D (List.replicate H .active ++ List.replicate (T - H) .inactive) fun o n =>
      ∃ g, PulseAt q rx o g H ∧ n = g + H + 1 := by
  intro o g w hg shows
  have split : T - H = 1 + (T - H - 1) := by omega
  rw [split, replicate_add, List.append_assoc, List.append_assoc] at shows
  obtain ⟨gap, shows⟩ := shows_append.mp shows
  obtain ⟨active, shows⟩ := shows_append.mp shows
  obtain ⟨stop, rest⟩ := shows_append.mp shows
  rw [shows_replicate] at gap active stop
  simp only [List.length_replicate] at active stop rest
  have pulse : PulseAt q rx o g H := ⟨gap, active, by simpa using stop 0 (by omega), hpos,
    h.inTime.mono (by omega), h.inTime.mono (by omega), hclock⟩
  refine ⟨g + H + 1, T - H - 1, ⟨g, pulse, rfl⟩, ?_, by omega, by rwa [← Nat.add_assoc, ← Nat.add_assoc]⟩
  rw [List.length_append, List.length_replicate, List.length_replicate]
  omega

theorem isSymbol_of_sameTiming (h : SameTiming p q) {d : Nat} {b : Bool} (hs : IsSymbol p d b) :
    IsSymbol q d b := by
  rwa [IsSymbol, h.tHigh0, h.tHigh1]

/-- A data bit. -/
theorem catches_bitWave (h : Listens p q D) (b : Bool) : Catches rx D (bitWave p b) (BitAt q rx b) := by
  have short := highOf_lt h.wf b
  have slot := h.slot
  have clock := h.clock
  refine (catches_slot h (highOf_pos h.wf b) short (by omega) (by omega) (by omega)).mono ?_
  rintro o n ⟨g, pulse, rfl⟩
  exact ⟨g, highOf p b, pulse, isSymbol_of_sameTiming h.same (isSymbol_highOf h.wf b), rfl⟩

/-- Data bits back to back. -/
theorem catches_bitsWave (h : Listens p q D) (bs : List Bool) :
    Catches rx D (bitsWave p bs) (BitsAt q rx bs) := by
  induction bs with
  | nil => exact fun o g w hg shows => ⟨0, g, rfl, Nat.add_comm _ _, hg, shows⟩
  | cons b bs ih => exact (catches_bitWave h b).append ih

/-- A field, of which the receiver owes no handshake. -/
theorem catches_fieldWave (h : Listens p q D) (v : Half) (width : Nat) :
    Catches rx D (fieldWave p v width) fun o n =>
      FieldAt q rx false v width o (List.replicate n .inactive) := by
  have wave : fieldWave p v width = bitsWave p (bitsOf v width) ++ bitWave p (parity v width) := by
    simp [fieldWave, bitsWave]
  rw [wave]
  refine ((catches_bitsWave h _).append (catches_bitWave h _)).mono ?_
  rintro o n ⟨a, b, bits, parity, rfl⟩
  exact ⟨a, b, bits, parity, by rw [if_neg Bool.false_ne_true, List.append_nil]⟩

/-- Fields back to back. -/
theorem catches_fieldsWave (h : Listens p q D) (fs : List (Half × Nat)) :
    Catches rx D (fs.flatMap fun f => fieldWave p f.1 f.2) fun o n =>
      FieldsAt q rx false fs o (List.replicate n .inactive) := by
  induction fs with
  | nil => exact fun o g w hg shows => ⟨0, g, rfl, Nat.add_comm _ _, hg, shows⟩
  | cons f fs ih =>
    refine ((catches_fieldWave h f.1 f.2).append ih).mono ?_
    rintro o n ⟨a, b, first, rest, rfl⟩
    exact ⟨_, _, first, by rwa [List.length_replicate], replicate_add a b _⟩

/-- A start bit. -/
theorem catches_startWave (h : Listens p q D) (hD : p.tStartTotal ≤ D) (hclock : p.tStartTotal < 2 ^ 64) :
    Catches rx D (startWave p) fun o n =>
      ∃ g H, PulseAt q rx o g H ∧ InStartWindow q H ∧ n = g + H + 1 := by
  obtain ⟨pos, short, -⟩ := (wf_iff p).mp h.wf
  refine (catches_slot h pos short (by omega) (by omega) (by omega)).mono ?_
  rintro o n ⟨g, pulse, rfl⟩
  exact ⟨g, p.tStartHigh, pulse, h.same.tStartHigh ▸ inStartWindow_tStartHigh q, rfl⟩

/-- The symbol of a broadcast type is the same where `FD_SYMBOL` is. -/
theorem symbolOfBType_congr (h : q.fdSymbol = p.fdSymbol) (t : BType) :
    symbolOfBType q t = symbolOfBType p t := by
  cases t <;> simp [symbolOfBType, h]

/-- A `Broadcast` frame (30_encoding.md R85). -/
theorem catches_broadcastWave (h : Listens p q D) (hD : p.tStartTotal ≤ D)
    (hclock : p.tStartTotal < 2 ^ 64) (hfd : q.fdSymbol = p.fdSymbol) {m : Message}
    (hbt : m.bt = .broadcast) :
    Catches rx D (broadcastWave p m) fun o n => o = 0 → FrameAt q rx m (List.replicate n .inactive) := by
  have unowed : owedFor q m.bt m.slave = false := by rw [hbt]; rfl
  refine ((((catches_startWave h hD hclock).append (catches_bitWave h _)).append
    (catches_fieldWave h _ _)).append (catches_fieldsWave h _)).mono ?_
  rintro _ n ⟨_, b, ⟨_, f, ⟨_, a, ⟨g, H, pulse, window, rfl⟩, type, rfl⟩, master, rfl⟩, fields, rfl⟩ rfl
  simp only [Nat.zero_add] at type master fields
  rw [← symbolOfBType_congr hfd] at type
  have head : HeadAt q rx m (g + H + 1 + a + f) :=
    ⟨g, H, a, _, pulse, window, type, master, by rw [List.length_replicate]⟩
  exact ⟨_, _, head, unowed ▸ fields, replicate_add _ _ _⟩

end

/-! ### Between two nodes -/

theorem within_of_waitExceeds {q : Params} {D : Nat} (h : q.waitExceeds D = true) :
    Within q.tWaitMax (D + 1) := by
  intro m hm
  simpa [Params.waitExceeds, hm] using h

/-- What a transmit operation that completed drove. -/
theorem drivenSince_of_transmitWave {i : Instr} {s t : State} {w : List Level} (hwf : s.params.wf = true)
    (hi : transmitWave s.params i = some w) (hn : s.NoReset w.length) (h : exec i s = .next t) :
    drivenSince s t = w := by
  obtain ⟨u, completes, -⟩ := completes_of_transmitWave hwf hi hn
  obtain rfl : t = u := by simpa [h] using completes.answers
  exact completes.ran.drivenSince_eq

/-- Settles O29: every bit sent is a bit received. -/
theorem bitFieldRoundTrip : Obligations.BitFieldRoundTrip := by
  intro s t r v n d hwf hc hn h hsame hears hwait hclock hnr
  obtain ⟨hpos, h16⟩ := (legalCount_iff n).mp hc
  have length : (bitsWave s.params (bitsOf v n.toNat)).length = n.toNat * s.params.tBit := by
    rw [bitsWave_length hwf, bitsOf_length]
  have wave : transmitWave s.params (.txbits v n) = some (bitsWave s.params (bitsOf v n.toNat)) := if_pos hc
  rw [drivenSince_of_transmitWave hwf wave (length ▸ hn) h] at hears
  have listens : Listens s.params r.params (d + s.params.tBit) :=
    ⟨hwf, hsame, by omega, within_of_waitExceeds hwait, hclock⟩
  obtain ⟨x, bits, hx⟩ := (catches_bitsWave listens _).whole (by omega) hears.shows
  obtain ⟨u, hu, hst, hf, -⟩ := rxBits_spec .alone (bitsOf v n.toNat) (s := r.accept) rfl bits
    (hnr.mono (length ▸ hx))
  rw [bitsOf_length] at hu
  have nonempty : bitsOf v n.toNat ≠ [] := List.ne_nil_of_length_pos (by rw [bitsOf_length]; omega)
  have completes := completes_of_ok (exec_rxbits_of_legal hc r) (engine_bind_ok hu) hst
    (by rw [hf, if_neg nonempty])
  refine ⟨_, _, completes.answers, completes.reports, ?_⟩
  have value := lowBits_shifted (bitsOf v n.toNat) (by rwa [bitsOf_length])
  rwa [bitsOf_length, valueOf_bitsOf] at value

/-- RXSTART of a pulse in the start window. -/
theorem rxstart_completes {g H : Nat} {r : State} (htol : r.params.startTol ≤ r.params.tStartHigh)
    (hp : PulseAt r.params r.rxAt 0 g H) (hin : InStartWindow r.params H) (hn : r.NoReset (g + H + 1)) :
    ∃ u, Completes .rxstart r u (List.replicate (g + H + 1) r.txd) true 1 := by
  obtain ⟨u, hu, hst, hf⟩ := rxStart_spec (s := r.accept) rfl hp hn
  have run : pseudocode .rxstart r.accept = .ok (true, halfOfBit true) u := by
    have start : isStart r.accept.params H = true := (isStart_iff _ _ htol).mpr hin
    rw [pseudocode, engine_bind_ok hu, if_pos start, engine_pure]
  exact ⟨_, completes_of_ok (exec_eq_operate .rxstart r) run hst (by rw [hf])⟩

/-- Settles O30: the start bit's width is in the window, and the handshake's is its symbol's. -/
theorem startAndHandshakeRoundTrip : Obligations.StartAndHandshakeRoundTrip := by
  intro s t r a d hwf hsame hclock hears hwait hn hnr
  obtain ⟨-, -, hbit, htol, -⟩ := (wf_iff s.params).mp hwf
  have listens : Listens s.params r.params (d + s.params.tStartTotal) :=
    ⟨hwf, hsame, by omega, within_of_waitExceeds hwait, by omega⟩
  refine ⟨fun h => ?_, fun h => ?_⟩
  · have length := startWave_length hwf
    rw [drivenSince_of_transmitWave hwf rfl (length ▸ hn) h] at hears
    obtain ⟨_, ⟨g, H, pulse, window, rfl⟩, ticks⟩ :=
      (catches_startWave listens (by omega) hclock).whole (by omega) hears.shows
    obtain ⟨u, completes⟩ := rxstart_completes (by rwa [hsame.startTol, hsame.tStartHigh]) pulse window
      (hnr.mono (length ▸ ticks))
    exact ⟨u, completes.answers, completes.reports⟩
  · have length := bitWave_length hwf a.toBit
    rw [drivenSince_of_transmitWave hwf rfl (hn.mono (by omega)) h] at hears
    obtain ⟨_, ⟨g, H, pulse, symbol, rfl⟩, ticks⟩ :=
      (catches_bitWave listens a.toBit).whole (by omega) hears.shows
    obtain ⟨u, completes, -⟩ := completes_bit (exec_rxack_eq_rxbit r) pulse symbol (hnr.mono (by omega))
    refine ⟨u, completes.answers, ?_⟩
    cases a <;> exact completes.reports

/-- Settles O48: the frame on the line is the one sent, and the reader owes no answer to it. -/
theorem frameRoundTrip : Obligations.FrameRoundTrip := by
  intro s t r c d hwf hen htx hbt legal hfree hn h hsame hfd hclock hren hrtx hc hears hwait hnr
  have length := broadcastWave_length hwf s.msg
  obtain ⟨t', completes, -⟩ := writeBroadcast hwf hen htx hbt legal hfree
    (by rwa [length, Nat.zero_add, ← Nat.add_assoc])
  obtain rfl : t = t' := by simpa [h] using completes.answers
  rw [completes.ran.drivenSince_eq, Nat.zero_add, List.drop_append_of_le_length
    (by rwa [List.length_replicate]), List.drop_replicate] at hears
  have shows := hears.shows
  rw [← List.append_assoc, List.replicate_append_replicate] at shows
  have listens : Listens s.params r.params (d + s.params.tBit + s.params.tStartTotal) :=
    ⟨hwf, hsame, by omega, within_of_waitExceeds hwait, by
      obtain ⟨-, -, hbit, -⟩ := (wf_iff s.params).mp hwf
      omega⟩
  obtain ⟨n, frame, ticks⟩ := (catches_broadcastWave listens (by omega) hclock hfd hbt).whole (by omega) shows
  have can : CanRead r.params s.msg := by
    refine ⟨?_, fun owed => ?_⟩
    · rw [hsame.startTol, hsame.tStartHigh]
      exact startTol_le_of_wf hwf
    · rw [hbt] at owed
      cases owed
  obtain ⟨u, reads, -, type, master, slave, ctrl, len, bytes, -⟩ := readMsg_completes can hren hrtx legal
    (frame rfl) (by
      rw [List.length_replicate]
      exact hnr.mono (by omega))
  refine ⟨u, reads.answers, reads.reports, type.trans hbt, master, slave, ctrl, len, bytes, fun l hl => ?_⟩
  rw [reads.ran.drivenSince_eq] at hl
  exact List.eq_of_mem_replicate hl

end Sys2Proof.Machine
end
